-- ==== Sys2Proof/Word.lean ====
section
/-!
DEFINITION. Sys2Proof/Word.lean: the 64-bit data word and the 32-bit word address of the block's bus (20_memory R60, R63), and the
literals of 00_scope R10.
-/
namespace Sys2Proof

/-- One word of the bus, of the buffer and of every 64-bit register: raw bits, which the arithmetic reads as binary64 (R10, R63). -/
abbrev Word := BitVec 64

/-- A host word address: each names one 64-bit word (R60, R64: there is no byte address). -/
abbrev Addr := BitVec 32

/-- The binary64 literals of R10, R14 and R121, as bit patterns. -/
def Word.posZero : Word := 0x0000000000000000#64

def Word.negZero : Word := 0x8000000000000000#64

def Word.half : Word := 0x3FE0000000000000#64

def Word.negHalf : Word := 0xBFE0000000000000#64

def Word.one : Word := 0x3FF0000000000000#64

def Word.two : Word := 0x4000000000000000#64

def Word.negTwo : Word := 0xC000000000000000#64

def Word.forty : Word := 0x4044000000000000#64

/-- `FP.PI`, the binary64 value nearest to pi (R14). -/
def Word.pi : Word := 0x400921FB54442D18#64

end Sys2Proof
end

