-- ==== Sys2Proof/Config.lean ====
section
/-!
DEFINITION. Sys2Proof/Config.lean: what one built block fixes (00_scope R6), and the free values: constants with no body, of which
nothing can be evaluated or proved.
-/
namespace Sys2Proof

/-- The parameters of R6 that are not visible in the shape of the state: `BUFCAP` (1 ... 2^30) and `CNTW` (1 ... 63).
`NSTAGES` is the number of entries of the stage file (10_state R26). See notes/assumptions/3.md. -/
structure Config where
  bufcap : Nat
  cntw : Nat
  deriving DecidableEq, Repr

/-- The ranges of R6 (D26). -/
abbrev Config.wf (c : Config) : Prop :=
  1 ≤ c.bufcap ∧ c.bufcap ≤ 2 ^ 30 ∧ 1 ≤ c.cntw ∧ c.cntw ≤ 63

/-- The four dotted operators of R11. -/
inductive FpOp where
  | add
  | sub
  | mul
  | div
  deriving DecidableEq, Repr

/-- FREE VALUE: the bits an operation that returns a NaN takes its sign and fraction from (R13, U4). A function of the operation and
its operands (R12 "each operation is a total function of its operands"). DESIGN CHOICE, notes/assumptions/5.md. -/
opaque Config.freeNaN : FpOp → Word → Word → Word

/-- FREE VALUE: `10^e` outside the exact cases (R14, U5). notes/assumptions/6.md. -/
opaque Config.pow10Lib : Word → Word

/-- FREE VALUE: the sine outside the exact case (R14, U5). notes/assumptions/6.md. -/
opaque Config.sinLib : Word → Word

/-- FREE VALUE: the cosine outside the exact case (R14, U5). notes/assumptions/6.md. -/
opaque Config.cosLib : Word → Word

/-- FREE VALUE: the `d`-th coefficient drawn by a design with degenerate parameters (R122, U1). notes/assumptions/7.md. -/
opaque Config.freeCoef : Nat → Word

/-- FREE VALUE: what word `i` of the buffer holds after the hardware reset number `epoch` and before anything writes it (R222, U3).
notes/assumptions/8.md. -/
opaque Config.freeBuf : Nat → Nat → Word

end Sys2Proof
end

