-- ==== Sys2Proof/Syntax.lean ====
section
/-!
DEFINITION. Sys2Proof/Syntax.lean: the operations of the block, one constructor per row of spec/opcode_table.json: the ten commands
of 30_encoding R82 and the four bus operations of R90.
-/
namespace Sys2Proof

/-- An operation of the block. `k` is the stage index of R83, `n` the "negate gain" flag of R84, `a` the word address and `w` the
word of a bus transaction (43_host_access R170 to R174). -/
inductive Instr where
  /-- OSC.INIT, opcode 0x01, 40_oscillator R100. -/
  | oscInit
  /-- OSC.RESET, opcode 0x02, R103. -/
  | oscReset
  /-- OSC.FILL, opcode 0x03, R104. -/
  | oscFill
  /-- BQ.DESIGN `k` [`, neg`], opcode 0x10, 41_biquad R123. -/
  | bqDesign (k : BitVec 16) (n : Bool)
  /-- BQ.LOAD `k`, opcode 0x11, R124. -/
  | bqLoad (k : BitVec 16)
  /-- BQ.RESET `k`, opcode 0x12, R125. -/
  | bqReset (k : BitVec 16)
  /-- BQ.APPLY `k`, opcode 0x13, R127. -/
  | bqApply (k : BitVec 16)
  /-- CAS.BUILD, opcode 0x20, 42_cascade R151. -/
  | casBuild
  /-- CAS.RESET, opcode 0x21, R153. -/
  | casReset
  /-- CAS.APPLY, opcode 0x22, R154. -/
  | casApply
  /-- REG.RD: host read of an address with bits 31:30 = 00, R170. -/
  | regRd (a : Addr)
  /-- REG.WR: host write of `w` to an address with bits 31:30 = 00, R171. -/
  | regWr (a : Addr) (w : Word)
  /-- BUF.RD: host read of an address with bits 31:30 = 01, R173. -/
  | bufRd (a : Addr)
  /-- BUF.WR: host write of `w` to an address with bits 31:30 = 01, R174. -/
  | bufWr (a : Addr) (w : Word)
  deriving DecidableEq, Repr

end Sys2Proof
end

