-- ==== Sys2Proof/WellFormed.lean ====
section
/-!
DEFINITION. Sys2Proof/WellFormed.lean: which terms of `Instr` are operations the host can issue (30_encoding R90, R81).
-/
namespace Sys2Proof

/-- Bits 31:30 of a word address select the region: 0 the registers, 1 the buffer, 2 and 3 unmapped (R90). -/
def Addr.region (a : Addr) : BitVec 2 := a.extractLsb' 30 2

/-- The address of the write-only command port (R36, R41). -/
def Addr.cmd : Addr := 0#32

/-- The check of an operation's fields. A command's `k` and `n` fill their fields (R81), so every one is well formed; `k < NSTAGES` is
no matter of form but the fault BAD_STAGE (R83). A bus operation's address lies in its region (R90); a write to CMD is the command its
word encodes (R175) and is spelled as that command, not as REG.WR. -/
def Instr.wf : Instr → Bool
  | .oscInit => true
  | .oscReset => true
  | .oscFill => true
  | .bqDesign _ _ => true
  | .bqLoad _ => true
  | .bqReset _ => true
  | .bqApply _ => true
  | .casBuild => true
  | .casReset => true
  | .casApply => true
  | .regRd a => a.region == 0#2
  | .regWr a _ => a.region == 0#2 && a != Addr.cmd
  | .bufRd a => a.region == 1#2
  | .bufWr a _ => a.region == 1#2

end Sys2Proof
end

