-- ==== Sys2Proof/Decode.lean ====
section
/-!
DEFINITION. Sys2Proof/Decode.lean: bus transactions, the decoder from a transaction to an operation (30_encoding R80 to R87, R90) and
the encoder back. The decoder is total and rejects by name.
-/
namespace Sys2Proof

/-- One host bus transaction: its kind, its word address and, for a write, its word (20_memory R60, R63; 00_scope R16). -/
inductive Txn where
  | read (a : Addr)
  | write (a : Addr) (w : Word)
  deriving DecidableEq, Repr

/-- Why a transaction is no operation of the block. -/
inductive Reject where
  /-- A word written to CMD that matches no row of R82 (R86). -/
  | illegalCmd
  /-- An address with bit 31 set: no row of R90, unmapped (R62, R90). -/
  | unmapped
  deriving DecidableEq, Repr

/-- The fields of format CMDW (R81). -/
structure CmdFields where
  zeroHi : BitVec 32
  opcode : BitVec 8
  zeroMid : BitVec 7
  n : BitVec 1
  k : BitVec 16
  deriving DecidableEq, Repr

/-- A command word cut into the fields of R81: 63:32, 31:24, 23:17, 16, 15:0. -/
def cmdFields (w : Word) : CmdFields where
  zeroHi := w.extractLsb' 32 32
  opcode := w.extractLsb' 24 8
  zeroMid := w.extractLsb' 17 7
  n := w.extractLsb' 16 1
  k := w.extractLsb' 0 16

/-- What a command's row of R82 lets its fields `n` and `k` hold (R85). -/
inductive CmdUses where
  | neither
  | stage
  | stageAndSign
  deriving DecidableEq, Repr

/-- R85: the must-be-zero bits of a word for a command that uses only the fields named. -/
def cmdZerosOk (u : CmdUses) (f : CmdFields) : Bool :=
  f.zeroHi == 0#32 && f.zeroMid == 0#7 &&
    match u with
    | .neither => f.n == 0#1 && f.k == 0#16
    | .stage => f.n == 0#1
    | .stageAndSign => true

/-- The command `i` if the must-be-zero fields are zero, else the word is illegal (R85, R86). -/
def cmdIf (u : CmdUses) (f : CmdFields) (i : Instr) : Except Reject Instr :=
  if cmdZerosOk u f then .ok i else .error .illegalCmd

/-- The command a word written to CMD selects: the opcode map of R82; every other opcode is illegal (R86, R87). -/
def decodeCmd (w : Word) : Except Reject Instr :=
  let f := cmdFields w
  if f.opcode = 0x01#8 then cmdIf .neither f .oscInit
  else if f.opcode = 0x02#8 then cmdIf .neither f .oscReset
  else if f.opcode = 0x03#8 then cmdIf .neither f .oscFill
  else if f.opcode = 0x10#8 then cmdIf .stageAndSign f (.bqDesign f.k (f.n == 1#1))
  else if f.opcode = 0x11#8 then cmdIf .stage f (.bqLoad f.k)
  else if f.opcode = 0x12#8 then cmdIf .stage f (.bqReset f.k)
  else if f.opcode = 0x13#8 then cmdIf .stage f (.bqApply f.k)
  else if f.opcode = 0x20#8 then cmdIf .neither f .casBuild
  else if f.opcode = 0x21#8 then cmdIf .neither f .casReset
  else if f.opcode = 0x22#8 then cmdIf .neither f .casApply
  else .error .illegalCmd

/-- The operation a transaction is: by kind and address (R90), and for a write to CMD by the word (R175). -/
def decode : Txn → Except Reject Instr
  | .read a =>
    if a.region = 0#2 then .ok (.regRd a)
    else if a.region = 1#2 then .ok (.bufRd a)
    else .error .unmapped
  | .write a w =>
    if a = Addr.cmd then decodeCmd w
    else if a.region = 0#2 then .ok (.regWr a w)
    else if a.region = 1#2 then .ok (.bufWr a w)
    else .error .unmapped

/-- A command word laid out by R81: zero_hi, opcode, zero_mid, n, k from the most significant bits down. -/
def cmdWord (opcode : BitVec 8) (n : BitVec 1) (k : BitVec 16) : Word :=
  0#32 ++ opcode ++ 0#7 ++ n ++ k

/-- The transaction that is the operation: a command is a write of its word to CMD (R80), a bus operation is itself (R90). -/
def encode : Instr → Txn
  | .oscInit => .write Addr.cmd (cmdWord 0x01#8 0#1 0#16)
  | .oscReset => .write Addr.cmd (cmdWord 0x02#8 0#1 0#16)
  | .oscFill => .write Addr.cmd (cmdWord 0x03#8 0#1 0#16)
  | .bqDesign k n => .write Addr.cmd (cmdWord 0x10#8 (BitVec.ofBool n) k)
  | .bqLoad k => .write Addr.cmd (cmdWord 0x11#8 0#1 k)
  | .bqReset k => .write Addr.cmd (cmdWord 0x12#8 0#1 k)
  | .bqApply k => .write Addr.cmd (cmdWord 0x13#8 0#1 k)
  | .casBuild => .write Addr.cmd (cmdWord 0x20#8 0#1 0#16)
  | .casReset => .write Addr.cmd (cmdWord 0x21#8 0#1 0#16)
  | .casApply => .write Addr.cmd (cmdWord 0x22#8 0#1 0#16)
  | .regRd a => .read a
  | .regWr a w => .write a w
  | .bufRd a => .read a
  | .bufWr a w => .write a w

/-- The transaction whose bits spec/opcode_table.json numbers: a 64-bit row is a command word, written to CMD (format CMDW); a row of
32 bits is the word address of a bus operation, whose kind the table's bits do not hold: it is taken as a read
(notes/assumptions/11.md). -/
def txnOfTableWord (nbits w : Nat) : Txn :=
  if nbits = 64 then .write Addr.cmd (BitVec.ofNat 64 w) else .read (BitVec.ofNat 32 w)

/-- What the decoder reads from those bits. -/
def decodeTableWord (nbits w : Nat) : Option Instr :=
  (decode (txnOfTableWord nbits w)).toOption

end Sys2Proof
end

