-- ==== Sys2Proof/Machine/State.lean ====
section
/-!
DEFINITION. Sys2Proof/Machine/State.lean: the state of the block (10_state R20 to R37) with the host's side of the bus beside it, the
state after hardware reset (R41, R220), and the model's own stops.
-/
namespace Sys2Proof.Machine

/-- `OSC.LEVEL` (R22): "boolean/enum HIGH, LOW". -/
inductive Level where
  | low
  | high
  deriving DecidableEq, Repr

/-- The oscillator (R21 to R25): half period `OSC.H`, `OSC.LEVEL`, `OSC.CNT` and the valid bit `OSCV`. `h` and `cnt` are `CNTW` bits
wide; they are held zero-extended, as a read returns them (R41, R93; notes/assumptions/14.md). -/
structure Osc where
  h : BitVec 64
  level : Level
  cnt : BitVec 64
  v : Bool
  deriving DecidableEq, Repr

/-- Five normalised coefficients (R27, R32). -/
structure Coefs where
  b0 : Word
  b1 : Word
  b2 : Word
  a1 : Word
  a2 : Word
  deriving DecidableEq, Repr

/-- One entry `BQ[k]` of the stage register file (R26 to R29): coefficients, history, valid bit. -/
structure Stage where
  c : Coefs
  x1 : Word
  x2 : Word
  y1 : Word
  y2 : Word
  v : Bool
  deriving DecidableEq, Repr

/-- The design parameter registers `P_FS`, `P_F0`, `P_Q`, `P_GAIN` (R31). -/
structure DesignParams where
  fs : Word
  f0 : Word
  q : Word
  gain : Word
  deriving DecidableEq, Repr

/-- The cause codes of 60_exceptions R191; `none` while `FAULT = 0`. -/
inductive Cause where
  | none
  | illegalCmd
  | badStage
  | unconfigured
  | badParam
  | alloc
  | badAccess
  deriving DecidableEq, Repr

/-- The buffer storage (R34) as the list of the (index, word) pairs written since hardware reset, indices strictly rising. A word
not listed has not been written since then (R222). The unit is the 64-bit word: the block has no narrower one (R60, R63, R68;
notes/assumptions/9.md). -/
abbrev Memory := List (Nat × Word)

/-- What the outside can do to the block: a bus transaction (R16), or hardware reset (R220). -/
inductive HostEvent where
  | bus (t : Txn)
  | hardwareReset
  deriving DecidableEq, Repr

/-- The state. The fields from `osc` to `cause` are the block's own (R20: "Nothing else is state"). `cfg` holds the parameters of R6,
which no step changes. The last four are the model's: the host's events to come (R38, R234), the words its reads have returned, newest
first (R170, R173), and the two counters that select free values (R122, R222). -/
structure State where
  cfg : Config
  osc : Osc
  stages : List Stage
  params : DesignParams
  staging : Coefs
  bufLen : BitVec 64
  buf : Memory
  fault : Bool
  cause : Cause
  pending : List HostEvent
  replies : List Word
  draws : Nat
  epoch : Nat
  deriving DecidableEq, Repr

/-- The oscillator after hardware reset (R41). -/
def Osc.reset : Osc := { h := 0#64, level := .low, cnt := 0#64, v := false }

/-- All-zero coefficients (R41). -/
def Coefs.zero : Coefs :=
  { b0 := Word.posZero, b1 := Word.posZero, b2 := Word.posZero, a1 := Word.posZero, a2 := Word.posZero }

/-- A stage after hardware reset (R41). -/
def Stage.reset : Stage :=
  { c := Coefs.zero, x1 := Word.posZero, x2 := Word.posZero, y1 := Word.posZero, y2 := Word.posZero, v := false }

/-- The parameter registers after hardware reset (R41). -/
def DesignParams.zero : DesignParams :=
  { fs := Word.posZero, f0 := Word.posZero, q := Word.posZero, gain := Word.posZero }

/-- A block with the given parameters right after its first hardware reset (R220, R41; the buffer R222). -/
def State.powerOn (cfg : Config) (nstages : Nat) : State :=
  { cfg := cfg
    osc := Osc.reset
    stages := List.replicate nstages Stage.reset
    params := DesignParams.zero
    staging := Coefs.zero
    bufLen := 0#64
    buf := []
    fault := false
    cause := .none
    pending := []
    replies := []
    draws := 0
    epoch := 0 }

/-- The machine right after reset. DESIGN CHOICE of the parameters (3 stages, 16 buffer words, 32-bit counter), which R6 leaves open:
notes/assumptions/3.md. -/
def State.reset : State := State.powerOn { bufcap := 16, cntw := 32 } 3

/-- A stop of the model with a fault: there is none, nobody raises one. The block's own FAULT is a next state (R193), and
93_implementation_defined part 1 says "Nothing in this spec is left as stuck". See notes/assumptions/17.md. -/
inductive Fault where
  deriving DecidableEq, Repr

/-- Why `exec` gives an instruction no meaning. -/
inductive Refusal where
  /-- An arm of `exec` that has no meaning yet (safe); no arm is left that raises it. -/
  | notModelled (mnemonic : String)
  deriving DecidableEq, Repr

/-- The three outcomes of a step of this machine. -/
abbrev Result := Host.Outcome State Fault Refusal

end Sys2Proof.Machine
end

