-- ==== Sys2Proof/Machine/Fp.lean ====
section
/-!
DEFINITION. Sys2Proof/Machine/Fp.lean: the floating-point numerics `FP` in their default instantiation, IEEE 754 binary64 with round to
nearest, ties to even (00_scope R10 to R15; notes/assumptions/4.md). Every finite binary64 is a whole number of units of `2^-1074`, so
each operation is computed exactly on whole numbers and rounded once.
-/
namespace Sys2Proof.Machine

/-- The sign bit, bit 63 (R10). -/
def Fp.sign (w : Word) : Bool := w.getLsbD 63

/-- The biased exponent, bits 62:52 (R10). -/
def Fp.expField (w : Word) : Nat := (w.extractLsb' 52 11).toNat

/-- The fraction, bits 51:0 (R10). -/
def Fp.fraction (w : Word) : Nat := (w.extractLsb' 0 52).toNat

def Fp.isNaN (w : Word) : Bool := Fp.expField w == 2047 && Fp.fraction w != 0

def Fp.isInf (w : Word) : Bool := Fp.expField w == 2047 && Fp.fraction w == 0

def Fp.isFinite (w : Word) : Bool := Fp.expField w != 2047

def Fp.isZero (w : Word) : Bool := Fp.expField w == 0 && Fp.fraction w == 0

/-- The magnitude of a finite value in units of `2^-1074`: the fraction for a subnormal, else the significand with its hidden bit
shifted to its exponent (R10, bias 1023). -/
def Fp.mag (w : Word) : Nat :=
  if Fp.expField w = 0 then Fp.fraction w else (2 ^ 52 + Fp.fraction w) * 2 ^ (Fp.expField w - 1)

/-- The value of a finite word in units of `2^-1074`, with its sign. -/
def Fp.value (w : Word) : Int := if Fp.sign w then -(Fp.mag w : Int) else (Fp.mag w : Int)

/-- The whole number nearest to `num / den`, a tie to the even one (R12). -/
def Fp.nearestEven (num den : Nat) : Nat :=
  let q := num / den
  let r := num % den
  if den < 2 * r || (2 * r == den && q % 2 == 1) then q + 1 else q

/-- The binary exponent of the unit in the last place of a magnitude whose whole part is `m` units: 0 below `2^53` units, so that
subnormals keep their unit (R12). -/
def Fp.ulpShift (m : Nat) : Nat := Nat.log2 m - 52

/-- The exponent and fraction bits of the binary64 nearest to the magnitude `num / den` units, ties to even; overflow gives the
infinity's (R12). A significand that rounds up to `2^53` carries into the exponent field by itself. -/
def Fp.roundMag (num den : Nat) : Nat :=
  let e := Fp.ulpShift (num / den)
  min (e * 2 ^ 52 + Fp.nearestEven num (den * 2 ^ e)) (2047 * 2 ^ 52)

/-- A word from its sign and its exponent and fraction bits. -/
def Fp.pack (s : Bool) (bits : Nat) : Word := BitVec.ofBool s ++ BitVec.ofNat 63 bits

/-- The binary64 nearest to `num / den` units with the sign given (R12). -/
def Fp.round (s : Bool) (num den : Nat) : Word := Fp.pack s (Fp.roundMag num den)

/-- Infinity with the sign given. -/
def Fp.inf (s : Bool) : Word := Fp.pack s (2047 * 2 ^ 52)

/-- Zero with the sign given. -/
def Fp.zero (s : Bool) : Word := Fp.pack s 0

/-- A NaN made from free bits: every NaN is made from itself, and no other word is made (R13). -/
def Fp.asNaN (v : Word) : Word :=
  let w := v ||| 0x7FF0000000000000#64
  if Fp.fraction w = 0 then w ||| 1#64 else w

/-- The NaN an operation returns: any NaN (R13, U4; notes/assumptions/5.md). -/
def Fp.nan (op : FpOp) (a b : Word) : Word := Fp.asNaN (Config.freeNaN op a b)

/-- `fneg`: flips the sign bit, exact for every word (R11). -/
def Fp.neg (a : Word) : Word := a ^^^ Word.negZero

/-- The exact sum of two finite words, rounded once. An exact sum of zero is `-0` when both operands are negative, else `+0` (R12). -/
def Fp.addFinite (a b : Word) : Word :=
  let v := Fp.value a + Fp.value b
  if v = 0 then Fp.zero (Fp.sign a && Fp.sign b) else Fp.round (decide (v < 0)) v.natAbs 1

/-- The sum of two words neither of which is a NaN; `nan` is the result of `inf - inf`. -/
def Fp.addWith (nan a b : Word) : Word :=
  if Fp.isInf a then
    if Fp.isInf b && Fp.sign a != Fp.sign b then nan else a
  else if Fp.isInf b then b
  else Fp.addFinite a b

/-- `a +. b` (R11, R12). -/
def Fp.add (a b : Word) : Word :=
  if Fp.isNaN a || Fp.isNaN b then Fp.nan .add a b else Fp.addWith (Fp.nan .add a b) a b

/-- `a -. b` (R11, R12): the sum with the second operand's sign flipped. -/
def Fp.sub (a b : Word) : Word :=
  if Fp.isNaN a || Fp.isNaN b then Fp.nan .sub a b else Fp.addWith (Fp.nan .sub a b) a (Fp.neg b)

/-- `a *. b` (R11, R12): `inf * 0` is invalid; a product of units is in units of `2^-2148`. -/
def Fp.mul (a b : Word) : Word :=
  let s := Fp.sign a != Fp.sign b
  if Fp.isNaN a || Fp.isNaN b then Fp.nan .mul a b
  else if Fp.isInf a || Fp.isInf b then
    if Fp.isZero a || Fp.isZero b then Fp.nan .mul a b else Fp.inf s
  else Fp.round s (Fp.mag a * Fp.mag b) (2 ^ 1074)

/-- `a /. b` (R11, R12): `inf / inf` and `0 / 0` are invalid, a finite value over zero is an infinity. -/
def Fp.div (a b : Word) : Word :=
  let s := Fp.sign a != Fp.sign b
  if Fp.isNaN a || Fp.isNaN b then Fp.nan .div a b
  else if Fp.isInf a then
    if Fp.isInf b then Fp.nan .div a b else Fp.inf s
  else if Fp.isInf b then Fp.zero s
  else if Fp.isZero b then
    if Fp.isZero a then Fp.nan .div a b else Fp.inf s
  else Fp.round s (Fp.mag a * 2 ^ 1074) (Fp.mag b)

/-- `FP.pow10` (R14): 1 at `+0` and `-0`, elsewhere free. -/
def Fp.pow10 (e : Word) : Word := if Fp.isZero e then Word.one else Config.pow10Lib e

/-- `FP.sin` (R14): `+0` at `+0`, elsewhere free. -/
def Fp.sin (x : Word) : Word := if x = Word.posZero then Word.posZero else Config.sinLib x

/-- `FP.cos` (R14): 1 at `+0`, elsewhere free. -/
def Fp.cos (x : Word) : Word := if x = Word.posZero then Word.one else Config.cosLib x

/-- `FP.round_half_away` of a finite word (R15): the nearest integer, a tie to the larger magnitude. -/
def Fp.roundHalfAway (w : Word) : Int :=
  let r : Nat := (2 * Fp.mag w + 2 ^ 1074) / 2 ^ 1075
  if Fp.sign w then -(r : Int) else (r : Int)

/-- A finite or infinite value above zero. -/
def Fp.isPositive (w : Word) : Bool := !Fp.isNaN w && !Fp.isZero w && !Fp.sign w

/-- The binary64 nearest to the whole number `n`, as the assembler's `f64:` writes it (R94). -/
def Fp.ofNat (n : Nat) : Word := Fp.round false (n * 2 ^ 1074) 1

end Sys2Proof.Machine
end

