-- ==== Sys2Proof/Machine/Ops.lean ====
section
/-!
DEFINITION. Sys2Proof/Machine/Ops.lean: the named operations over the buffer memory, the stage file and the host's side of the bus;
taking a fault (60_exceptions R193), the write gate (43_host_access R176), hardware reset (70_reset_and_hazards R220), and a sample's bytes (R65).
-/
namespace Sys2Proof.Machine

/-! ### Buffer memory -/

/-- The word last written at index `i` since hardware reset, if any. -/
def Memory.lookup (i : Nat) : Memory → Option Word
  | [] => none
  | (j, x) :: m => if i = j then some x else Memory.lookup i m

/-- Write word `w` at index `i`, keeping the indices rising. -/
def Memory.write (i : Nat) (w : Word) : Memory → Memory
  | [] => [(i, w)]
  | (j, x) :: m =>
    if i < j then (i, w) :: (j, x) :: m
    else if i = j then (i, w) :: m
    else (j, x) :: Memory.write i w m

/-- Every listed index is above `i`, and they rise strictly. -/
def Memory.risesFrom (i : Nat) : Memory → Bool
  | [] => true
  | (j, _) :: m => decide (i < j) && Memory.risesFrom j m

/-- The one canonical form: strictly rising indices. An entry is never what an unlisted index looks up as, which is `none`. -/
def Memory.wf : Memory → Bool
  | [] => true
  | (j, _) :: m => Memory.risesFrom j m

/-- Every listed index is below `n`. -/
def Memory.below (n : Nat) (m : Memory) : Bool := m.all fun e => decide (e.1 < n)

/-- `BUF[i]`: the word written there, or, if nothing has written it since hardware reset, what the storage then held: any word
(R222, U3; notes/assumptions/8.md). -/
def Memory.read (epoch i : Nat) (m : Memory) : Word := (m.lookup i).getD (Config.freeBuf epoch i)

/-- `BUF[i]` in a state. -/
def State.readBuf (s : State) (i : Nat) : Word := s.buf.read s.epoch i

/-- `BUF[i] <- w` (R9). -/
def State.writeBuf (s : State) (i : Nat) (w : Word) : State := { s with buf := s.buf.write i w }

/-- The live buffer `BUF[0 ... BUFLEN-1]` in index order (R34). -/
def State.liveBuf (s : State) : List Word := (List.range s.bufLen.toNat).map s.readBuf

/-- The bytes of a word as it is serialised, byte 0 (bits 7:0) first (R65). -/
def wordBytes (w : Word) : List (BitVec 8) := (List.range 8).map fun j => w.extractLsb' (8 * j) 8

/-- A dump of the live buffer: its samples' bytes in order, little-endian (R65). -/
def State.dump (s : State) : List (BitVec 8) := s.liveBuf.flatMap wordBytes

/-! ### Stage file -/

/-- `NSTAGES` (R6, R26): the number of entries of the stage file. -/
def State.nstages (s : State) : Nat := s.stages.length

/-- `BQ[k]`. Meant for `k < NSTAGES`, which every use checks first (R83). -/
def State.stage (s : State) (k : Nat) : Stage := s.stages.getD k Stage.reset

/-- Replace `BQ[k]`. -/
def State.setStage (s : State) (k : Nat) (st : Stage) : State := { s with stages := s.stages.set k st }

/-- `X1, X2, Y1, Y2 <- +0.0` (R125), the rest of the stage kept. -/
def Stage.clear (st : Stage) : Stage :=
  { st with x1 := Word.posZero, x2 := Word.posZero, y1 := Word.posZero, y2 := Word.posZero }

/-- A newly constructed stage: the coefficients given, zero history, valid (R123, R124). -/
def Stage.built (c : Coefs) : Stage :=
  { c := c, x1 := Word.posZero, x2 := Word.posZero, y1 := Word.posZero, y2 := Word.posZero, v := true }

/-- Replace the oscillator. -/
def State.setOsc (s : State) (o : Osc) : State := { s with osc := o }

/-! ### Faults -/

/-- `raise Fault(c)` (R193): sets FAULT and CAUSE if no fault is recorded yet, and nothing else. There is no return from it (R195). -/
def State.raise (c : Cause) (s : State) : State :=
  if s.fault then s else { s with fault := true, cause := c }

/-- The gate of every bus write (R176, R192 step 1): while `FAULT = 1` the write is ignored. -/
def State.gated (s : State) (act : State → State) : State := if s.fault then s else act s

/-- The end of a read: the word goes back to the host (R170, R173). -/
def State.reply (w : Word) (s : State) : State := { s with replies := w :: s.replies }

/-- A faulting read: BAD_ACCESS, and 0 is returned (R193, R170). -/
def State.replyFault (s : State) : State := (s.raise .badAccess).reply 0#64

/-- A transaction that is no operation: a write is gated first (R176), then the word or the address faults (R86, R62); a read of an
unmapped address faults and returns 0 (R177). -/
def State.rejectTxn (t : Txn) (r : Reject) (s : State) : State :=
  match t with
  | .read _ => s.replyFault
  | .write _ _ =>
    s.gated fun s =>
      match r with
      | .illegalCmd => s.raise .illegalCmd
      | .unmapped => s.raise .badAccess

/-! ### The host's side -/

/-- The next event of the host's list, and the state with it taken off (R16, R38, R234). -/
def State.fetch (s : State) : Option (HostEvent × State) :=
  match s.pending with
  | [] => none
  | e :: rest => some (e, { s with pending := rest })

/-- Hardware reset (R220): every register at its value of R41, the buffer's content unspecified anew (R222). The parameters are
fixed and the host's side of the bus is not the block's. -/
def State.hardwareReset (s : State) : State :=
  { State.powerOn s.cfg s.nstages with
    pending := s.pending
    replies := s.replies
    draws := s.draws
    epoch := s.epoch + 1 }

/-- The state with a transaction before the host's other events, so that the next step performs it. -/
def State.withTxn (s : State) (t : Txn) : State := { s with pending := .bus t :: s.pending }

end Sys2Proof.Machine
end

