-- ==== Sys2Proof/Machine/Flags.lean ====
section
/-!
DEFINITION. Sys2Proof/Machine/Flags.lean: the bits operations compute and the host reads: the level (10_state R22), the valid bits
(R25, R29), the cause code (60_exceptions R191) and STATUS (R35).
-/
namespace Sys2Proof.Machine

/-- The level flips (40_oscillator R105). -/
def Level.flip : Level → Level
  | .low => .high
  | .high => .low

/-- LOW is 0, HIGH is 1 (R22, R92). -/
def Level.bit : Level → BitVec 1
  | .low => 0#1
  | .high => 1#1

/-- LOW selects `-0.5` and HIGH selects `+0.5` (R92). -/
def Level.sample : Level → Word
  | .low => Word.negHalf
  | .high => Word.half

/-- The code of a cause (R191). -/
def Cause.code : Cause → BitVec 8
  | .none => 0#8
  | .illegalCmd => 1#8
  | .badStage => 2#8
  | .unconfigured => 3#8
  | .badParam => 4#8
  | .alloc => 5#8
  | .badAccess => 6#8

/-- `STATUS` (R35): CAUSE in bits 15:8, OSCV in bit 1, FAULT in bit 0, the other bits 0. -/
def State.status (s : State) : Word :=
  0#48 ++ s.cause.code ++ 0#6 ++ BitVec.ofBool s.osc.v ++ BitVec.ofBool s.fault

/-- Every stage has been constructed (42_cascade R154). -/
def State.allValid (s : State) : Bool := s.stages.all fun st => st.v

end Sys2Proof.Machine
end

