-- ==== Sys2Proof/Machine/Operands.lean ====
section
/-!
DEFINITION. Sys2Proof/Machine/Operands.lean: the operand forms: the registers behind the word addresses of 10_state R41, what each
reads as, and the buffer index of an address (20_memory R61, R70; 30_encoding R90).
-/
namespace Sys2Proof.Machine

/-- The registers of one stage, in the order of their offsets 0 to 9 (R41). -/
inductive StageReg where
  | b0
  | b1
  | b2
  | a1
  | a2
  | x1
  | x2
  | y1
  | y2
  | v
  deriving DecidableEq, Repr

/-- The host-visible registers of R41. -/
inductive Reg where
  | cmd
  | status
  | bufLen
  | capStages
  | capBuf
  | pFs
  | pF0
  | pQ
  | pGain
  | cB0
  | cB1
  | cB2
  | cA1
  | cA2
  | oscH
  | oscCnt
  | oscLevel
  | stage (k : Nat) (r : StageReg)
  deriving DecidableEq, Repr

/-- The access rights of R41; `readWriteEffect` is the table's `RW*`. -/
inductive Access where
  | readOnly
  | readWrite
  | readWriteEffect
  | writeOnly
  deriving DecidableEq, Repr

/-- The addresses of the global registers (R41). -/
def regTable : List (Addr × Reg) :=
  [(0x00000000#32, .cmd), (0x00000001#32, .status), (0x00000002#32, .bufLen), (0x00000003#32, .capStages),
   (0x00000004#32, .capBuf), (0x00000008#32, .pFs), (0x00000009#32, .pF0), (0x0000000A#32, .pQ),
   (0x0000000B#32, .pGain), (0x00000010#32, .cB0), (0x00000011#32, .cB1), (0x00000012#32, .cB2),
   (0x00000013#32, .cA1), (0x00000014#32, .cA2), (0x00000020#32, .oscH), (0x00000021#32, .oscCnt),
   (0x00000022#32, .oscLevel)]

/-- The stage register at an offset; 10 to 15 are unmapped (R41). -/
def stageRegAt (r : Nat) : Option StageReg :=
  [StageReg.b0, .b1, .b2, .a1, .a2, .x1, .x2, .y1, .y2, .v][r]?

/-- The base of the stage file in word addresses (R61). -/
def stageBase : Nat := 0x00100000

/-- The base of the buffer in word addresses (R61). -/
def bufBase : Nat := 0x40000000

/-- The register at a word address of a block with `nstages` stages, if the address is mapped (R61, R62). -/
def regAt (nstages : Nat) (a : Addr) : Option Reg :=
  if a.region = 0#2 then
    if stageBase ≤ a.toNat then
      let off := a.toNat - stageBase
      if off / 16 < nstages then (stageRegAt (off % 16)).map (Reg.stage (off / 16)) else none
    else regTable.lookup a
  else none

/-- The column `acc` of R41. -/
def Reg.access : Reg → Access
  | .cmd => .writeOnly
  | .status => .readOnly
  | .bufLen => .readWriteEffect
  | .capStages => .readOnly
  | .capBuf => .readOnly
  | .pFs => .readWrite
  | .pF0 => .readWrite
  | .pQ => .readWrite
  | .pGain => .readWrite
  | .cB0 => .readWrite
  | .cB1 => .readWrite
  | .cB2 => .readWrite
  | .cA1 => .readWrite
  | .cA2 => .readWrite
  | .oscH => .readWriteEffect
  | .oscCnt => .readOnly
  | .oscLevel => .readOnly
  | .stage _ _ => .readOnly

/-- A stage register's value, the valid bit in bit 0 (R41). -/
def StageReg.value (st : Stage) : StageReg → Word
  | .b0 => st.c.b0
  | .b1 => st.c.b1
  | .b2 => st.c.b2
  | .a1 => st.c.a1
  | .a2 => st.c.a2
  | .x1 => st.x1
  | .x2 => st.x2
  | .y1 => st.y1
  | .y2 => st.y2
  | .v => (BitVec.ofBool st.v).setWidth 64

/-- What a readable register reads as, zero-extended (R41, R93); none for the write-only CMD (R36). -/
def Reg.value (s : State) : Reg → Option Word
  | .cmd => none
  | .status => some s.status
  | .bufLen => some s.bufLen
  | .capStages => some (BitVec.ofNat 64 s.nstages)
  | .capBuf => some (BitVec.ofNat 64 s.cfg.bufcap)
  | .pFs => some s.params.fs
  | .pF0 => some s.params.f0
  | .pQ => some s.params.q
  | .pGain => some s.params.gain
  | .cB0 => some s.staging.b0
  | .cB1 => some s.staging.b1
  | .cB2 => some s.staging.b2
  | .cA1 => some s.staging.a1
  | .cA2 => some s.staging.a2
  | .oscH => some s.osc.h
  | .oscCnt => some s.osc.cnt
  | .oscLevel => some (s.osc.level.bit.setWidth 64)
  | .stage k r => some (r.value (s.stage k))

/-- What a read of a word address in the register region returns, if it is mapped and readable (R170). -/
def State.readReg (s : State) (a : Addr) : Option Word :=
  (regAt s.nstages a).bind (Reg.value s)

/-- The buffer index of a word address with bits 31:30 = 01 (R90, R173). -/
def bufIndex (a : Addr) : Option Nat :=
  if a.region = 1#2 then some (a.toNat - bufBase) else none

/-- The index of a word address inside the live buffer (R70). -/
def State.liveIndex (s : State) (a : Addr) : Option Nat :=
  (bufIndex a).filter fun i => decide (i < s.bufLen.toNat)

end Sys2Proof.Machine
end

