-- ==== Sys2Proof/Machine/Biquad.lean ====
section
/-!
DEFINITION. Sys2Proof/Machine/Biquad.lean: BQ.DESIGN, BQ.LOAD, BQ.RESET, BQ.APPLY (41_biquad R120 to R127).
-/
namespace Sys2Proof.Machine

/-! ### The design formula, R121 -/

/-- `A <- FP.pow10(g /. 40.0)`. -/
def designA (g : Word) : Word := Fp.pow10 (Fp.div g Word.forty)

/-- `omega <- ((2.0 *. FP.PI) *. f0) /. fs`. -/
def designOmega (p : DesignParams) : Word := Fp.div (Fp.mul (Fp.mul Word.two Word.pi) p.f0) p.fs

/-- `alpha <- FP.sin(omega) /. (2.0 *. q)`. -/
def designAlpha (p : DesignParams) : Word := Fp.div (Fp.sin (designOmega p)) (Fp.mul Word.two p.q)

/-- `a0 <- 1.0 +. (alpha /. A)`. -/
def designA0 (p : DesignParams) (g : Word) : Word := Fp.add Word.one (Fp.div (designAlpha p) (designA g))

/-- `PeakingEQ(fs, f0, q, g)` (R121): one rounded operation per operator, in the written order. -/
def peakingEQ (p : DesignParams) (g : Word) : Coefs :=
  let b1 := Fp.div (Fp.mul Word.negTwo (Fp.cos (designOmega p))) (designA0 p g)
  { b0 := Fp.div (Fp.add Word.one (Fp.mul (designAlpha p) (designA g))) (designA0 p g)
    b1 := b1
    b2 := Fp.div (Fp.sub Word.one (Fp.mul (designAlpha p) (designA g))) (designA0 p g)
    a1 := b1
    a2 := Fp.div (Fp.sub Word.one (Fp.div (designAlpha p) (designA g))) (designA0 p g) }

/-- `DesignValid` (R122). -/
def designValid (p : DesignParams) (g : Word) : Bool :=
  Fp.isPositive p.fs && Fp.isPositive p.q &&
    Fp.isFinite p.fs && Fp.isFinite p.f0 && Fp.isFinite p.q && Fp.isFinite g &&
    Fp.isFinite (designA g) && Fp.isPositive (designA g) &&
    Fp.isFinite (designA0 p g) && !Fp.isZero (designA0 p g)

/-- Any five coefficients: the next five free values (R122; notes/assumptions/7.md). -/
def drawnCoefs (d : Nat) : Coefs :=
  { b0 := Config.freeCoef d
    b1 := Config.freeCoef (d + 1)
    b2 := Config.freeCoef (d + 2)
    a1 := Config.freeCoef (d + 3)
    a2 := Config.freeCoef (d + 4) }

/-- The gain of R84 and R152: `fneg(P_GAIN)` when the sign is negated. -/
def signedGain (p : DesignParams) (n : Bool) : Word := if n then Fp.neg p.gain else p.gain

/-- The coefficients a design gives stage `k` (R123): the formula's, or five drawn ones. -/
def State.designCoefs (s : State) (n : Bool) : Coefs :=
  if designValid s.params (signedGain s.params n) then peakingEQ s.params (signedGain s.params n)
  else drawnCoefs s.draws

/-- The counter of draws after a design: five further if it drew (R122, R67). -/
def State.designDraws (s : State) (n : Bool) : Nat :=
  if designValid s.params (signedGain s.params n) then s.draws else s.draws + 5

/-- The body of BQ.DESIGN `k` after its stage check (R123), which CAS.BUILD repeats (42_cascade R151). -/
def State.designStage (s : State) (k : Nat) (n : Bool) : State :=
  { s.setStage k (Stage.built (s.designCoefs n)) with draws := s.designDraws n }

/-! ### The per-sample step, R126 -/

/-- The output sample: nine rounded operations from left to right (R126). -/
def bqOutput (st : Stage) (x : Word) : Word :=
  Fp.sub
    (Fp.sub
      (Fp.add (Fp.add (Fp.mul st.c.b0 x) (Fp.mul st.c.b1 st.x1)) (Fp.mul st.c.b2 st.x2))
      (Fp.mul st.c.a1 st.y1))
    (Fp.mul st.c.a2 st.y2)

/-- `BqStep(k, x)` (R126): the output, and the stage with its history shifted. -/
def bqStep (st : Stage) (x : Word) : Word × Stage :=
  let y := bqOutput st x
  (y, { st with x1 := x, x2 := st.x1, y1 := y, y2 := st.y1 })

/-- The loop of BQ.APPLY (R127) over `n` samples from index `i` up. -/
def applyFrom (epoch : Nat) : (n i : Nat) → Stage → Memory → Stage × Memory
  | 0, _, st, m => (st, m)
  | n + 1, i, st, m =>
    let r := bqStep st (m.read epoch i)
    applyFrom epoch n (i + 1) r.2 (m.write i r.1)

/-- One pass of stage `k` over the live buffer (R127), which CAS.APPLY repeats (42_cascade R154). -/
def State.applyStage (s : State) (k : Nat) : State :=
  let r := applyFrom s.epoch s.bufLen.toNat 0 (s.stage k) s.buf
  { s.setStage k r.1 with buf := r.2 }

/-! ### The commands -/

/-- The stage check of the four BQ commands (R83, R192 step 4). -/
def State.withStage (s : State) (k : BitVec 16) (act : Nat → State → State) : State :=
  if k.toNat < s.nstages then act k.toNat s else s.raise .badStage

/-- BQ.DESIGN `k` [`, neg`] (R123). -/
def bqDesign (k : BitVec 16) (n : Bool) (s : State) : State :=
  s.gated fun s => s.withStage k fun k s => s.designStage k n

/-- BQ.LOAD `k` (R124). -/
def bqLoad (k : BitVec 16) (s : State) : State :=
  s.gated fun s => s.withStage k fun k s => s.setStage k (Stage.built s.staging)

/-- BQ.RESET `k` (R125). -/
def bqReset (k : BitVec 16) (s : State) : State :=
  s.gated fun s => s.withStage k fun k s => s.setStage k (s.stage k).clear

/-- BQ.APPLY `k` (R127). -/
def bqApply (k : BitVec 16) (s : State) : State :=
  s.gated fun s => s.withStage k fun k s =>
    if (s.stage k).v then s.applyStage k else s.raise .unconfigured

/-- The meaning of BQ.DESIGN. -/
def execBqDesign (k : BitVec 16) (n : Bool) (s : State) : Result := .next (bqDesign k n s)

/-- The meaning of BQ.LOAD. -/
def execBqLoad (k : BitVec 16) (s : State) : Result := .next (bqLoad k s)

/-- The meaning of BQ.RESET. -/
def execBqReset (k : BitVec 16) (s : State) : Result := .next (bqReset k s)

/-- The meaning of BQ.APPLY. -/
def execBqApply (k : BitVec 16) (s : State) : Result := .next (bqApply k s)

end Sys2Proof.Machine
end

