-- ==== Sys2Proof/Machine/Cascade.lean ====
section
/-!
DEFINITION. Sys2Proof/Machine/Cascade.lean: CAS.BUILD, CAS.RESET, CAS.APPLY (42_cascade R150 to R154).
-/
namespace Sys2Proof.Machine

/-- The loop of CAS.BUILD (R151) over `n` stages from stage `k` up: `n = (k mod 2)` negates the gain of odd stages (R152). -/
def buildFrom : (n k : Nat) → State → State
  | 0, _, s => s
  | n + 1, k, s => buildFrom n (k + 1) (s.designStage k (k % 2 == 1))

/-- The outer loop of CAS.APPLY (R154) over `n` stages from stage `k` up: stage after stage (R71). -/
def cascadeFrom : (n k : Nat) → State → State
  | 0, _, s => s
  | n + 1, k, s => cascadeFrom n (k + 1) (s.applyStage k)

/-- CAS.BUILD (R151). -/
def casBuild (s : State) : State := s.gated fun s => buildFrom s.nstages 0 s

/-- CAS.RESET (R153). -/
def casReset (s : State) : State := s.gated fun s => { s with stages := s.stages.map Stage.clear }

/-- CAS.APPLY (R154): all valid bits are checked before any stage runs. -/
def casApply (s : State) : State :=
  s.gated fun s => if s.allValid then cascadeFrom s.nstages 0 s else s.raise .unconfigured

/-- The meaning of CAS.BUILD. -/
def execCasBuild (s : State) : Result := .next (casBuild s)

/-- The meaning of CAS.RESET. -/
def execCasReset (s : State) : Result := .next (casReset s)

/-- The meaning of CAS.APPLY. -/
def execCasApply (s : State) : Result := .next (casApply s)

end Sys2Proof.Machine
end

