-- ==== Sys2Proof/Machine/Oscillator.lean ====
section
/-!
DEFINITION. Sys2Proof/Machine/Oscillator.lean: OSC.INIT, OSC.RESET, OSC.FILL and the construction a write to `OSC_H` performs
(40_oscillator R100 to R105).
-/
namespace Sys2Proof.Machine

/-- A half period is valid in `1 ... 2^CNTW - 1` (R101, R102). -/
def halfPeriodOk (cntw : Nat) (h : Int) : Bool := decide (1 ≤ h) && decide (h ≤ 2 ^ cntw - 1)

/-- `HalfPeriod(fs, f)` (R101); none is the rule's `Invalid`. -/
def halfPeriod (cntw : Nat) (fs f : Word) : Option (BitVec 64) :=
  let v := Fp.div (Fp.div fs f) Word.two
  if Fp.isFinite v then
    let r := Fp.roundHalfAway v
    if halfPeriodOk cntw r then some (BitVec.ofInt 64 r) else none
  else none

/-- A newly constructed oscillator (R100, R102). -/
def Osc.built (h : BitVec 64) : Osc := { h := h, level := .low, cnt := 0#64, v := true }

/-- The generator's `reset()` (R103). -/
def Osc.restart (o : Osc) : Osc := { o with level := .low, cnt := 0#64 }

/-- The first part of `OscStep` (R105): flip at the bound. -/
def Osc.turn (o : Osc) : Osc := if o.cnt = o.h then { o with level := o.level.flip, cnt := 0#64 } else o

/-- `OscStep()` (R105): test, then output, then increment (90_conflicts C1). -/
def oscStep (o : Osc) : Word × Osc :=
  let t := o.turn
  (t.level.sample, { t with cnt := t.cnt + 1#64 })

/-- The loop of OSC.FILL (R104) over `n` samples from index `i` up. -/
def fillFrom : (n i : Nat) → Osc → Memory → Osc × Memory
  | 0, _, o, m => (o, m)
  | n + 1, i, o, m =>
    let r := oscStep o
    fillFrom n (i + 1) r.2 (m.write i r.1)

/-- OSC.INIT (R100). -/
def oscInit (s : State) : State :=
  s.gated fun s =>
    match halfPeriod s.cfg.cntw s.params.fs s.params.f0 with
    | none => s.raise .badParam
    | some h => s.setOsc (Osc.built h)

/-- OSC.RESET (R103). -/
def oscReset (s : State) : State := s.gated fun s => s.setOsc s.osc.restart

/-- OSC.FILL (R104). -/
def oscFill (s : State) : State :=
  s.gated fun s =>
    if s.osc.v then
      let r := fillFrom s.bufLen.toNat 0 s.osc s.buf
      { s with osc := r.1, buf := r.2 }
    else s.raise .unconfigured

/-- A write to `OSC_H` (R102). -/
def writeOscH (w : Word) (s : State) : State :=
  if halfPeriodOk s.cfg.cntw w.toNat then s.setOsc (Osc.built w) else s.raise .badParam

/-- The meaning of OSC.INIT. -/
def execOscInit (s : State) : Result := .next (oscInit s)

/-- The meaning of OSC.RESET. -/
def execOscReset (s : State) : Result := .next (oscReset s)

/-- The meaning of OSC.FILL. -/
def execOscFill (s : State) : Result := .next (oscFill s)

end Sys2Proof.Machine
end

