-- ==== Sys2Proof/Machine/HostAccess.lean ====
section
/-!
DEFINITION. Sys2Proof/Machine/HostAccess.lean: REG.RD, REG.WR with command dispatch and the BUFLEN write, BUF.RD, BUF.WR
(43_host_access R170 to R178).
-/
namespace Sys2Proof.Machine

/-- Command dispatch (R175): decode the word and perform the one command it selects; else ILLEGAL_CMD (R86). The decoder gives a
command only, so the four bus operations' arms are never taken (Laws/Decode.lean shows it). -/
def runCommand (w : Word) (s : State) : State :=
  match decodeCmd w with
  | .ok .oscInit => oscInit s
  | .ok .oscReset => oscReset s
  | .ok .oscFill => oscFill s
  | .ok (.bqDesign k n) => bqDesign k n s
  | .ok (.bqLoad k) => bqLoad k s
  | .ok (.bqReset k) => bqReset k s
  | .ok (.bqApply k) => bqApply k s
  | .ok .casBuild => casBuild s
  | .ok .casReset => casReset s
  | .ok .casApply => casApply s
  | .ok (.regRd _) => s.raise .illegalCmd
  | .ok (.regWr _ _) => s.raise .illegalCmd
  | .ok (.bufRd _) => s.raise .illegalCmd
  | .ok (.bufWr _ _) => s.raise .illegalCmd
  | .error _ => s.raise .illegalCmd

/-- A write to BUFLEN (R172): above BUFCAP it is the allocation failure; no word of BUF changes. -/
def writeBufLen (w : Word) (s : State) : State :=
  if s.cfg.bufcap < w.toNat then s.raise .alloc else { s with bufLen := w }

/-- The effect of a write on the register it selects (R171): a read-only register faults (R178). -/
def Reg.write (r : Reg) (w : Word) (s : State) : State :=
  match r with
  | .cmd => runCommand w s
  | .bufLen => writeBufLen w s
  | .oscH => writeOscH w s
  | .pFs => { s with params := { s.params with fs := w } }
  | .pF0 => { s with params := { s.params with f0 := w } }
  | .pQ => { s with params := { s.params with q := w } }
  | .pGain => { s with params := { s.params with gain := w } }
  | .cB0 => { s with staging := { s.staging with b0 := w } }
  | .cB1 => { s with staging := { s.staging with b1 := w } }
  | .cB2 => { s with staging := { s.staging with b2 := w } }
  | .cA1 => { s with staging := { s.staging with a1 := w } }
  | .cA2 => { s with staging := { s.staging with a2 := w } }
  | .status => s.raise .badAccess
  | .capStages => s.raise .badAccess
  | .capBuf => s.raise .badAccess
  | .oscCnt => s.raise .badAccess
  | .oscLevel => s.raise .badAccess
  | .stage _ _ => s.raise .badAccess

/-- REG.RD (R170, R177): also while FAULT = 1. -/
def regRd (a : Addr) (s : State) : State :=
  match s.readReg a with
  | some w => s.reply w
  | none => s.replyFault

/-- REG.WR (R171). -/
def regWr (a : Addr) (w : Word) (s : State) : State :=
  s.gated fun s =>
    match regAt s.nstages a with
    | some r => r.write w s
    | none => s.raise .badAccess

/-- BUF.RD (R173, R177): also while FAULT = 1. -/
def bufRd (a : Addr) (s : State) : State :=
  match s.liveIndex a with
  | some i => s.reply (s.readBuf i)
  | none => s.replyFault

/-- BUF.WR (R174). -/
def bufWr (a : Addr) (w : Word) (s : State) : State :=
  s.gated fun s =>
    match s.liveIndex a with
    | some i => s.writeBuf i w
    | none => s.raise .badAccess

/-- The meaning of REG.RD. -/
def execRegRd (a : Addr) (s : State) : Result := .next (regRd a s)

/-- The meaning of REG.WR. -/
def execRegWr (a : Addr) (w : Word) (s : State) : Result := .next (regWr a w s)

/-- The meaning of BUF.RD. -/
def execBufRd (a : Addr) (s : State) : Result := .next (bufRd a s)

/-- The meaning of BUF.WR. -/
def execBufWr (a : Addr) (w : Word) (s : State) : Result := .next (bufWr a w s)

end Sys2Proof.Machine
end

