-- ==== Sys2Proof/Machine/Dispatch.lean ====
section
/-!
DEFINITION. Sys2Proof/Machine/Dispatch.lean: one arm per operation of the block.
-/
namespace Sys2Proof.Machine

def exec (i : Instr) (s : State) : Host.Outcome State Fault Refusal :=
  match i with
  | .oscInit => Sys2Proof.Machine.execOscInit s
  | .oscReset => Sys2Proof.Machine.execOscReset s
  | .oscFill => Sys2Proof.Machine.execOscFill s
  | .bqDesign k n => Sys2Proof.Machine.execBqDesign k n s
  | .bqLoad k => Sys2Proof.Machine.execBqLoad k s
  | .bqReset k => Sys2Proof.Machine.execBqReset k s
  | .bqApply k => Sys2Proof.Machine.execBqApply k s
  | .casBuild => Sys2Proof.Machine.execCasBuild s
  | .casReset => Sys2Proof.Machine.execCasReset s
  | .casApply => Sys2Proof.Machine.execCasApply s
  | .regRd a => Sys2Proof.Machine.execRegRd a s
  | .regWr a w => Sys2Proof.Machine.execRegWr a w s
  | .bufRd a => Sys2Proof.Machine.execBufRd a s
  | .bufWr a w => Sys2Proof.Machine.execBufWr a w s

end Sys2Proof.Machine
end

