-- ==== Sys2Proof/Machine/Step.lean ====
section
/-!
DEFINITION. Sys2Proof/Machine/Step.lean: one step of the machine is one event of the host (00_scope R16, 10_state R38, 70 R234).
-/
namespace Sys2Proof.Machine

/-- One step: the next event of the host's list. With none left the run has ended and the block rests (R234); hardware reset is R220; a
bus transaction is decoded and performed whole (R68), or, if it is no operation, faults (R62, R86). -/
def step (s : State) : Host.Outcome State Fault Refusal :=
  match s.fetch with
  | none => .next s
  | some (.hardwareReset, s') => .next s'.hardwareReset
  | some (.bus t, s') =>
    match decode t with
    | .ok i => exec i s'
    | .error r => .next (s'.rejectTxn t r)

/-- The state in which the host's next transaction is the one whose bits are `w` (see `txnOfTableWord`). -/
def State.withFetchWord (s : State) (nbits w : Nat) : State := s.withTxn (txnOfTableWord nbits w)

end Sys2Proof.Machine
end

