-- ==== Sys2Proof/Safety.lean ====
section
/-!
DEFINITION. Sys2Proof/Safety.lean: what counts as a good state (70_reset_and_hazards R234), the invariants the spec states of the registers,
and what it means that a part of the state is unchanged, in the terms the statements use.
-/
namespace Sys2Proof.Machine

/-- A good end of a run (R234). -/
abbrev State.good (s : State) : Prop := s.fault = false

/-- The oscillator's invariants: constructed, `1 <= H <= 2^CNTW - 1` (R21) and `CNT <= H` (R24); not constructed, as after hardware
reset (R25, R103). -/
abbrev Osc.inv (cntw : Nat) (o : Osc) : Prop :=
  (o.v = true → 1 ≤ o.h.toNat ∧ o.h.toNat ≤ 2 ^ cntw - 1 ∧ o.cnt.toNat ≤ o.h.toNat) ∧
    (o.v = false → o = Osc.reset)

/-- A stage that is not constructed is as hardware reset left it (R27 to R29). -/
abbrev Stage.inv (st : Stage) : Prop := st.v = false → st = Stage.reset

/-- The invariant of the block's state: the parameters in their ranges (R6), the oscillator (R21, R24), the stages (R29), `BUFLEN <=
BUFCAP` (R33), the buffer memory in its canonical form and inside the storage (R34), and `CAUSE` 0 exactly while `FAULT = 0` (R35). -/
abbrev State.inv (s : State) : Prop :=
  s.cfg.wf ∧ (1 ≤ s.nstages ∧ s.nstages ≤ 65536) ∧ s.osc.inv s.cfg.cntw ∧ (∀ st ∈ s.stages, st.inv) ∧
    s.bufLen.toNat ≤ s.cfg.bufcap ∧ s.buf.wf = true ∧ s.buf.below s.cfg.bufcap = true ∧
    (s.fault = false ↔ s.cause = .none)

/-- Every register of the block at its value of the column `reset` of 10_state R41 (R220): all bits zero, every valid bit 0. -/
abbrev State.atReset (s : State) : Prop :=
  s.fault = false ∧ s.cause.code = 0#8 ∧ s.status = 0#64 ∧
    (s.osc.v = false ∧ s.osc.h = 0#64 ∧ s.osc.level.bit = 0#1 ∧ s.osc.cnt = 0#64) ∧ s.bufLen = 0#64 ∧
    (s.params.fs = 0#64 ∧ s.params.f0 = 0#64 ∧ s.params.q = 0#64 ∧ s.params.gain = 0#64) ∧
    (s.staging.b0 = 0#64 ∧ s.staging.b1 = 0#64 ∧ s.staging.b2 = 0#64 ∧ s.staging.a1 = 0#64 ∧ s.staging.a2 = 0#64) ∧
    ∀ st ∈ s.stages,
      (st.c.b0 = 0#64 ∧ st.c.b1 = 0#64 ∧ st.c.b2 = 0#64 ∧ st.c.a1 = 0#64 ∧ st.c.a2 = 0#64) ∧
        (st.x1 = 0#64 ∧ st.x2 = 0#64 ∧ st.y1 = 0#64 ∧ st.y2 = 0#64) ∧ st.v = false

/-! ### Words the statements use -/

/-- The rows of 30_encoding R82 in their second form, mask and match. -/
def commandRows : List (Word × Word) :=
  [(0xFFFFFFFFFFFFFFFF#64, 0x0000000001000000#64), (0xFFFFFFFFFFFFFFFF#64, 0x0000000002000000#64),
   (0xFFFFFFFFFFFFFFFF#64, 0x0000000003000000#64), (0xFFFFFFFFFFFE0000#64, 0x0000000010000000#64),
   (0xFFFFFFFFFFFF0000#64, 0x0000000011000000#64), (0xFFFFFFFFFFFF0000#64, 0x0000000012000000#64),
   (0xFFFFFFFFFFFF0000#64, 0x0000000013000000#64), (0xFFFFFFFFFFFFFFFF#64, 0x0000000020000000#64),
   (0xFFFFFFFFFFFFFFFF#64, 0x0000000021000000#64), (0xFFFFFFFFFFFFFFFF#64, 0x0000000022000000#64)]

/-- A word that is the command of no row (R82, R86). -/
abbrev NoCommandRow (w : Word) : Prop := ∀ r ∈ commandRows, w &&& r.1 ≠ r.2

/-- The global register addresses of 10_state R41. -/
def globalAddrs : List Nat :=
  [0x00, 0x01, 0x02, 0x03, 0x04, 0x08, 0x09, 0x0A, 0x0B, 0x10, 0x11, 0x12, 0x13, 0x14, 0x20, 0x21, 0x22]

/-- A mapped word address (20_memory R61). -/
def MappedAddr (s : State) (a : Addr) : Prop :=
  a.toNat ∈ globalAddrs ∨
    (∃ k r, k < s.nstages ∧ r ≤ 9 ∧ a.toNat = 0x00100000 + 16 * k + r) ∨
    ∃ i, i < s.bufLen.toNat ∧ a.toNat = 0x40000000 + i

/-- The word address of offset `r` of stage `k` (R41). -/
def stageAddr (k r : Nat) : Addr := BitVec.ofNat 32 (0x00100000 + 16 * k + r)

/-- The word address of `BUF[i]` (R41). -/
def bufAddr (i : Nat) : Addr := BitVec.ofNat 32 (0x40000000 + i)

/-- Operations one after the other, up to the first stop. -/
def execAll : List Instr → State → Result
  | [], s => .next s
  | i :: is, s =>
    match exec i s with
    | .next t => execAll is t
    | r => r

/-- The operation raises the fault and does nothing else (R193, R194). -/
abbrev FaultsWith (c : Cause) (i : Instr) (s : State) : Prop :=
  exec i s = .next { s with fault := true, cause := c }

/-- A sequence one sample back, before its start the history word. -/
def delay1 (h1 : Word) (f : Nat → Word) (i : Nat) : Word := if i = 0 then h1 else f (i - 1)

/-- A sequence two samples back, before its start the two history words. -/
def delay2 (h1 h2 : Word) (f : Nat → Word) (i : Nat) : Word :=
  if i = 0 then h2 else if i = 1 then h1 else f (i - 2)

/-- The state with a new buffer loaded by the host: `BUFLEN` is its length, its words from index 0 up are the samples. -/
def State.loadBuf (s : State) (xs : List Word) : State :=
  { s with
    bufLen := BitVec.ofNat 64 xs.length
    buf := (xs.zipIdx.foldl (fun m p => m.write p.2 p.1) s.buf) }

/-- One sample through `n` stages from stage `k` up (42_cascade R156). -/
def sampleThrough : (n k : Nat) → State → Word → Word × State
  | 0, _, s, v => (v, s)
  | n + 1, k, s, v =>
    let r := bqStep (s.stage k) v
    sampleThrough n (k + 1) (s.setStage k r.2) r.1

/-- The sample-major loop of R156 over `n` samples from index `i` up. -/
def sampleMajor : (n i : Nat) → State → State
  | 0, _, s => s
  | n + 1, i, s =>
    let r := sampleThrough s.nstages 0 s (s.readBuf i)
    sampleMajor n (i + 1) (r.2.writeBuf i r.1)

/-- Equal words, or two zeros of either sign, or two NaNs (41_biquad R129, 00_scope R13). -/
abbrev SameSample (x y : Word) : Prop :=
  x = y ∨ (Fp.isZero x = true ∧ Fp.isZero y = true) ∨ (Fp.isNaN x = true ∧ Fp.isNaN y = true)

/-! ### Unchanged parts -/

/-- The oscillator registers and OSCV are unchanged. -/
abbrev SameOsc (s t : State) : Prop := t.osc = s.osc

/-- Every stage register is unchanged. -/
abbrev SameStages (s t : State) : Prop := t.nstages = s.nstages ∧ ∀ k, t.stage k = s.stage k

/-- Every register of every stage but stage `j` is unchanged. -/
abbrev SameStagesBut (j : Nat) (s t : State) : Prop := t.nstages = s.nstages ∧ ∀ k, k ≠ j → t.stage k = s.stage k

/-- The parameter and staging registers are unchanged. -/
abbrev SameParams (s t : State) : Prop := t.params = s.params ∧ t.staging = s.staging

/-- `BUFLEN` is unchanged. -/
abbrev SameBufLen (s t : State) : Prop := t.bufLen = s.bufLen

/-- Every word of the buffer storage reads as before. -/
abbrev SameBuf (s t : State) : Prop := ∀ i, t.readBuf i = s.readBuf i

/-- Every word of the buffer storage outside the first `n` reads as before. -/
abbrev SameBufFrom (n : Nat) (s t : State) : Prop := ∀ i, n ≤ i → t.readBuf i = s.readBuf i

/-- The fault state is unchanged. -/
abbrev SameFault (s t : State) : Prop := t.fault = s.fault ∧ t.cause = s.cause

/-- The parameters of the block, the host's events and replies and the reset counter are unchanged. -/
abbrev SameHost (s t : State) : Prop :=
  t.cfg = s.cfg ∧ t.pending = s.pending ∧ t.replies = s.replies ∧ t.epoch = s.epoch

/-- The counter of drawn coefficients is unchanged. -/
abbrev SameDraws (s t : State) : Prop := t.draws = s.draws

end Sys2Proof.Machine
end

