-- ==== Sys2Proof/Certificates/Slice0/Obligations.lean ====
section
/-!
DEFINITION. Sys2Proof/Certificates/Slice0/Obligations.lean: the statements about the machine, each with the rules of spec/ it rests on.
-/
open Sys2Proof Sys2Proof.Machine

/-! ### Encoding -/

/-- R80, R81, R82, R90: decoding what a well-formed operation encodes to gives it back, with every operand at every value. -/
def Obligations.DecodeReadsWhatEncodeWrites : Prop :=
  ∀ i : Instr, i.wf = true → decode (encode i) = .ok i

/-- R80, R81, R82, R85, R90: a transaction that decodes is the encoding of what it decodes to: no bit is dropped, no second spelling. -/
def Obligations.EncodeWritesWhatDecodeRead : Prop :=
  ∀ (t : Txn) (i : Instr), decode t = .ok i → encode i = t ∧ i.wf = true

/-- R82: a word is the command of a row exactly when `(w & mask) == match`, `k` being bits 15:0 and `n` bit 16; no word is of two rows,
and a word of no row is illegal. -/
def Obligations.CommandRowsAreMaskAndMatch : Prop :=
  ∀ w : Word,
    (decodeCmd w = .ok .oscInit ↔ w &&& 0xFFFFFFFFFFFFFFFF#64 = 0x0000000001000000#64) ∧
    (decodeCmd w = .ok .oscReset ↔ w &&& 0xFFFFFFFFFFFFFFFF#64 = 0x0000000002000000#64) ∧
    (decodeCmd w = .ok .oscFill ↔ w &&& 0xFFFFFFFFFFFFFFFF#64 = 0x0000000003000000#64) ∧
    (decodeCmd w = .ok (.bqDesign (w.extractLsb' 0 16) (w.getLsbD 16)) ↔
      w &&& 0xFFFFFFFFFFFE0000#64 = 0x0000000010000000#64) ∧
    (decodeCmd w = .ok (.bqLoad (w.extractLsb' 0 16)) ↔ w &&& 0xFFFFFFFFFFFF0000#64 = 0x0000000011000000#64) ∧
    (decodeCmd w = .ok (.bqReset (w.extractLsb' 0 16)) ↔ w &&& 0xFFFFFFFFFFFF0000#64 = 0x0000000012000000#64) ∧
    (decodeCmd w = .ok (.bqApply (w.extractLsb' 0 16)) ↔ w &&& 0xFFFFFFFFFFFF0000#64 = 0x0000000013000000#64) ∧
    (decodeCmd w = .ok .casBuild ↔ w &&& 0xFFFFFFFFFFFFFFFF#64 = 0x0000000020000000#64) ∧
    (decodeCmd w = .ok .casReset ↔ w &&& 0xFFFFFFFFFFFFFFFF#64 = 0x0000000021000000#64) ∧
    (decodeCmd w = .ok .casApply ↔ w &&& 0xFFFFFFFFFFFFFFFF#64 = 0x0000000022000000#64) ∧
    (∀ r ∈ commandRows, ∀ r' ∈ commandRows, w &&& r.1 = r.2 → w &&& r'.1 = r'.2 → r = r') ∧
    (NoCommandRow w ↔ decodeCmd w = .error .illegalCmd)

/-- R82, R94: command words written out from the table decode to the commands they stand for. The last two clauses, that a bare word of
a bus operation's row decodes as the read, are the model's choice, no rule of the spec: the row of the read and the row of the write
have the same bits (notes/assumptions/11.md). -/
def Obligations.WrittenOutWordsDecode : Prop :=
  decodeTableWord 64 0x0000000001000000 = some .oscInit ∧
  decodeTableWord 64 0x0000000003000000 = some .oscFill ∧
  decodeTableWord 64 0x0000000010010002 = some (.bqDesign 2#16 true) ∧
  decodeTableWord 64 0x0000000011000001 = some (.bqLoad 1#16) ∧
  decodeTableWord 64 0x0000000013000005 = some (.bqApply 5#16) ∧
  decodeTableWord 64 0x0000000022000000 = some .casApply ∧
  decodeTableWord 64 0x0000000003000001 = none ∧
  decodeTableWord 64 0x0000000101000000 = none ∧
  decodeTableWord 32 0x00000020 = some (.regRd 0x20#32) ∧
  decodeTableWord 32 0x40000007 = some (.bufRd 0x40000007#32)

/-- R90: a bus operation is selected by the kind of the transaction and address bits 31:30; a write to address 0 is a command. -/
def Obligations.BusOperationsByKindAndRegion : Prop :=
  ∀ (a : Addr) (w : Word),
    (a &&& 0xC0000000#32 = 0x00000000#32 → decode (.read a) = .ok (.regRd a)) ∧
    (a &&& 0xC0000000#32 = 0x00000000#32 → a ≠ 0#32 → decode (.write a w) = .ok (.regWr a w)) ∧
    (a &&& 0xC0000000#32 = 0x40000000#32 → decode (.read a) = .ok (.bufRd a)) ∧
    (a &&& 0xC0000000#32 = 0x40000000#32 → decode (.write a w) = .ok (.bufWr a w)) ∧
    (a.getLsbD 31 = true → decode (.read a) = .error .unmapped ∧ decode (.write a w) = .error .unmapped) ∧
    decode (.write 0#32 w) = decodeCmd w

/-! ### Steps -/

/-- R16, R38, R175: when the host's next transaction decodes to `i`, the step is `exec i` on the state with that transaction taken off
the host's list. -/
def Obligations.StepRunsTheDecodedInstruction : Prop :=
  ∀ (s : State) (t : Txn) (rest : List HostEvent) (i : Instr),
    s.pending = .bus t :: rest → decode t = .ok i → step s = exec i { s with pending := rest }

/-- R86: a word written to CMD that matches no row faults with ILLEGAL_CMD and has no other effect; the all-zero and the all-ones word
are such words. -/
def Obligations.IllegalCommandFaults : Prop :=
  (∀ (s : State) (w : Word) (rest : List HostEvent), s.fault = false → NoCommandRow w →
    s.pending = .bus (.write 0#32 w) :: rest →
    step s = .next { s with pending := rest, fault := true, cause := .illegalCmd }) ∧
  NoCommandRow 0#64 ∧ NoCommandRow (BitVec.allOnes 64)

/-- R62: a host read or write of an unmapped address faults with BAD_ACCESS; the read returns 0. -/
def Obligations.UnmappedAccessFaults : Prop :=
  ∀ (s : State) (a : Addr) (w : Word) (rest : List HostEvent), s.fault = false → ¬ MappedAddr s a →
    (s.pending = .bus (.read a) :: rest →
      step s = .next { s with pending := rest, fault := true, cause := .badAccess, replies := 0#64 :: s.replies }) ∧
    (s.pending = .bus (.write a w) :: rest →
      step s = .next { s with pending := rest, fault := true, cause := .badAccess })

/-- R220: after hardware reset every register holds the value of the reset column, whatever the state was; so does State.reset. -/
def Obligations.HardwareResetValues : Prop :=
  State.reset.atReset ∧
  (∀ (s : State) (rest : List HostEvent), s.pending = .hardwareReset :: rest →
    ∃ t, step s = .next t ∧ t.atReset ∧ t.cfg = s.cfg ∧ t.nstages = s.nstages ∧ t.pending = rest)

/-- R68, R232, 93 part 1: every event is answered by a next state: a transaction completes, faults in the block's own way, or is
ignored; nothing is stuck. -/
def Obligations.EveryEventCompletes : Prop :=
  (∀ s : State, ∃ t, step s = .next t) ∧ ∀ (i : Instr) (s : State), ∃ t, exec i s = .next t

/-! ### Invariants -/

/-- The invariant holds right after power-on, for every choice of the parameters in their ranges, State.reset among them. -/
def Obligations.ResetMeetsTheInvariant : Prop :=
  State.reset.inv ∧
  ∀ (cfg : Config) (n : Nat), cfg.wf → 1 ≤ n → n ≤ 65536 → (State.powerOn cfg n).inv

/-- R21, R24, R25, R29, R33, R34, R35: every step keeps the registers' invariants and the buffer memory's canonical form. -/
def Obligations.StepKeepsTheInvariant : Prop :=
  ∀ s t : State, s.inv → step s = .next t → t.inv

/-- R6, R37: no step changes the parameters of the block. -/
def Obligations.StepKeepsTheParameters : Prop :=
  ∀ s t : State, step s = .next t → t.cfg = s.cfg ∧ t.nstages = s.nstages

/-- R27: coefficients are written only by the construction commands. -/
def Obligations.CoefficientsChangeByConstructionOnly : Prop :=
  ∀ (i : Instr) (s t : State), i.wf = true → (∀ k n, i ≠ .bqDesign k n) → (∀ k, i ≠ .bqLoad k) → i ≠ .casBuild →
    exec i s = .next t → ∀ k, (t.stage k).c = (s.stage k).c

/-- R25, R29: a valid bit once set stays set until hardware reset. -/
def Obligations.ValidBitsStaySet : Prop :=
  ∀ s t : State, s.pending.head? ≠ some .hardwareReset → step s = .next t →
    (s.osc.v = true → t.osc.v = true) ∧ ∀ k, (s.stage k).v = true → (t.stage k).v = true

/-! ### Faults -/

/-- R176: while FAULT = 1 every bus write, whatever its address and word, changes no state. -/
def Obligations.FaultedBlockIgnoresWrites : Prop :=
  ∀ (s : State) (a : Addr) (w : Word) (rest : List HostEvent), s.fault = true →
    s.pending = .bus (.write a w) :: rest → step s = .next { s with pending := rest }

/-- R177: while FAULT = 1 reads answer as before; a read that would itself fault, of an address in any region, returns 0 and changes
nothing. -/
def Obligations.FaultedBlockAnswersReads : Prop :=
  ∀ (s : State) (a : Addr), s.fault = true →
    exec (.regRd a) s = .next { s with replies := (s.readReg a).getD 0#64 :: s.replies } ∧
    (∀ i, i < s.bufLen.toNat → i < 2 ^ 30 →
      exec (.bufRd (bufAddr i)) s = .next { s with replies := s.readBuf i :: s.replies }) ∧
    (∀ i, s.bufLen.toNat ≤ i → i < 2 ^ 30 →
      exec (.bufRd (bufAddr i)) s = .next { s with replies := 0#64 :: s.replies }) ∧
    (∀ rest, a.getLsbD 31 = true → s.pending = .bus (.read a) :: rest →
      step s = .next { s with pending := rest, replies := 0#64 :: s.replies })

/-- R195: no operation clears FAULT or CAUSE; only hardware reset does. -/
def Obligations.FaultIsSticky : Prop :=
  ∀ s t : State, s.fault = true → s.pending.head? ≠ some .hardwareReset → step s = .next t →
    t.fault = true ∧ t.cause = s.cause

/-- R194: a transaction that faults leaves everything but FAULT and CAUSE as it was; a read then returns 0. -/
def Obligations.FaultsArePrecise : Prop :=
  ∀ (s t : State) (x : Txn) (rest : List HostEvent), s.fault = false → s.pending = .bus x :: rest →
    step s = .next t → t.fault = true →
    t = { s with
          pending := rest
          fault := true
          cause := t.cause
          replies := match x with
            | .read _ => 0#64 :: s.replies
            | .write _ _ => s.replies } ∧
      1 ≤ t.cause.code.toNat ∧ t.cause.code.toNat ≤ 6

/-- R83: the stage of a BQ command is bits 15:0 of its word; one that is not below NSTAGES faults with BAD_STAGE and has no other
effect, its valid bit unasked (R192). -/
def Obligations.StageIndexOutOfRangeFaults : Prop :=
  ∀ (s : State) (k : BitVec 16) (n : Bool), s.fault = false → s.nstages ≤ k.toNat →
    FaultsWith .badStage (.bqDesign k n) s ∧ FaultsWith .badStage (.bqLoad k) s ∧
    FaultsWith .badStage (.bqReset k) s ∧ FaultsWith .badStage (.bqApply k) s ∧
    ∀ w : Word, decodeCmd w = .ok (.bqDesign k n) ∨ decodeCmd w = .ok (.bqLoad k) ∨ decodeCmd w = .ok (.bqReset k) ∨
      decodeCmd w = .ok (.bqApply k) → k = w.extractLsb' 0 16

/-- R191 (UNCONFIGURED), R104, R127, R154: use before construction faults and changes nothing else, an empty buffer included. -/
def Obligations.UseBeforeConstructionFaults : Prop :=
  ∀ s : State, s.fault = false →
    (s.osc.v = false → FaultsWith .unconfigured .oscFill s) ∧
    (∀ k : BitVec 16, k.toNat < s.nstages → (s.stage k.toNat).v = false → FaultsWith .unconfigured (.bqApply k) s) ∧
    (∀ k, k < s.nstages → (s.stage k).v = false → FaultsWith .unconfigured .casApply s)

/-! ### Oscillator -/

/-- R101: the half period is the rounded quotient, if that is a number in `1 ... 2^CNTW - 1`, and invalid otherwise. -/
def Obligations.HalfPeriodIsTheRoundedQuotient : Prop :=
  ∀ (cntw : Nat) (fs f : Word), cntw ≤ 63 →
    let v := Fp.div (Fp.div fs f) 0x4000000000000000#64
    (Fp.isNaN v = true ∨ Fp.isInf v = true → halfPeriod cntw fs f = none) ∧
    (Fp.isFinite v = true →
      (∀ h : BitVec 64, halfPeriod cntw fs f = some h ↔
        (h.toNat : Int) = Fp.roundHalfAway v ∧ 1 ≤ h.toNat ∧ h.toNat ≤ 2 ^ cntw - 1) ∧
      (halfPeriod cntw fs f = none ↔ Fp.roundHalfAway v < 1 ∨ (2 ^ cntw - 1 : Int) < Fp.roundHalfAway v))

/-- R15: `round_half_away` is the nearest integer, a tie going to the larger magnitude, with the operand's sign. -/
def Obligations.RoundHalfAwayIsNearest : Prop :=
  ∀ v : Word, Fp.isFinite v = true →
    let r := Fp.roundHalfAway v
    (2 * r.natAbs : Int) * 2 ^ 1074 - 2 ^ 1074 ≤ 2 * (Fp.mag v : Int) ∧
    2 * (Fp.mag v : Int) < (2 * r.natAbs : Int) * 2 ^ 1074 + 2 ^ 1074 ∧
    (Fp.sign v = true → r ≤ 0) ∧ (Fp.sign v = false → 0 ≤ r)

/-- R100: OSC.INIT constructs the oscillator with the half period of P_FS and P_F0, at LOW and 0; an invalid one is BAD_PARAM. -/
def Obligations.OscInitConstructs : Prop :=
  decodeCmd 0x0000000001000000#64 = .ok .oscInit ∧
  ∀ s : State, s.fault = false →
    (∀ h, halfPeriod s.cfg.cntw s.params.fs s.params.f0 = some h →
      ∃ t, exec .oscInit s = .next t ∧ t.osc = { h := h, level := .low, cnt := 0#64, v := true } ∧
        SameStages s t ∧ SameParams s t ∧ SameBufLen s t ∧ SameBuf s t ∧ SameFault s t ∧ SameHost s t ∧ SameDraws s t) ∧
    (halfPeriod s.cfg.cntw s.params.fs s.params.f0 = none → FaultsWith .badParam .oscInit s)

/-- R102: a write to OSC_H constructs the oscillator with the half period written, in `1 ... 2^CNTW - 1`; another is BAD_PARAM. -/
def Obligations.OscHWriteConstructs : Prop :=
  ∀ (s : State) (w : Word), s.fault = false →
    (1 ≤ w.toNat → w.toNat ≤ 2 ^ s.cfg.cntw - 1 →
      ∃ t, exec (.regWr 0x00000020#32 w) s = .next t ∧ t.osc = { h := w, level := .low, cnt := 0#64, v := true } ∧
        SameStages s t ∧ SameParams s t ∧ SameBufLen s t ∧ SameBuf s t ∧ SameFault s t ∧ SameHost s t ∧ SameDraws s t) ∧
    (w.toNat < 1 ∨ 2 ^ s.cfg.cntw - 1 < w.toNat → FaultsWith .badParam (.regWr 0x00000020#32 w) s)

/-- R103: OSC.RESET sets LOW and 0, keeps `OSC.H` and OSCV, needs no valid bit. -/
def Obligations.OscResetRestarts : Prop :=
  decodeCmd 0x0000000002000000#64 = .ok .oscReset ∧
  ∀ s : State, s.fault = false →
    ∃ t, exec .oscReset s = .next t ∧ t.osc = { h := s.osc.h, level := .low, cnt := 0#64, v := s.osc.v } ∧
      SameStages s t ∧ SameParams s t ∧ SameBufLen s t ∧ SameBuf s t ∧ SameFault s t ∧ SameHost s t ∧ SameDraws s t

/-- R104, R105: OSC.FILL of a constructed oscillator writes `BUF[0 ... BUFLEN-1]`, each sample by one `OscStep`: flip and clear at the
bound, then output, then increment; nothing else changes. Not constructed, it is UNCONFIGURED. -/
def Obligations.OscFillRunsTheOscillator : Prop :=
  decodeCmd 0x0000000003000000#64 = .ok .oscFill ∧
  ∀ s : State, s.fault = false →
    (s.osc.v = false → FaultsWith .unconfigured .oscFill s) ∧
    (s.osc.v = true →
      ∃ t, exec .oscFill s = .next t ∧
        (∃ o : Nat → Osc, o 0 = s.osc ∧ t.osc = o s.bufLen.toNat ∧
          ∀ i, i < s.bufLen.toNat →
            o (i + 1) =
              (if (o i).cnt = (o i).h then
                { o i with level := if (o i).level = .low then .high else .low, cnt := 1#64 }
              else { o i with cnt := (o i).cnt + 1#64 }) ∧
            t.readBuf i = if (o (i + 1)).level = .high then 0x3FE0000000000000#64 else 0xBFE0000000000000#64) ∧
        SameBufFrom s.bufLen.toNat s t ∧
        SameStages s t ∧ SameParams s t ∧ SameBufLen s t ∧ SameFault s t ∧ SameHost s t ∧ SameDraws s t)

/-- R107: from LOW, 0 and half period `h`, sample `j` is -0.5 when `j / h` is even and +0.5 when it is odd; after `n` samples the
counter and the level are as the law says. -/
def Obligations.SegmentLawOfTheWave : Prop :=
  ∀ s : State, s.fault = false → s.osc.v = true → s.osc.level = .low → s.osc.cnt = 0#64 → 1 ≤ s.osc.h.toNat →
    ∃ t, exec .oscFill s = .next t ∧
      (∀ j, j < s.bufLen.toNat →
        t.readBuf j = if (j / s.osc.h.toNat) % 2 = 0 then 0xBFE0000000000000#64 else 0x3FE0000000000000#64) ∧
      (1 ≤ s.bufLen.toNat →
        t.osc.cnt.toNat = (s.bufLen.toNat - 1) % s.osc.h.toNat + 1 ∧
        (t.osc.level = .high ↔ ((s.bufLen.toNat - 1) / s.osc.h.toNat) % 2 = 1)) ∧
      (s.bufLen.toNat = 0 → t.osc = s.osc)

/-- R108: two fills of `n1` and `n2` samples write, one after the other, the samples of one fill of `n1 + n2`, and end in the same
oscillator state. -/
def Obligations.FillContinuity : Prop :=
  ∀ (s : State) (n1 n2 : Nat), s.fault = false → s.osc.v = true → n1 + n2 ≤ s.cfg.bufcap → s.cfg.bufcap ≤ 2 ^ 30 →
    ∃ t1 t2 t,
      exec .oscFill { s with bufLen := BitVec.ofNat 64 n1 } = .next t1 ∧
      exec .oscFill { t1 with bufLen := BitVec.ofNat 64 n2 } = .next t2 ∧
      exec .oscFill { s with bufLen := BitVec.ofNat 64 (n1 + n2) } = .next t ∧
      t1.liveBuf ++ t2.liveBuf = t.liveBuf ∧ t2.osc = t.osc

/-! ### Biquad -/

/-- R122: the domain of the design function, in the numbers the words stand for. -/
def Obligations.DesignDomain : Prop :=
  ∀ (p : DesignParams) (g : Word),
    designValid p g = true ↔
      (Fp.isFinite p.fs = true ∧ Fp.isFinite p.f0 = true ∧ Fp.isFinite p.q = true ∧ Fp.isFinite g = true) ∧
      0 < Fp.value p.fs ∧ 0 < Fp.value p.q ∧
      (Fp.isFinite (designA g) = true ∧ 0 < Fp.value (designA g)) ∧
      Fp.isFinite (designA0 p g) = true ∧ Fp.value (designA0 p g) ≠ 0

/-- R121, R123, R84: BQ.DESIGN makes stage `k` valid with zero history; with valid parameters its coefficients are the formula's, one rounded
operation per operator, `n` negating the gain; without, they are five free values (a statement about them holds for every value) and
no fault is raised. Nothing else changes but, then, the counter of draws. -/
def Obligations.BqDesignBuildsTheStage : Prop :=
  ∀ (s : State) (k : BitVec 16) (n : Bool),
   decodeCmd (0x0000000010000000#64 ||| ((BitVec.ofBool n).setWidth 64 <<< 16) ||| k.setWidth 64) = .ok (.bqDesign k n) ∧
   (s.fault = false → s.nstages ≤ k.toNat → FaultsWith .badStage (.bqDesign k n) s) ∧
   (s.fault = false → k.toNat < s.nstages →
    ∃ t, exec (.bqDesign k n) s = .next t ∧
      (let g := if n then s.params.gain ^^^ 0x8000000000000000#64 else s.params.gain
       let A := Fp.pow10 (Fp.div g 0x4044000000000000#64)
       let omega := Fp.div (Fp.mul (Fp.mul 0x4000000000000000#64 0x400921FB54442D18#64) s.params.f0) s.params.fs
       let alpha := Fp.div (Fp.sin omega) (Fp.mul 0x4000000000000000#64 s.params.q)
       let a0 := Fp.add 0x3FF0000000000000#64 (Fp.div alpha A)
       designValid s.params g = true →
        (t.stage k.toNat).c.b0 = Fp.div (Fp.add 0x3FF0000000000000#64 (Fp.mul alpha A)) a0 ∧
        (t.stage k.toNat).c.b1 = Fp.div (Fp.mul 0xC000000000000000#64 (Fp.cos omega)) a0 ∧
        (t.stage k.toNat).c.b2 = Fp.div (Fp.sub 0x3FF0000000000000#64 (Fp.mul alpha A)) a0 ∧
        (t.stage k.toNat).c.a1 = (t.stage k.toNat).c.b1 ∧
        (t.stage k.toNat).c.a2 = Fp.div (Fp.sub 0x3FF0000000000000#64 (Fp.div alpha A)) a0 ∧
        SameDraws s t) ∧
      ((t.stage k.toNat).x1 = 0#64 ∧ (t.stage k.toNat).x2 = 0#64 ∧ (t.stage k.toNat).y1 = 0#64 ∧
        (t.stage k.toNat).y2 = 0#64) ∧
      (t.stage k.toNat).v = true ∧
      SameStagesBut k.toNat s t ∧ SameOsc s t ∧ SameParams s t ∧ SameBufLen s t ∧ SameBuf s t ∧ SameFault s t ∧ SameHost s t)

/-- R123 (example), R14: with centre frequency `+0.0` and valid parameters the coefficients are `(1, -2, 1, -2, 1)`, whatever the free
values of `pow10`, `sin` and `cos` are. -/
def Obligations.DesignAtFrequencyZero : Prop :=
  ∀ (s : State) (k : BitVec 16) (n : Bool), s.fault = false → k.toNat < s.nstages → s.params.f0 = 0#64 →
    designValid s.params (if n then Fp.neg s.params.gain else s.params.gain) = true →
    ∃ t, exec (.bqDesign k n) s = .next t ∧
      (t.stage k.toNat).c =
        { b0 := 0x3FF0000000000000#64, b1 := 0xC000000000000000#64, b2 := 0x3FF0000000000000#64,
          a1 := 0xC000000000000000#64, a2 := 0x3FF0000000000000#64 }

/-- R124: BQ.LOAD copies the staging registers bit for bit, clears the history, sets V. -/
def Obligations.BqLoadCopiesTheStaging : Prop :=
  ∀ (s : State) (k : BitVec 16), s.fault = false →
    decodeCmd (0x0000000011000000#64 ||| k.setWidth 64) = .ok (.bqLoad k) ∧
    (k.toNat < s.nstages →
      ∃ t, exec (.bqLoad k) s = .next t ∧
        t.stage k.toNat = { c := s.staging, x1 := 0#64, x2 := 0#64, y1 := 0#64, y2 := 0#64, v := true } ∧
        SameStagesBut k.toNat s t ∧ SameOsc s t ∧ SameParams s t ∧ SameBufLen s t ∧ SameBuf s t ∧ SameFault s t ∧
        SameHost s t ∧ SameDraws s t) ∧
    (s.nstages ≤ k.toNat → FaultsWith .badStage (.bqLoad k) s)

/-- R125: BQ.RESET clears the four history words and keeps the coefficients and V, valid or not. -/
def Obligations.BqResetClearsTheHistory : Prop :=
  ∀ (s : State) (k : BitVec 16), s.fault = false →
    decodeCmd (0x0000000012000000#64 ||| k.setWidth 64) = .ok (.bqReset k) ∧
    (k.toNat < s.nstages →
      ∃ t, exec (.bqReset k) s = .next t ∧
        t.stage k.toNat =
          { c := (s.stage k.toNat).c, x1 := 0#64, x2 := 0#64, y1 := 0#64, y2 := 0#64, v := (s.stage k.toNat).v } ∧
        SameStagesBut k.toNat s t ∧ SameOsc s t ∧ SameParams s t ∧ SameBufLen s t ∧ SameBuf s t ∧ SameFault s t ∧
        SameHost s t ∧ SameDraws s t) ∧
    (s.nstages ≤ k.toNat → FaultsWith .badStage (.bqReset k) s)

/-- R126, R127, R132: BQ.APPLY replaces each sample `x(i)` of the live buffer, in order, by
`y(i) = (((b0 x(i) + b1 x(i-1)) + b2 x(i-2)) - a1 y(i-1)) - a2 y(i-2)`, each operation rounded, where the samples before the buffer are
the history; the history ends as the last two inputs and outputs; nothing else changes. -/
def Obligations.BqApplyIsTheRecurrence : Prop :=
  ∀ (s : State) (k : BitVec 16), s.fault = false →
    decodeCmd (0x0000000013000000#64 ||| k.setWidth 64) = .ok (.bqApply k) ∧
    (k.toNat < s.nstages → (s.stage k.toNat).v = true →
      ∃ t, exec (.bqApply k) s = .next t ∧
        (let st := s.stage k.toNat
         (∀ i, i < s.bufLen.toNat →
          t.readBuf i =
            Fp.sub
              (Fp.sub
                (Fp.add
                  (Fp.add (Fp.mul st.c.b0 (s.readBuf i)) (Fp.mul st.c.b1 (delay1 st.x1 s.readBuf i)))
                  (Fp.mul st.c.b2 (delay2 st.x1 st.x2 s.readBuf i)))
                (Fp.mul st.c.a1 (delay1 st.y1 t.readBuf i)))
              (Fp.mul st.c.a2 (delay2 st.y1 st.y2 t.readBuf i))) ∧
         t.stage k.toNat =
          { c := st.c
            x1 := delay1 st.x1 s.readBuf s.bufLen.toNat
            x2 := delay2 st.x1 st.x2 s.readBuf s.bufLen.toNat
            y1 := delay1 st.y1 t.readBuf s.bufLen.toNat
            y2 := delay2 st.y1 st.y2 t.readBuf s.bufLen.toNat
            v := st.v }) ∧
        SameBufFrom s.bufLen.toNat s t ∧
        SameStagesBut k.toNat s t ∧ SameOsc s t ∧ SameParams s t ∧ SameBufLen s t ∧ SameFault s t ∧ SameHost s t ∧
        SameDraws s t) ∧
    (s.nstages ≤ k.toNat → FaultsWith .badStage (.bqApply k) s) ∧
    (k.toNat < s.nstages → (s.stage k.toNat).v = false → FaultsWith .unconfigured (.bqApply k) s)

/-- R129: the impulse response of a fresh stage with finite coefficients, up to the sign of a zero (and up to which NaN, where an
operation overflows and a later one is invalid: R13). -/
def Obligations.ImpulseResponse : Prop :=
  ∀ (s : State) (k : BitVec 16) (c : Coefs), s.fault = false → k.toNat < s.nstages →
    s.stage k.toNat = { c := c, x1 := 0#64, x2 := 0#64, y1 := 0#64, y2 := 0#64, v := true } →
    (Fp.isFinite c.b0 = true ∧ Fp.isFinite c.b1 = true ∧ Fp.isFinite c.b2 = true ∧ Fp.isFinite c.a1 = true ∧
      Fp.isFinite c.a2 = true) →
    3 ≤ s.bufLen.toNat → s.readBuf 0 = 0x3FF0000000000000#64 → (∀ i, 1 ≤ i → i < s.bufLen.toNat → s.readBuf i = 0#64) →
    ∃ t, exec (.bqApply k) s = .next t ∧
      SameSample (t.readBuf 0) c.b0 ∧
      SameSample (t.readBuf 1) (Fp.sub c.b1 (Fp.mul c.a1 (t.readBuf 0))) ∧
      SameSample (t.readBuf 2) (Fp.sub (Fp.sub c.b2 (Fp.mul c.a1 (t.readBuf 1))) (Fp.mul c.a2 (t.readBuf 0)))

/-- R130: for a valid stage whose own coefficients are in the staging registers, BQ.RESET and BQ.LOAD leave the same state, so every
later sequence of operations does the same after either. -/
def Obligations.BqResetIsReloading : Prop :=
  ∀ (s : State) (k : BitVec 16), s.fault = false → k.toNat < s.nstages → (s.stage k.toNat).v = true →
    s.staging = (s.stage k.toNat).c →
    ∃ t, exec (.bqReset k) s = .next t ∧ exec (.bqLoad k) s = .next t ∧
      t.stage k.toNat = { c := (s.stage k.toNat).c, x1 := 0#64, x2 := 0#64, y1 := 0#64, y2 := 0#64, v := true } ∧
      ∀ later : List Instr, execAll (.bqReset k :: later) s = execAll (.bqLoad k :: later) s

/-- R131: a stream filtered as two buffers gives the samples and the final history of the stream filtered as one. -/
def Obligations.ApplyContinuity : Prop :=
  ∀ (s : State) (k : BitVec 16) (xs ys : List Word), s.fault = false → k.toNat < s.nstages → (s.stage k.toNat).v = true →
    xs.length + ys.length ≤ s.cfg.bufcap → s.cfg.bufcap ≤ 2 ^ 30 →
    ∃ t1 t2 t,
      exec (.bqApply k) (s.loadBuf xs) = .next t1 ∧ exec (.bqApply k) (t1.loadBuf ys) = .next t2 ∧
      exec (.bqApply k) (s.loadBuf (xs ++ ys)) = .next t ∧
      t1.liveBuf ++ t2.liveBuf = t.liveBuf ∧ t2.stages = t.stages

/-! ### Cascade -/

/-- R151, R152: CAS.BUILD makes every stage valid with zero history; where the parameters are valid for the stage's sign, even stages
have the formula's coefficients for `+P_GAIN` and odd ones for its negation; nothing else changes but the counter of draws. -/
def Obligations.CasBuildAlternatesTheGain : Prop :=
  ∀ s : State, s.fault = false →
    ∃ t, exec .casBuild s = .next t ∧ t.nstages = s.nstages ∧
      (∀ k, k < s.nstages →
        ((t.stage k).x1 = 0#64 ∧ (t.stage k).x2 = 0#64 ∧ (t.stage k).y1 = 0#64 ∧ (t.stage k).y2 = 0#64) ∧
        (t.stage k).v = true ∧
        (let g := if k % 2 = 0 then s.params.gain else Fp.neg s.params.gain
         designValid s.params g = true → (t.stage k).c = peakingEQ s.params g)) ∧
      (designValid s.params s.params.gain = true → designValid s.params (Fp.neg s.params.gain) = true → SameDraws s t) ∧
      SameOsc s t ∧ SameParams s t ∧ SameBufLen s t ∧ SameBuf s t ∧ SameFault s t ∧ SameHost s t

/-- R151: CAS.BUILD is the command sequence BQ.DESIGN 0; BQ.DESIGN 1, neg; BQ.DESIGN 2; .... That degenerate designs draw the same free
values in both is the model's choice (its counter of draws, notes/assumptions/7.md), no rule of the spec. -/
def Obligations.CasBuildIsTheDesignSequence : Prop :=
  decodeCmd 0x0000000020000000#64 = .ok .casBuild ∧
  ∀ s : State, s.fault = false → s.nstages ≤ 65536 →
    exec .casBuild s =
      execAll ((List.range s.nstages).map fun k => .bqDesign (BitVec.ofNat 16 k) (decide (k % 2 = 1))) s

/-- R153: CAS.RESET clears every stage's history and keeps every coefficient and valid bit. -/
def Obligations.CasResetClearsEveryHistory : Prop :=
  decodeCmd 0x0000000021000000#64 = .ok .casReset ∧
  ∀ s : State, s.fault = false →
    ∃ t, exec .casReset s = .next t ∧ t.nstages = s.nstages ∧
      (∀ k, k < s.nstages →
        t.stage k = { c := (s.stage k).c, x1 := 0#64, x2 := 0#64, y1 := 0#64, y2 := 0#64, v := (s.stage k).v }) ∧
      SameOsc s t ∧ SameParams s t ∧ SameBufLen s t ∧ SameBuf s t ∧ SameFault s t ∧ SameHost s t ∧ SameDraws s t

/-- R154: CAS.APPLY of constructed stages is BQ.APPLY 0; BQ.APPLY 1; ... in index order; with one not constructed it is UNCONFIGURED
and runs none. -/
def Obligations.CasApplyIsTheApplySequence : Prop :=
  decodeCmd 0x0000000022000000#64 = .ok .casApply ∧
  ∀ s : State, s.fault = false → s.nstages ≤ 65536 →
    (∀ k, k < s.nstages → (s.stage k).v = false → FaultsWith .unconfigured .casApply s) ∧
    ((∀ k, k < s.nstages → (s.stage k).v = true) →
      exec .casApply s = execAll ((List.range s.nstages).map fun k => .bqApply (BitVec.ofNat 16 k)) s)

/-- R154: CAS.APPLY of constructed stages completes; it changes the live buffer and the histories only. -/
def Obligations.CasApplyFrame : Prop :=
  ∀ s : State, s.fault = false → (∀ k, k < s.nstages → (s.stage k).v = true) →
    ∃ t, exec .casApply s = .next t ∧ t.nstages = s.nstages ∧
      (∀ k, (t.stage k).c = (s.stage k).c ∧ (t.stage k).v = (s.stage k).v) ∧
      (s.bufLen = 0#64 → SameStages s t) ∧
      SameBufFrom s.bufLen.toNat s t ∧
      SameOsc s t ∧ SameParams s t ∧ SameBufLen s t ∧ SameFault s t ∧ SameHost s t ∧ SameDraws s t

/-- R156: the sample-major loop leaves the same buffer and the same histories as CAS.APPLY, bit for bit. -/
def Obligations.LoopInterchange : Prop :=
  ∀ s : State, s.fault = false → (∀ k, k < s.nstages → (s.stage k).v = true) →
    ∃ t, exec .casApply s = .next t ∧
      t.stages = (sampleMajor s.bufLen.toNat 0 s).stages ∧
      ∀ i, t.readBuf i = (sampleMajor s.bufLen.toNat 0 s).readBuf i

/-- R157: after CAS.RESET the block is as with newly constructed stages of the same coefficients, so every later sequence of operations
does the same. -/
def Obligations.CascadeResetLaw : Prop :=
  ∀ (s : State) (later : List Instr), s.fault = false → (∀ k, k < s.nstages → (s.stage k).v = true) →
    ∃ t u, exec .casReset s = .next t ∧ u.nstages = s.nstages ∧
      (∀ k, k < s.nstages →
        u.stage k = { c := (s.stage k).c, x1 := 0#64, x2 := 0#64, y1 := 0#64, y2 := 0#64, v := true }) ∧
      u = { s with stages := u.stages } ∧ execAll later t = execAll later u

/-- R158: a stream through the whole cascade as two buffers gives the samples and the final histories of the stream as one buffer. -/
def Obligations.CascadeContinuity : Prop :=
  ∀ (s : State) (xs ys : List Word), s.fault = false → (∀ k, k < s.nstages → (s.stage k).v = true) →
    xs.length + ys.length ≤ s.cfg.bufcap → s.cfg.bufcap ≤ 2 ^ 30 →
    ∃ t1 t2 t,
      exec .casApply (s.loadBuf xs) = .next t1 ∧ exec .casApply (t1.loadBuf ys) = .next t2 ∧
      exec .casApply (s.loadBuf (xs ++ ys)) = .next t ∧
      t1.liveBuf ++ t2.liveBuf = t.liveBuf ∧ t2.stages = t.stages

/-! ### Host access -/

/-- R35: the bits of STATUS. -/
def Obligations.StatusLayout : Prop :=
  ∀ s : State,
    s.status.getLsbD 0 = s.fault ∧ s.status.getLsbD 1 = s.osc.v ∧ s.status.extractLsb' 2 6 = 0#6 ∧
      s.status.extractLsb' 8 8 = s.cause.code ∧ s.status.extractLsb' 16 48 = 0#48

/-- R170, R41, R93: a read of a mapped readable register returns its value, zero-extended, and changes nothing in the block, faulted or
not; a read of CMD or of an unmapped address of the region faults with BAD_ACCESS and returns 0. -/
def Obligations.RegisterReads : Prop :=
  ∀ s : State,
    (∀ e ∈ ([(0x01#32, s.status), (0x02#32, s.bufLen), (0x03#32, BitVec.ofNat 64 s.nstages),
        (0x04#32, BitVec.ofNat 64 s.cfg.bufcap), (0x08#32, s.params.fs), (0x09#32, s.params.f0), (0x0A#32, s.params.q),
        (0x0B#32, s.params.gain), (0x10#32, s.staging.b0), (0x11#32, s.staging.b1), (0x12#32, s.staging.b2),
        (0x13#32, s.staging.a1), (0x14#32, s.staging.a2), (0x20#32, s.osc.h), (0x21#32, s.osc.cnt),
        (0x22#32, s.osc.level.bit.setWidth 64)] : List (Addr × Word)),
      exec (.regRd e.1) s = .next { s with replies := e.2 :: s.replies }) ∧
    (∀ k, k < s.nstages → k < 65536 →
      ∀ e ∈ ([(0, (s.stage k).c.b0), (1, (s.stage k).c.b1), (2, (s.stage k).c.b2), (3, (s.stage k).c.a1),
          (4, (s.stage k).c.a2), (5, (s.stage k).x1), (6, (s.stage k).x2), (7, (s.stage k).y1), (8, (s.stage k).y2),
          (9, (BitVec.ofBool (s.stage k).v).setWidth 64)] : List (Nat × Word)),
        exec (.regRd (stageAddr k e.1)) s = .next { s with replies := e.2 :: s.replies }) ∧
    (∀ a : Addr, a.toNat < 0x40000000 → a = 0#32 ∨ ¬ MappedAddr s a →
      exec (.regRd a) s =
        .next { s with
          fault := true
          cause := if s.fault then s.cause else .badAccess
          replies := 0#64 :: s.replies })

/-- R171: a write to a parameter or staging register stores all 64 bits and does nothing else. -/
def Obligations.ParameterWritesStore : Prop :=
  ∀ (s : State) (w : Word), s.fault = false →
    exec (.regWr 0x08#32 w) s = .next { s with params := { s.params with fs := w } } ∧
    exec (.regWr 0x09#32 w) s = .next { s with params := { s.params with f0 := w } } ∧
    exec (.regWr 0x0A#32 w) s = .next { s with params := { s.params with q := w } } ∧
    exec (.regWr 0x0B#32 w) s = .next { s with params := { s.params with gain := w } } ∧
    exec (.regWr 0x10#32 w) s = .next { s with staging := { s.staging with b0 := w } } ∧
    exec (.regWr 0x11#32 w) s = .next { s with staging := { s.staging with b1 := w } } ∧
    exec (.regWr 0x12#32 w) s = .next { s with staging := { s.staging with b2 := w } } ∧
    exec (.regWr 0x13#32 w) s = .next { s with staging := { s.staging with a1 := w } } ∧
    exec (.regWr 0x14#32 w) s = .next { s with staging := { s.staging with a2 := w } }

/-- R178, R171: a write to a read-only register, and a read of the write-only CMD, fault with BAD_ACCESS. -/
def Obligations.AccessRightViolationsFault : Prop :=
  ∀ (s : State) (w : Word), s.fault = false →
    (∀ a ∈ ([0x01#32, 0x03#32, 0x04#32, 0x21#32, 0x22#32] : List Addr), FaultsWith .badAccess (.regWr a w) s) ∧
    (∀ k r, k < s.nstages → k < 65536 → r ≤ 9 → FaultsWith .badAccess (.regWr (stageAddr k r) w) s) ∧
    exec (.regRd 0x00#32) s =
      .next { s with fault := true, cause := .badAccess, replies := 0#64 :: s.replies }

/-- R172: a write to BUFLEN sets the length, or faults with ALLOC above BUFCAP; no word of the buffer changes either way. -/
def Obligations.BufLenWrite : Prop :=
  ∀ (s : State) (w : Word), s.fault = false →
    (w.toNat ≤ s.cfg.bufcap →
      ∃ t, exec (.regWr 0x02#32 w) s = .next t ∧ t.bufLen = w ∧
        SameBuf s t ∧ SameOsc s t ∧ SameStages s t ∧ SameParams s t ∧ SameFault s t ∧ SameHost s t ∧ SameDraws s t) ∧
    (s.cfg.bufcap < w.toNat → FaultsWith .alloc (.regWr 0x02#32 w) s)

/-- R175, R171: a write to CMD performs the one command its word selects, exactly as that command; a word that selects none faults. -/
def Obligations.CmdWriteRunsTheCommand : Prop :=
  ∀ (s : State) (w : Word),
    (∀ i, decodeCmd w = .ok i → exec (.regWr 0x00#32 w) s = exec i s) ∧
    (s.fault = false → NoCommandRow w → FaultsWith .illegalCmd (.regWr 0x00#32 w) s)

/-- R173: a read of a live sample returns the 64 bits stored and changes nothing in the block; an index outside faults, returning 0. -/
def Obligations.BufferReads : Prop :=
  ∀ (s : State) (i : Nat), i < 2 ^ 30 →
    (i < s.bufLen.toNat → exec (.bufRd (bufAddr i)) s = .next { s with replies := s.readBuf i :: s.replies }) ∧
    (s.bufLen.toNat ≤ i →
      exec (.bufRd (bufAddr i)) s =
        .next { s with
          fault := true
          cause := if s.fault then s.cause else .badAccess
          replies := 0#64 :: s.replies })

/-- R174, R70: a write of a live sample stores its 64 bits in that word alone; outside the live buffer it faults; while FAULT = 1 it is
ignored. -/
def Obligations.BufferWrites : Prop :=
  ∀ (s : State) (i : Nat) (w : Word), i < 2 ^ 30 →
    (s.fault = true → exec (.bufWr (bufAddr i) w) s = .next s) ∧
    (s.fault = false → s.bufLen.toNat ≤ i → FaultsWith .badAccess (.bufWr (bufAddr i) w) s) ∧
    (s.fault = false → i < s.bufLen.toNat →
      ∃ t, exec (.bufWr (bufAddr i) w) s = .next t ∧ t.readBuf i = w ∧ (∀ j, j ≠ i → t.readBuf j = s.readBuf j) ∧
        SameOsc s t ∧ SameStages s t ∧ SameParams s t ∧ SameBufLen s t ∧ SameFault s t ∧ SameHost s t ∧ SameDraws s t)

/-- R67: OSC.INIT, OSC.RESET, BQ.LOAD, BQ.RESET, CAS.RESET and the writes to `P_*`, `C_*`, BUFLEN and BUF do twice what they do once; so
do BQ.DESIGN and CAS.BUILD when the design is valid. -/
def Obligations.IdempotentWrites : Prop :=
  ∀ (s : State) (k : BitVec 16) (n : Bool) (a : Addr) (w : Word),
    (∀ i ∈ ([.oscInit, .oscReset, .bqLoad k, .bqReset k, .casReset, .bufWr a w] : List Instr),
      execAll [i, i] s = exec i s) ∧
    (a ≠ 0#32 → execAll [.regWr a w, .regWr a w] s = exec (.regWr a w) s) ∧
    (designValid s.params (if n then Fp.neg s.params.gain else s.params.gain) = true →
      execAll [.bqDesign k n, .bqDesign k n] s = exec (.bqDesign k n) s) ∧
    (designValid s.params s.params.gain = true → designValid s.params (Fp.neg s.params.gain) = true →
      execAll [.casBuild, .casBuild] s = exec .casBuild s)

/-- R65: a sample's bytes are little-endian, byte `j` being bits `8j+7 : 8j`, and no bit is lost. -/
def Obligations.SampleBytesAreLittleEndian : Prop :=
  (∀ (w : Word) (j : Nat), j < 8 → (wordBytes w)[j]? = some (w.extractLsb' (8 * j) 8)) ∧
  (∀ w : Word, (wordBytes w).length = 8) ∧ ∀ v w : Word, wordBytes v = wordBytes w → v = w

/-! ### Numerics -/

/-- Each dotted operation on finite operands with a finite result returns a binary64 nearest to the exact result, in whole units
of `2^-1074` scaled to the operation; at a tie the result's last bit is 0; the result is an infinity exactly when the exact one is at or above
the largest finite value plus half a unit in its last place. This is the default instantiation of R12; that the block's numerics are
the default one is the model's choice (notes/assumptions/4.md). -/
def Obligations.DottedOperatorsRoundToNearest : Prop :=
  ∀ a b y : Word, Fp.isFinite a = true → Fp.isFinite b = true → Fp.isFinite y = true →
    (∀ (r : Word) (exact scale : Int),
      ((r = Fp.add a b ∧ exact = Fp.value a + Fp.value b ∧ scale = 1) ∨
       (r = Fp.sub a b ∧ exact = Fp.value a - Fp.value b ∧ scale = 1) ∨
       (r = Fp.mul a b ∧ exact = Fp.value a * Fp.value b ∧ scale = 2 ^ 1074) ∨
       (r = Fp.div a b ∧ Fp.value b ≠ 0 ∧ exact = Fp.value a * 2 ^ 1074 ∧ scale = Fp.value b)) →
      (Fp.isFinite r = true →
        |Fp.value r * scale - exact| ≤ |Fp.value y * scale - exact| ∧
        (|Fp.value r * scale - exact| = |Fp.value y * scale - exact| → Fp.value y ≠ Fp.value r → r.getLsbD 0 = false)) ∧
      (Fp.isInf r = true ↔ (2 ^ 54 - 1) * 2 ^ 2044 * |scale| ≤ |exact|) ∧
      (Fp.isFinite r = true ∨ Fp.isInf r = true))

/-- A NaN operand, and each invalid operation, gives a NaN, some NaN (R13); no other operation gives one. This is the default
instantiation of R12; that the block's numerics are the default one is the model's choice (notes/assumptions/4.md). -/
def Obligations.NaNResults : Prop :=
  ∀ a b : Word,
    (Fp.isNaN (Fp.add a b) = true ↔
      Fp.isNaN a = true ∨ Fp.isNaN b = true ∨ (Fp.isInf a = true ∧ Fp.isInf b = true ∧ Fp.sign a ≠ Fp.sign b)) ∧
    (Fp.isNaN (Fp.sub a b) = true ↔
      Fp.isNaN a = true ∨ Fp.isNaN b = true ∨ (Fp.isInf a = true ∧ Fp.isInf b = true ∧ Fp.sign a = Fp.sign b)) ∧
    (Fp.isNaN (Fp.mul a b) = true ↔
      Fp.isNaN a = true ∨ Fp.isNaN b = true ∨ (Fp.isInf a = true ∧ Fp.isZero b = true) ∨
        (Fp.isZero a = true ∧ Fp.isInf b = true)) ∧
    (Fp.isNaN (Fp.div a b) = true ↔
      Fp.isNaN a = true ∨ Fp.isNaN b = true ∨ (Fp.isInf a = true ∧ Fp.isInf b = true) ∨
        (Fp.isZero a = true ∧ Fp.isZero b = true))

/-- The sign of a product and of a quotient is the exclusive or of the signs; a sum that is exactly zero is `-0` when both operands
are negative and `+0` otherwise; `fneg` flips the sign and nothing else (R11). The
signs are those of IEEE 754, the default instantiation of R12, which does not write them out; that the block's numerics are the default
one is the model's choice (notes/assumptions/4.md). -/
def Obligations.SignsOfResults : Prop :=
  ∀ a b : Word,
    (Fp.isNaN (Fp.mul a b) = false → Fp.sign (Fp.mul a b) = (Fp.sign a ^^ Fp.sign b)) ∧
    (Fp.isNaN (Fp.div a b) = false → Fp.sign (Fp.div a b) = (Fp.sign a ^^ Fp.sign b)) ∧
    (Fp.isFinite a = true → Fp.isFinite b = true → Fp.value a + Fp.value b = 0 →
      Fp.add a b = if Fp.sign a = true ∧ Fp.sign b = true then 0x8000000000000000#64 else 0#64) ∧
    (Fp.sign (Fp.neg a) = !Fp.sign a ∧ Fp.mag (Fp.neg a) = Fp.mag a ∧ Fp.isNaN (Fp.neg a) = Fp.isNaN a ∧ Fp.neg (Fp.neg a) = a)
end

