-- ==== Sys2Proof/Laws/Decode.lean ====
section
/-!
SUPPORT. Sys2Proof/Laws/Decode.lean: the fields of a laid-out command word, and what the command decoder can answer.
-/
namespace Sys2Proof

/-- Cutting a laid-out word gives its fields back. -/
theorem cmdFields_cmdWord (op : BitVec 8) (n : BitVec 1) (k : BitVec 16) :
    cmdFields (cmdWord op n k) = { zeroHi := 0#32, opcode := op, zeroMid := 0#7, n := n, k := k } := by
  simp only [cmdFields, cmdWord, CmdFields.mk.injEq]
  refine ⟨?_, ?_, ?_, ?_, ?_⟩ <;>
    (ext i hi
     simp only [BitVec.getElem_extractLsb', BitVec.getLsbD_append]
     grind)

/-- A word is its five fields, one after the other. -/
theorem word_of_cmdFields (w : Word) :
    w = (cmdFields w).zeroHi ++ (cmdFields w).opcode ++ (cmdFields w).zeroMid ++ (cmdFields w).n ++ (cmdFields w).k := by
  apply BitVec.eq_of_getLsbD_eq
  intro i hi
  simp only [cmdFields, BitVec.getLsbD_append, BitVec.getLsbD_extractLsb']
  grind

/-- Two words with the same fields are the same word. -/
theorem cmdFields_inj {v w : Word} (h : cmdFields v = cmdFields w) : v = w := by
  rw [word_of_cmdFields v, word_of_cmdFields w, h]

/-- A word whose must-be-zero fields are zero is the laid-out word of its other fields. -/
theorem eq_cmdWord (w : Word) (h1 : (cmdFields w).zeroHi = 0#32) (h2 : (cmdFields w).zeroMid = 0#7) :
    w = cmdWord (cmdFields w).opcode (cmdFields w).n (cmdFields w).k := by
  conv => lhs; rw [word_of_cmdFields w, h1, h2]
  rfl

/-- The command decoder on a laid-out word, by its fields. -/
theorem decodeCmd_cmdWord (op : BitVec 8) (n : BitVec 1) (k : BitVec 16) :
    decodeCmd (cmdWord op n k) =
      let f : CmdFields := { zeroHi := 0#32, opcode := op, zeroMid := 0#7, n := n, k := k }
      if op = 0x01#8 then cmdIf .neither f .oscInit
      else if op = 0x02#8 then cmdIf .neither f .oscReset
      else if op = 0x03#8 then cmdIf .neither f .oscFill
      else if op = 0x10#8 then cmdIf .stageAndSign f (.bqDesign k (n == 1#1))
      else if op = 0x11#8 then cmdIf .stage f (.bqLoad k)
      else if op = 0x12#8 then cmdIf .stage f (.bqReset k)
      else if op = 0x13#8 then cmdIf .stage f (.bqApply k)
      else if op = 0x20#8 then cmdIf .neither f .casBuild
      else if op = 0x21#8 then cmdIf .neither f .casReset
      else if op = 0x22#8 then cmdIf .neither f .casApply
      else .error .illegalCmd := by
  simp only [decodeCmd, cmdFields_cmdWord]

theorem cmdIf_ok {u : CmdUses} {f : CmdFields} {i j : Instr} (h : cmdIf u f i = .ok j) : cmdZerosOk u f = true ∧ i = j := by
  unfold cmdIf at h
  split at h
  · exact ⟨by assumption, by simpa using h⟩
  · simp at h

/-- What the command decoder can answer: one of the ten commands, with the opcode, fields and zeros of its row (R82, R85). -/
theorem decodeCmd_ok {w : Word} {i : Instr} (h : decodeCmd w = .ok i) :
    ((cmdFields w).opcode = 0x01#8 ∧ cmdZerosOk .neither (cmdFields w) ∧ i = .oscInit) ∨
    ((cmdFields w).opcode = 0x02#8 ∧ cmdZerosOk .neither (cmdFields w) ∧ i = .oscReset) ∨
    ((cmdFields w).opcode = 0x03#8 ∧ cmdZerosOk .neither (cmdFields w) ∧ i = .oscFill) ∨
    ((cmdFields w).opcode = 0x10#8 ∧ cmdZerosOk .stageAndSign (cmdFields w) ∧
      i = .bqDesign (cmdFields w).k ((cmdFields w).n == 1#1)) ∨
    ((cmdFields w).opcode = 0x11#8 ∧ cmdZerosOk .stage (cmdFields w) ∧ i = .bqLoad (cmdFields w).k) ∨
    ((cmdFields w).opcode = 0x12#8 ∧ cmdZerosOk .stage (cmdFields w) ∧ i = .bqReset (cmdFields w).k) ∨
    ((cmdFields w).opcode = 0x13#8 ∧ cmdZerosOk .stage (cmdFields w) ∧ i = .bqApply (cmdFields w).k) ∨
    ((cmdFields w).opcode = 0x20#8 ∧ cmdZerosOk .neither (cmdFields w) ∧ i = .casBuild) ∨
    ((cmdFields w).opcode = 0x21#8 ∧ cmdZerosOk .neither (cmdFields w) ∧ i = .casReset) ∨
    ((cmdFields w).opcode = 0x22#8 ∧ cmdZerosOk .neither (cmdFields w) ∧ i = .casApply) := by
  unfold decodeCmd at h
  dsimp only at h
  repeat' split at h
  all_goals first
    | (obtain ⟨hz, rfl⟩ := cmdIf_ok h; simp [*])
    | simp at h

/-- The command decoder never answers a bus operation. -/
theorem decodeCmd_isCommand {w : Word} {i : Instr} (h : decodeCmd w = .ok i) :
    (∀ a, i ≠ .regRd a) ∧ (∀ a v, i ≠ .regWr a v) ∧ (∀ a, i ≠ .bufRd a) ∧ (∀ a v, i ≠ .bufWr a v) := by
  rcases decodeCmd_ok h with h | h | h | h | h | h | h | h | h | h <;> obtain ⟨-, -, rfl⟩ := h <;> simp

/-- The command decoder's only rejection is the illegal command (R86). -/
theorem decodeCmd_error {w : Word} {r : Reject} (h : decodeCmd w = .error r) : r = .illegalCmd := by
  unfold decodeCmd cmdIf at h
  dsimp only at h
  repeat' split at h
  all_goals simp_all

end Sys2Proof
end

