-- ==== Sys2Proof/Laws/State.lean ====
section
/-!
SUPPORT. Sys2Proof/Laws/State.lean: one lemma per field per named update of State, so that no later proof unfolds a record update.
-/
namespace Sys2Proof.Machine

/-! ### setOsc -/

@[simp] theorem State.setOsc_cfg (s : State) (o : Osc) : (s.setOsc o).cfg = s.cfg := rfl
@[simp] theorem State.setOsc_osc (s : State) (o : Osc) : (s.setOsc o).osc = o := rfl
@[simp] theorem State.setOsc_stages (s : State) (o : Osc) : (s.setOsc o).stages = s.stages := rfl
@[simp] theorem State.setOsc_params (s : State) (o : Osc) : (s.setOsc o).params = s.params := rfl
@[simp] theorem State.setOsc_staging (s : State) (o : Osc) : (s.setOsc o).staging = s.staging := rfl
@[simp] theorem State.setOsc_bufLen (s : State) (o : Osc) : (s.setOsc o).bufLen = s.bufLen := rfl
@[simp] theorem State.setOsc_buf (s : State) (o : Osc) : (s.setOsc o).buf = s.buf := rfl
@[simp] theorem State.setOsc_fault (s : State) (o : Osc) : (s.setOsc o).fault = s.fault := rfl
@[simp] theorem State.setOsc_cause (s : State) (o : Osc) : (s.setOsc o).cause = s.cause := rfl
@[simp] theorem State.setOsc_pending (s : State) (o : Osc) : (s.setOsc o).pending = s.pending := rfl
@[simp] theorem State.setOsc_replies (s : State) (o : Osc) : (s.setOsc o).replies = s.replies := rfl
@[simp] theorem State.setOsc_draws (s : State) (o : Osc) : (s.setOsc o).draws = s.draws := rfl
@[simp] theorem State.setOsc_epoch (s : State) (o : Osc) : (s.setOsc o).epoch = s.epoch := rfl

/-! ### setStage -/

@[simp] theorem State.setStage_cfg (s : State) (k : Nat) (st : Stage) : (s.setStage k st).cfg = s.cfg := rfl
@[simp] theorem State.setStage_osc (s : State) (k : Nat) (st : Stage) : (s.setStage k st).osc = s.osc := rfl
@[simp] theorem State.setStage_stages (s : State) (k : Nat) (st : Stage) : (s.setStage k st).stages = s.stages.set k st := rfl
@[simp] theorem State.setStage_params (s : State) (k : Nat) (st : Stage) : (s.setStage k st).params = s.params := rfl
@[simp] theorem State.setStage_staging (s : State) (k : Nat) (st : Stage) : (s.setStage k st).staging = s.staging := rfl
@[simp] theorem State.setStage_bufLen (s : State) (k : Nat) (st : Stage) : (s.setStage k st).bufLen = s.bufLen := rfl
@[simp] theorem State.setStage_buf (s : State) (k : Nat) (st : Stage) : (s.setStage k st).buf = s.buf := rfl
@[simp] theorem State.setStage_fault (s : State) (k : Nat) (st : Stage) : (s.setStage k st).fault = s.fault := rfl
@[simp] theorem State.setStage_cause (s : State) (k : Nat) (st : Stage) : (s.setStage k st).cause = s.cause := rfl
@[simp] theorem State.setStage_pending (s : State) (k : Nat) (st : Stage) : (s.setStage k st).pending = s.pending := rfl
@[simp] theorem State.setStage_replies (s : State) (k : Nat) (st : Stage) : (s.setStage k st).replies = s.replies := rfl
@[simp] theorem State.setStage_draws (s : State) (k : Nat) (st : Stage) : (s.setStage k st).draws = s.draws := rfl
@[simp] theorem State.setStage_epoch (s : State) (k : Nat) (st : Stage) : (s.setStage k st).epoch = s.epoch := rfl

/-! ### writeBuf -/

@[simp] theorem State.writeBuf_cfg (s : State) (i : Nat) (w : Word) : (s.writeBuf i w).cfg = s.cfg := rfl
@[simp] theorem State.writeBuf_osc (s : State) (i : Nat) (w : Word) : (s.writeBuf i w).osc = s.osc := rfl
@[simp] theorem State.writeBuf_stages (s : State) (i : Nat) (w : Word) : (s.writeBuf i w).stages = s.stages := rfl
@[simp] theorem State.writeBuf_params (s : State) (i : Nat) (w : Word) : (s.writeBuf i w).params = s.params := rfl
@[simp] theorem State.writeBuf_staging (s : State) (i : Nat) (w : Word) : (s.writeBuf i w).staging = s.staging := rfl
@[simp] theorem State.writeBuf_bufLen (s : State) (i : Nat) (w : Word) : (s.writeBuf i w).bufLen = s.bufLen := rfl
@[simp] theorem State.writeBuf_buf (s : State) (i : Nat) (w : Word) : (s.writeBuf i w).buf = s.buf.write i w := rfl
@[simp] theorem State.writeBuf_fault (s : State) (i : Nat) (w : Word) : (s.writeBuf i w).fault = s.fault := rfl
@[simp] theorem State.writeBuf_cause (s : State) (i : Nat) (w : Word) : (s.writeBuf i w).cause = s.cause := rfl
@[simp] theorem State.writeBuf_pending (s : State) (i : Nat) (w : Word) : (s.writeBuf i w).pending = s.pending := rfl
@[simp] theorem State.writeBuf_replies (s : State) (i : Nat) (w : Word) : (s.writeBuf i w).replies = s.replies := rfl
@[simp] theorem State.writeBuf_draws (s : State) (i : Nat) (w : Word) : (s.writeBuf i w).draws = s.draws := rfl
@[simp] theorem State.writeBuf_epoch (s : State) (i : Nat) (w : Word) : (s.writeBuf i w).epoch = s.epoch := rfl

/-! ### reply -/

@[simp] theorem State.reply_cfg (s : State) (w : Word) : (s.reply w).cfg = s.cfg := rfl
@[simp] theorem State.reply_osc (s : State) (w : Word) : (s.reply w).osc = s.osc := rfl
@[simp] theorem State.reply_stages (s : State) (w : Word) : (s.reply w).stages = s.stages := rfl
@[simp] theorem State.reply_params (s : State) (w : Word) : (s.reply w).params = s.params := rfl
@[simp] theorem State.reply_staging (s : State) (w : Word) : (s.reply w).staging = s.staging := rfl
@[simp] theorem State.reply_bufLen (s : State) (w : Word) : (s.reply w).bufLen = s.bufLen := rfl
@[simp] theorem State.reply_buf (s : State) (w : Word) : (s.reply w).buf = s.buf := rfl
@[simp] theorem State.reply_fault (s : State) (w : Word) : (s.reply w).fault = s.fault := rfl
@[simp] theorem State.reply_cause (s : State) (w : Word) : (s.reply w).cause = s.cause := rfl
@[simp] theorem State.reply_pending (s : State) (w : Word) : (s.reply w).pending = s.pending := rfl
@[simp] theorem State.reply_replies (s : State) (w : Word) : (s.reply w).replies = w :: s.replies := rfl
@[simp] theorem State.reply_draws (s : State) (w : Word) : (s.reply w).draws = s.draws := rfl
@[simp] theorem State.reply_epoch (s : State) (w : Word) : (s.reply w).epoch = s.epoch := rfl

/-! ### raise: only FAULT and CAUSE, and only the first fault (R193) -/

@[simp] theorem State.raise_cfg (s : State) (c : Cause) : (s.raise c).cfg = s.cfg := by
  unfold State.raise; split <;> rfl
@[simp] theorem State.raise_osc (s : State) (c : Cause) : (s.raise c).osc = s.osc := by
  unfold State.raise; split <;> rfl
@[simp] theorem State.raise_stages (s : State) (c : Cause) : (s.raise c).stages = s.stages := by
  unfold State.raise; split <;> rfl
@[simp] theorem State.raise_params (s : State) (c : Cause) : (s.raise c).params = s.params := by
  unfold State.raise; split <;> rfl
@[simp] theorem State.raise_staging (s : State) (c : Cause) : (s.raise c).staging = s.staging := by
  unfold State.raise; split <;> rfl
@[simp] theorem State.raise_bufLen (s : State) (c : Cause) : (s.raise c).bufLen = s.bufLen := by
  unfold State.raise; split <;> rfl
@[simp] theorem State.raise_buf (s : State) (c : Cause) : (s.raise c).buf = s.buf := by
  unfold State.raise; split <;> rfl
@[simp] theorem State.raise_pending (s : State) (c : Cause) : (s.raise c).pending = s.pending := by
  unfold State.raise; split <;> rfl
@[simp] theorem State.raise_replies (s : State) (c : Cause) : (s.raise c).replies = s.replies := by
  unfold State.raise; split <;> rfl
@[simp] theorem State.raise_draws (s : State) (c : Cause) : (s.raise c).draws = s.draws := by
  unfold State.raise; split <;> rfl
@[simp] theorem State.raise_epoch (s : State) (c : Cause) : (s.raise c).epoch = s.epoch := by
  unfold State.raise; split <;> rfl

@[simp] theorem State.raise_fault (s : State) (c : Cause) : (s.raise c).fault = true := by
  unfold State.raise; split <;> simp [*]

@[simp] theorem State.raise_cause (s : State) (c : Cause) :
    (s.raise c).cause = if s.fault then s.cause else c := by
  unfold State.raise; split <;> rfl

/-! ### replyFault -/

@[simp] theorem State.replyFault_cfg (s : State) : s.replyFault.cfg = s.cfg := by
  simp [State.replyFault]
@[simp] theorem State.replyFault_osc (s : State) : s.replyFault.osc = s.osc := by
  simp [State.replyFault]
@[simp] theorem State.replyFault_stages (s : State) : s.replyFault.stages = s.stages := by
  simp [State.replyFault]
@[simp] theorem State.replyFault_params (s : State) : s.replyFault.params = s.params := by
  simp [State.replyFault]
@[simp] theorem State.replyFault_staging (s : State) : s.replyFault.staging = s.staging := by
  simp [State.replyFault]
@[simp] theorem State.replyFault_bufLen (s : State) : s.replyFault.bufLen = s.bufLen := by
  simp [State.replyFault]
@[simp] theorem State.replyFault_buf (s : State) : s.replyFault.buf = s.buf := by
  simp [State.replyFault]
@[simp] theorem State.replyFault_fault (s : State) : s.replyFault.fault = true := by
  simp [State.replyFault]
@[simp] theorem State.replyFault_cause (s : State) : s.replyFault.cause = if s.fault then s.cause else .badAccess := by
  simp [State.replyFault]
@[simp] theorem State.replyFault_pending (s : State) : s.replyFault.pending = s.pending := by
  simp [State.replyFault]
@[simp] theorem State.replyFault_replies (s : State) : s.replyFault.replies = 0#64 :: s.replies := by
  simp [State.replyFault]
@[simp] theorem State.replyFault_draws (s : State) : s.replyFault.draws = s.draws := by
  simp [State.replyFault]
@[simp] theorem State.replyFault_epoch (s : State) : s.replyFault.epoch = s.epoch := by
  simp [State.replyFault]

/-! ### designStage and applyStage -/

@[simp] theorem State.designStage_cfg (s : State) (k : Nat) (n : Bool) :
    (s.designStage k n).cfg = s.cfg := rfl
@[simp] theorem State.designStage_osc (s : State) (k : Nat) (n : Bool) :
    (s.designStage k n).osc = s.osc := rfl
@[simp] theorem State.designStage_stages (s : State) (k : Nat) (n : Bool) :
    (s.designStage k n).stages = s.stages.set k (Stage.built (s.designCoefs n)) := rfl
@[simp] theorem State.designStage_params (s : State) (k : Nat) (n : Bool) :
    (s.designStage k n).params = s.params := rfl
@[simp] theorem State.designStage_staging (s : State) (k : Nat) (n : Bool) :
    (s.designStage k n).staging = s.staging := rfl
@[simp] theorem State.designStage_bufLen (s : State) (k : Nat) (n : Bool) :
    (s.designStage k n).bufLen = s.bufLen := rfl
@[simp] theorem State.designStage_buf (s : State) (k : Nat) (n : Bool) :
    (s.designStage k n).buf = s.buf := rfl
@[simp] theorem State.designStage_fault (s : State) (k : Nat) (n : Bool) :
    (s.designStage k n).fault = s.fault := rfl
@[simp] theorem State.designStage_cause (s : State) (k : Nat) (n : Bool) :
    (s.designStage k n).cause = s.cause := rfl
@[simp] theorem State.designStage_pending (s : State) (k : Nat) (n : Bool) :
    (s.designStage k n).pending = s.pending := rfl
@[simp] theorem State.designStage_replies (s : State) (k : Nat) (n : Bool) :
    (s.designStage k n).replies = s.replies := rfl
@[simp] theorem State.designStage_draws (s : State) (k : Nat) (n : Bool) :
    (s.designStage k n).draws = s.designDraws n := by
  simp only [State.designStage]
@[simp] theorem State.designStage_epoch (s : State) (k : Nat) (n : Bool) :
    (s.designStage k n).epoch = s.epoch := rfl

@[simp] theorem State.applyStage_cfg (s : State) (k : Nat) :
    (s.applyStage k).cfg = s.cfg := rfl
@[simp] theorem State.applyStage_osc (s : State) (k : Nat) :
    (s.applyStage k).osc = s.osc := rfl
@[simp] theorem State.applyStage_stages (s : State) (k : Nat) :
    (s.applyStage k).stages = s.stages.set k (applyFrom s.epoch s.bufLen.toNat 0 (s.stage k) s.buf).1 := rfl
@[simp] theorem State.applyStage_params (s : State) (k : Nat) :
    (s.applyStage k).params = s.params := rfl
@[simp] theorem State.applyStage_staging (s : State) (k : Nat) :
    (s.applyStage k).staging = s.staging := rfl
@[simp] theorem State.applyStage_bufLen (s : State) (k : Nat) :
    (s.applyStage k).bufLen = s.bufLen := rfl
@[simp] theorem State.applyStage_buf (s : State) (k : Nat) :
    (s.applyStage k).buf = (applyFrom s.epoch s.bufLen.toNat 0 (s.stage k) s.buf).2 := rfl
@[simp] theorem State.applyStage_fault (s : State) (k : Nat) :
    (s.applyStage k).fault = s.fault := rfl
@[simp] theorem State.applyStage_cause (s : State) (k : Nat) :
    (s.applyStage k).cause = s.cause := rfl
@[simp] theorem State.applyStage_pending (s : State) (k : Nat) :
    (s.applyStage k).pending = s.pending := rfl
@[simp] theorem State.applyStage_replies (s : State) (k : Nat) :
    (s.applyStage k).replies = s.replies := rfl
@[simp] theorem State.applyStage_draws (s : State) (k : Nat) :
    (s.applyStage k).draws = s.draws := rfl
@[simp] theorem State.applyStage_epoch (s : State) (k : Nat) :
    (s.applyStage k).epoch = s.epoch := rfl

/-! ### Stages behind an update -/

@[simp] theorem State.setStage_nstages (s : State) (k : Nat) (st : Stage) : (s.setStage k st).nstages = s.nstages := by
  simp [State.nstages]

@[simp] theorem State.designStage_nstages (s : State) (k : Nat) (n : Bool) : (s.designStage k n).nstages = s.nstages := by
  simp [State.nstages]

@[simp] theorem State.applyStage_nstages (s : State) (k : Nat) : (s.applyStage k).nstages = s.nstages := by
  simp [State.nstages]

/-- What an entry of the stage file reads as after one entry is replaced. -/
theorem getD_set_stage (l : List Stage) (k j : Nat) (st d : Stage) :
    (l.set k st).getD j d = if k = j ∧ k < l.length then st else l.getD j d := by
  simp only [List.getD_eq_getElem?_getD, List.getElem?_set]
  by_cases h : k = j
  · subst h
    by_cases hk : k < l.length <;> simp [hk]
  · simp [h]

theorem State.stage_setStage (s : State) (k j : Nat) (st : Stage) :
    (s.setStage k st).stage j = if k = j ∧ k < s.nstages then st else s.stage j :=
  getD_set_stage _ _ _ _ _

theorem State.stage_setStage_self (s : State) (k : Nat) (st : Stage) (h : k < s.nstages) :
    (s.setStage k st).stage k = st := by
  simp [State.stage_setStage, h]

theorem State.stage_setStage_ne (s : State) (k j : Nat) (st : Stage) (h : j ≠ k) :
    (s.setStage k st).stage j = s.stage j := by
  simp [State.stage_setStage, h.symm]

/-- A stage read at an index of the file is an entry of the file. -/
theorem State.stage_mem (s : State) (k : Nat) (h : k < s.nstages) : s.stage k ∈ s.stages := by
  unfold State.stage
  rw [List.getD_eq_getElem _ _ h]
  exact List.getElem_mem _

/-- Two stage files of one length that read alike are equal. -/
theorem stages_ext {s t : State} (hn : t.nstages = s.nstages) (h : ∀ k, k < s.nstages → t.stage k = s.stage k) :
    t.stages = s.stages := by
  apply List.ext_getElem hn
  intro k h1 h2
  have := h k h2
  unfold State.stage at this
  rwa [List.getD_eq_getElem _ _ h1, List.getD_eq_getElem _ _ h2] at this

/-! ### Taking an event off the host's list -/

theorem State.fetch_cons (s : State) (e : HostEvent) (rest : List HostEvent) (h : s.pending = e :: rest) :
    s.fetch = some (e, { s with pending := rest }) := by
  simp [State.fetch, h]

theorem State.fetch_nil (s : State) (h : s.pending = []) : s.fetch = none := by
  simp [State.fetch, h]

end Sys2Proof.Machine
end

