-- ==== Sys2Proof/Laws/Memory.lean ====
section
/-!
SUPPORT. Sys2Proof/Laws/Memory.lean: the laws of the buffer memory: a read after a write, and that a write keeps the canonical form.
-/
namespace Sys2Proof.Machine

theorem Memory.lookup_write (i j : Nat) (w : Word) (m : Memory) :
    (m.write i w).lookup j = if j = i then some w else m.lookup j := by
  induction m with
  | nil => simp [Memory.write, Memory.lookup]
  | cons e m ih =>
    obtain ⟨a, x⟩ := e
    simp only [Memory.write]
    split
    · simp [Memory.lookup]
    · split
      · subst_vars
        by_cases h : j = a <;> simp [Memory.lookup, h]
      · simp only [Memory.lookup, ih]
        by_cases h : j = a
        · subst h; simp_all [eq_comm]
        · simp [h]

@[simp] theorem Memory.lookup_write_self (i : Nat) (w : Word) (m : Memory) : (m.write i w).lookup i = some w := by
  simp [Memory.lookup_write]

theorem Memory.lookup_write_ne {i j : Nat} (w : Word) (m : Memory) (h : j ≠ i) : (m.write i w).lookup j = m.lookup j := by
  simp [Memory.lookup_write, h]

theorem Memory.read_write (e i j : Nat) (w : Word) (m : Memory) :
    (m.write i w).read e j = if j = i then w else m.read e j := by
  by_cases h : j = i <;> simp [Memory.read, Memory.lookup_write, h]

theorem State.readBuf_writeBuf (s : State) (i j : Nat) (w : Word) :
    (s.writeBuf i w).readBuf j = if j = i then w else s.readBuf j :=
  Memory.read_write _ _ _ _ _

/-- Writing one index twice is writing it once. -/
theorem Memory.write_write (i : Nat) (v w : Word) (m : Memory) : (m.write i v).write i w = m.write i w := by
  induction m with
  | nil => simp [Memory.write]
  | cons e m ih =>
    obtain ⟨a, x⟩ := e
    by_cases h1 : i < a
    · simp [Memory.write, h1]
    · by_cases h2 : i = a <;> simp [Memory.write, h1, h2, ih]

theorem Memory.risesFrom_write (a i : Nat) (w : Word) (m : Memory) (ha : a < i) (h : m.risesFrom a = true) :
    (m.write i w).risesFrom a = true := by
  induction m generalizing a with
  | nil => simp [Memory.write, Memory.risesFrom, ha]
  | cons e m ih =>
    obtain ⟨b, x⟩ := e
    simp only [Memory.risesFrom, Bool.and_eq_true, decide_eq_true_eq] at h
    simp only [Memory.write]
    split
    · simp [Memory.risesFrom, h.2, *]
    · split
      · subst_vars; simp [Memory.risesFrom, ha, h.2]
      · simp only [Memory.risesFrom, Bool.and_eq_true, decide_eq_true_eq]
        exact ⟨h.1, ih b (by omega) h.2⟩

/-- Every write keeps the canonical form. -/
theorem Memory.wf_write (i : Nat) (w : Word) (m : Memory) (h : m.wf = true) : (m.write i w).wf = true := by
  cases m with
  | nil => rfl
  | cons e m =>
    obtain ⟨b, x⟩ := e
    simp only [Memory.wf] at h
    simp only [Memory.write]
    split
    · simp [Memory.wf, Memory.risesFrom, *]
    · split
      · subst_vars; simpa [Memory.wf] using h
      · simpa [Memory.wf] using Memory.risesFrom_write b i w m (by omega) h

/-- Every write inside the storage keeps the list inside it. -/
theorem Memory.below_write (n i : Nat) (w : Word) (m : Memory) (hi : i < n) (h : m.below n = true) :
    (m.write i w).below n = true := by
  induction m with
  | nil => simp [Memory.write, Memory.below, hi]
  | cons e m ih =>
    obtain ⟨b, x⟩ := e
    simp only [Memory.below, List.all_cons, Bool.and_eq_true, decide_eq_true_eq] at h ih ⊢
    simp only [Memory.write]
    split
    · simp [hi, h.1, h.2]
    · split
      · simp [hi, h.2]
      · simp only [List.all_cons, Bool.and_eq_true, decide_eq_true_eq]
        exact ⟨h.1, ih h.2⟩

/-- An index below every listed one is not listed. -/
theorem Memory.lookup_of_rises (a i : Nat) (m : Memory) (h : m.risesFrom a = true) (hi : i ≤ a) : m.lookup i = none := by
  induction m generalizing a with
  | nil => rfl
  | cons e m ih =>
    obtain ⟨b, x⟩ := e
    simp only [Memory.risesFrom, Bool.and_eq_true, decide_eq_true_eq] at h
    rw [Memory.lookup, if_neg (by omega)]
    exact ih b h.2 (by omega)

theorem Memory.wf_of_rises (a : Nat) (m : Memory) (h : m.risesFrom a = true) : m.wf = true := by
  cases m with
  | nil => rfl
  | cons e m =>
    simp only [Memory.risesFrom, Bool.and_eq_true] at h
    exact h.2

/-- Two memories in canonical form that hold the same words are the same list. -/
theorem Memory.ext (m m' : Memory) (h : m.wf = true) (h' : m'.wf = true) (he : ∀ i, m.lookup i = m'.lookup i) : m = m' := by
  induction m generalizing m' with
  | nil =>
    cases m' with
    | nil => rfl
    | cons e m' => have := he e.1; simp [Memory.lookup] at this
  | cons e m ih =>
    obtain ⟨b, x⟩ := e
    cases m' with
    | nil => have := he b; simp [Memory.lookup] at this
    | cons e' m' =>
      obtain ⟨b', x'⟩ := e'
      simp only [Memory.wf] at h h'
      have hb : b = b' := by
        by_contra hne
        rcases Nat.lt_or_gt_of_ne hne with hlt | hlt
        · have := he b
          rw [Memory.lookup, if_pos rfl, Memory.lookup, if_neg hne,
            Memory.lookup_of_rises b' b m' h' (by omega)] at this
          exact absurd this (by simp)
        · have := he b'
          rw [Memory.lookup, if_neg (Ne.symm hne), Memory.lookup, if_pos rfl,
            Memory.lookup_of_rises b b' m h (by omega)] at this
          exact absurd this (by simp)
      subst hb
      have hx : x = x' := by simpa [Memory.lookup] using he b
      subst hx
      congr 1
      refine ih m' (Memory.wf_of_rises _ _ h) (Memory.wf_of_rises _ _ h') fun i => ?_
      by_cases hi : i = b
      · subst hi
        rw [Memory.lookup_of_rises i i m h (Nat.le_refl _), Memory.lookup_of_rises i i m' h' (Nat.le_refl _)]
      · simpa [Memory.lookup, hi] using he i

end Sys2Proof.Machine
end

