-- ==== Sys2Proof/Laws/Loops.lean ====
section
/-!
SUPPORT. Sys2Proof/Laws/Loops.lean: what the loops of OSC.FILL, BQ.APPLY, CAS.BUILD and CAS.APPLY do, once each.
-/
namespace Sys2Proof.Machine

/-! ### The oscillator's loop -/

/-- The oscillator after `n` samples. -/
def oscAfter : Nat → Osc → Osc
  | 0, o => o
  | n + 1, o => oscAfter n (oscStep o).2

theorem oscAfter_add (m n : Nat) (o : Osc) : oscAfter (m + n) o = oscAfter n (oscAfter m o) := by
  induction m generalizing o with
  | zero => simp [oscAfter]
  | succ m ih => rw [Nat.succ_add]; exact ih _

theorem oscAfter_succ (n : Nat) (o : Osc) : oscAfter (n + 1) o = (oscStep (oscAfter n o)).2 := by
  rw [oscAfter_add]; rfl

@[simp] theorem oscAfter_h (n : Nat) (o : Osc) : (oscAfter n o).h = o.h := by
  induction n generalizing o with
  | zero => rfl
  | succ n ih => rw [oscAfter, ih]; simp only [oscStep, Osc.turn]; split <;> rfl

@[simp] theorem oscAfter_v (n : Nat) (o : Osc) : (oscAfter n o).v = o.v := by
  induction n generalizing o with
  | zero => rfl
  | succ n ih => rw [oscAfter, ih]; simp only [oscStep, Osc.turn]; split <;> rfl

theorem fillFrom_osc (n i : Nat) (o : Osc) (m : Memory) : (fillFrom n i o m).1 = oscAfter n o := by
  induction n generalizing i o m with
  | zero => rfl
  | succ n ih => exact ih _ _ _

theorem fillFrom_lookup (n i : Nat) (o : Osc) (m : Memory) (j : Nat) :
    (fillFrom n i o m).2.lookup j =
      if i ≤ j ∧ j < i + n then some (oscStep (oscAfter (j - i) o)).1 else m.lookup j := by
  induction n generalizing i o m with
  | zero => simp only [fillFrom]; rw [if_neg (by omega)]
  | succ n ih =>
    simp only [fillFrom, ih, Memory.lookup_write]
    rcases Nat.lt_trichotomy j i with h | h | h
    · rw [if_neg (by omega), if_neg (by omega), if_neg (by omega)]
    · subst h; simp [oscAfter]
    · by_cases h2 : j < i + 1 + n
      · have : j - i = (j - (i + 1)) + 1 := by omega
        rw [if_pos (by omega), if_pos (by omega), this, oscAfter]
      · rw [if_neg (by omega), if_neg (by omega), if_neg (by omega)]

theorem fillFrom_wf (n i : Nat) (o : Osc) (m : Memory) (h : m.wf = true) : (fillFrom n i o m).2.wf = true := by
  induction n generalizing i o m with
  | zero => exact h
  | succ n ih => exact ih _ _ _ (Memory.wf_write _ _ _ h)

theorem fillFrom_below (c n i : Nat) (o : Osc) (m : Memory) (hn : i + n ≤ c) (h : m.below c = true) :
    (fillFrom n i o m).2.below c = true := by
  induction n generalizing i o m with
  | zero => exact h
  | succ n ih => exact ih _ _ _ (by omega) (Memory.below_write _ _ _ _ (by omega) h)

/-! ### The biquad's loop -/

/-- A stage after the first `n` samples of a stream. -/
def bqAfter (x : Nat → Word) : Nat → Stage → Stage
  | 0, st => st
  | n + 1, st => (bqStep (bqAfter x n st) (x n)).2

/-- The `n`-th output of a stage on a stream. -/
def bqOut (x : Nat → Word) (st : Stage) (n : Nat) : Word := bqOutput (bqAfter x n st) (x n)

@[simp] theorem bqAfter_c (x : Nat → Word) (n : Nat) (st : Stage) : (bqAfter x n st).c = st.c := by
  induction n with
  | zero => rfl
  | succ n ih => exact ih

@[simp] theorem bqAfter_v (x : Nat → Word) (n : Nat) (st : Stage) : (bqAfter x n st).v = st.v := by
  induction n with
  | zero => rfl
  | succ n ih => exact ih

theorem bqAfter_shift (x : Nat → Word) (n : Nat) (st : Stage) :
    bqAfter x (n + 1) st = bqAfter (fun j => x (j + 1)) n (bqStep st (x 0)).2 := by
  induction n with
  | zero => rfl
  | succ n ih => rw [bqAfter, ih]; rfl

theorem bqAfter_congr (x y : Nat → Word) (n : Nat) (st : Stage) (h : ∀ j, j < n → x j = y j) :
    bqAfter x n st = bqAfter y n st := by
  induction n with
  | zero => rfl
  | succ n ih => rw [bqAfter, bqAfter, ih fun j hj => h j (by omega), h n (by omega)]

theorem applyFrom_stage (e n i : Nat) (st : Stage) (m : Memory) :
    (applyFrom e n i st m).1 = bqAfter (fun j => m.read e (i + j)) n st := by
  induction n generalizing i st m with
  | zero => rfl
  | succ n ih =>
    simp only [applyFrom, ih, bqAfter_shift]
    rw [Nat.add_zero]
    refine bqAfter_congr _ _ _ _ fun j _ => ?_
    rw [Memory.read_write, if_neg (by omega)]
    congr 1; omega

theorem applyFrom_lookup (e n i : Nat) (st : Stage) (m : Memory) (j : Nat) :
    (applyFrom e n i st m).2.lookup j =
      if i ≤ j ∧ j < i + n then some (bqOut (fun j => m.read e (i + j)) st (j - i)) else m.lookup j := by
  induction n generalizing i st m with
  | zero => simp only [applyFrom]; rw [if_neg (by omega)]
  | succ n ih =>
    simp only [applyFrom, ih, Memory.lookup_write]
    rcases Nat.lt_trichotomy j i with h | h | h
    · rw [if_neg (by omega), if_neg (by omega), if_neg (by omega)]
    · subst h; simp [bqOut, bqAfter, bqStep]
    · by_cases h2 : j < i + 1 + n
      · obtain ⟨d, rfl⟩ : ∃ d, j = i + 1 + d := ⟨j - (i + 1), by omega⟩
        rw [if_pos (by omega), if_pos (by omega)]
        have e1 : i + 1 + d - (i + 1) = d := by omega
        have e2 : i + 1 + d - i = d + 1 := by omega
        rw [e1, e2]
        simp only [bqOut, bqAfter_shift]
        have hx : ∀ j, (m.write i (bqStep st (m.read e i)).1).read e (i + 1 + j) = m.read e (i + (j + 1)) := by
          intro j
          rw [Memory.read_write, if_neg (by omega)]
          congr 1; omega
        simp only [hx, Nat.add_zero]
      · rw [if_neg (by omega), if_neg (by omega), if_neg (by omega)]

theorem applyFrom_wf (e n i : Nat) (st : Stage) (m : Memory) (h : m.wf = true) : (applyFrom e n i st m).2.wf = true := by
  induction n generalizing i st m with
  | zero => exact h
  | succ n ih => exact ih _ _ _ (Memory.wf_write _ _ _ h)

theorem applyFrom_below (c e n i : Nat) (st : Stage) (m : Memory) (hn : i + n ≤ c) (h : m.below c = true) :
    (applyFrom e n i st m).2.below c = true := by
  induction n generalizing i st m with
  | zero => exact h
  | succ n ih => exact ih _ _ _ (by omega) (Memory.below_write _ _ _ _ (by omega) h)

/-! ### One pass of a stage, seen in the state -/

theorem State.stage_applyStage (s : State) (k j : Nat) (hk : k < s.nstages) :
    (s.applyStage k).stage j = if j = k then bqAfter s.readBuf s.bufLen.toNat (s.stage k) else s.stage j := by
  have h := State.stage_setStage s k j (applyFrom s.epoch s.bufLen.toNat 0 (s.stage k) s.buf).1
  have e : (s.applyStage k).stage j = (s.setStage k (applyFrom s.epoch s.bufLen.toNat 0 (s.stage k) s.buf).1).stage j := rfl
  rw [e, h, applyFrom_stage]
  by_cases hj : j = k
  · subst hj; simp [hk]; rfl
  · rw [if_neg (by omega), if_neg hj]

theorem State.readBuf_applyStage (s : State) (k j : Nat) :
    (s.applyStage k).readBuf j =
      if j < s.bufLen.toNat then bqOut s.readBuf (s.stage k) j else s.readBuf j := by
  simp only [State.readBuf, Memory.read, State.applyStage_buf, State.applyStage_epoch, applyFrom_lookup]
  by_cases hj : j < s.bufLen.toNat
  · simp [hj]; rfl
  · simp [hj]

/-! ### The loops over the stages change one part of the state only -/

theorem cascadeFrom_succ (n k : Nat) (s : State) : cascadeFrom (n + 1) k s = cascadeFrom n (k + 1) (s.applyStage k) := rfl

theorem cascadeFrom_frame (n k : Nat) (s : State) :
    ∃ st m, cascadeFrom n k s = { s with stages := st, buf := m } ∧ st.length = s.stages.length := by
  induction n generalizing k s with
  | zero => exact ⟨s.stages, s.buf, rfl, rfl⟩
  | succ n ih =>
    obtain ⟨st, m, h, hl⟩ := ih (k + 1) (s.applyStage k)
    exact ⟨st, m, by rw [cascadeFrom_succ, h]; rfl, by simpa using hl⟩

theorem buildFrom_frame (n k : Nat) (s : State) :
    ∃ st d, buildFrom n k s = { s with stages := st, draws := d } ∧ st.length = s.stages.length := by
  induction n generalizing k s with
  | zero => exact ⟨s.stages, s.draws, rfl, rfl⟩
  | succ n ih =>
    obtain ⟨st, d, h, hl⟩ := ih (k + 1) (s.designStage k (k % 2 == 1))
    exact ⟨st, d, by rw [buildFrom, h]; rfl, by simpa using hl⟩

end Sys2Proof.Machine
end

