-- ==== Sys2Proof/Laws/Exec.lean ====
section
/-!
SUPPORT. Sys2Proof/Laws/Exec.lean: what each operation does, as one equation each, and what a step can do: later proofs cite these and do
not unfold the meanings.
-/
namespace Sys2Proof.Machine

/-- The state an operation leaves: no operation stops. -/
def effect : Instr → State → State
  | .oscInit, s => oscInit s
  | .oscReset, s => oscReset s
  | .oscFill, s => oscFill s
  | .bqDesign k n, s => bqDesign k n s
  | .bqLoad k, s => bqLoad k s
  | .bqReset k, s => bqReset k s
  | .bqApply k, s => bqApply k s
  | .casBuild, s => casBuild s
  | .casReset, s => casReset s
  | .casApply, s => casApply s
  | .regRd a, s => regRd a s
  | .regWr a w, s => regWr a w s
  | .bufRd a, s => bufRd a s
  | .bufWr a w, s => bufWr a w s

theorem exec_effect (i : Instr) (s : State) : exec i s = .next (effect i s) := by
  cases i <;> rfl

theorem exec_next {i : Instr} {s t : State} (h : exec i s = .next t) : t = effect i s := by
  rw [exec_effect] at h
  injection h with h
  exact h.symm

/-! ### One equation per operation -/

theorem oscInit_eq (s : State) :
    oscInit s =
      if s.fault then s
      else
        match halfPeriod s.cfg.cntw s.params.fs s.params.f0 with
        | none => s.raise .badParam
        | some h => s.setOsc (Osc.built h) := rfl

theorem oscReset_eq (s : State) : oscReset s = if s.fault then s else s.setOsc s.osc.restart := rfl

theorem oscFill_eq (s : State) :
    oscFill s =
      if s.fault then s
      else if s.osc.v then
        { s with
          osc := oscAfter s.bufLen.toNat s.osc
          buf := (fillFrom s.bufLen.toNat 0 s.osc s.buf).2 }
      else s.raise .unconfigured := by
  rw [← fillFrom_osc s.bufLen.toNat 0 s.osc s.buf]
  rfl

theorem bqDesign_eq (k : BitVec 16) (n : Bool) (s : State) :
    bqDesign k n s =
      if s.fault then s else if k.toNat < s.nstages then s.designStage k.toNat n else s.raise .badStage := rfl

theorem bqLoad_eq (k : BitVec 16) (s : State) :
    bqLoad k s =
      if s.fault then s
      else if k.toNat < s.nstages then s.setStage k.toNat (Stage.built s.staging) else s.raise .badStage := rfl

theorem bqReset_eq (k : BitVec 16) (s : State) :
    bqReset k s =
      if s.fault then s
      else if k.toNat < s.nstages then s.setStage k.toNat (s.stage k.toNat).clear else s.raise .badStage := rfl

theorem bqApply_eq (k : BitVec 16) (s : State) :
    bqApply k s =
      if s.fault then s
      else if k.toNat < s.nstages then
        if (s.stage k.toNat).v then s.applyStage k.toNat else s.raise .unconfigured
      else s.raise .badStage := rfl

theorem casBuild_eq (s : State) : casBuild s = if s.fault then s else buildFrom s.nstages 0 s := rfl

theorem casReset_eq (s : State) :
    casReset s = if s.fault then s else { s with stages := s.stages.map Stage.clear } := rfl

theorem casApply_eq (s : State) :
    casApply s =
      if s.fault then s else if s.allValid then cascadeFrom s.nstages 0 s else s.raise .unconfigured := rfl

theorem regWr_eq (a : Addr) (w : Word) (s : State) :
    regWr a w s =
      if s.fault then s
      else
        match regAt s.nstages a with
        | some r => r.write w s
        | none => s.raise .badAccess := rfl

/-- A write to BUFLEN (R172). -/
theorem regWr_bufLen (w : Word) (s : State) :
    regWr 0x00000002#32 w s =
      if s.fault then s else if s.cfg.bufcap < w.toNat then s.raise .alloc else { s with bufLen := w } := rfl

theorem bufWr_eq (a : Addr) (w : Word) (s : State) :
    bufWr a w s =
      if s.fault then s
      else
        match s.liveIndex a with
        | some i => s.writeBuf i w
        | none => s.raise .badAccess := rfl

theorem rejectTxn_read (a : Addr) (r : Reject) (s : State) : s.rejectTxn (.read a) r = s.replyFault := rfl

theorem rejectTxn_write (a : Addr) (w : Word) (r : Reject) (s : State) :
    s.rejectTxn (.write a w) r =
      if s.fault then s
      else
        match r with
        | .illegalCmd => s.raise .illegalCmd
        | .unmapped => s.raise .badAccess := rfl

/-- A write to CMD has the effect of the command its word encodes, or faults (R175, R86). -/
theorem runCommand_eq (w : Word) (s : State) :
    runCommand w s =
      match decodeCmd w with
      | .ok i => effect i s
      | .error _ => s.raise .illegalCmd := by
  unfold runCommand
  split <;> simp_all [effect]
  all_goals (rename_i h; have := decodeCmd_isCommand h; simp at this)

/-! ### Addresses and valid bits -/

theorem liveIndex_some {s : State} {a : Addr} {i : Nat} (h : s.liveIndex a = some i) :
    i < s.bufLen.toNat ∧ a.region = 1#2 ∧ a.toNat - bufBase = i := by
  simp only [State.liveIndex, bufIndex, Option.filter_eq_some_iff, Option.ite_none_right_eq_some, Option.some.injEq,
    decide_eq_true_eq] at h
  exact ⟨h.2, h.1.1, h.1.2⟩

theorem allValid_iff (s : State) : s.allValid = true ↔ ∀ k, k < s.nstages → (s.stage k).v = true := by
  unfold State.allValid
  rw [List.all_eq_true]
  constructor
  · intro h k hk
    exact h _ (s.stage_mem k hk)
  · intro h x hx
    obtain ⟨k, hk, rfl⟩ := List.getElem_of_mem hx
    have := h k hk
    rwa [State.stage, List.getD_eq_getElem _ _ hk] at this

/-! ### What a step can do -/

theorem step_nil (s : State) (h : s.pending = []) : step s = .next s := by
  simp [step, State.fetch_nil _ h]

theorem step_hardwareReset (s : State) (rest : List HostEvent) (h : s.pending = .hardwareReset :: rest) :
    step s = .next (State.hardwareReset { s with pending := rest }) := by
  rw [step, State.fetch_cons _ _ _ h]

theorem step_bus (s : State) (x : Txn) (rest : List HostEvent) (h : s.pending = .bus x :: rest) :
    step s =
      .next
        (match decode x with
        | .ok i => effect i { s with pending := rest }
        | .error r => State.rejectTxn x r { s with pending := rest }) := by
  rw [step, State.fetch_cons _ _ _ h]
  dsimp only
  cases decode x <;> simp [exec_effect]

/-- A step rests, resets the block, performs an operation, or rejects a transaction. -/
theorem step_cases {s t : State} (h : step s = .next t) :
    (s.pending = [] ∧ t = s) ∨
    (∃ rest, s.pending = .hardwareReset :: rest ∧ t = State.hardwareReset { s with pending := rest }) ∨
    (∃ x rest i, s.pending = .bus x :: rest ∧ decode x = .ok i ∧ t = effect i { s with pending := rest }) ∨
    (∃ x rest r, s.pending = .bus x :: rest ∧ decode x = .error r ∧ t = State.rejectTxn x r { s with pending := rest }) := by
  cases hp : s.pending with
  | nil =>
    rw [step_nil _ hp] at h
    injection h with h
    exact .inl ⟨rfl, h.symm⟩
  | cons e rest =>
    cases e with
    | hardwareReset =>
      rw [step_hardwareReset _ _ hp] at h
      injection h with h
      exact .inr (.inl ⟨rest, rfl, h.symm⟩)
    | bus x =>
      rw [step_bus _ _ _ hp] at h
      injection h with h
      cases hd : decode x with
      | ok i =>
        simp only [hd] at h
        exact .inr (.inr (.inl ⟨x, rest, i, rfl, hd, h.symm⟩))
      | error r =>
        simp only [hd] at h
        exact .inr (.inr (.inr ⟨x, rest, r, rfl, hd, h.symm⟩))

end Sys2Proof.Machine
end

