-- ==== Sys2Proof/Laws/Fp.lean ====
section
/-!
SUPPORT. Sys2Proof/Laws/Fp.lean: the fields of a word made from a sign and bits, of a negated word and of a free NaN, and the class of a rounded
magnitude: what proofs about the arithmetic cite instead of unfolding it.
-/
namespace Sys2Proof.Machine

theorem Fp.expField_eq (w : Word) : Fp.expField w = w.toNat / 2 ^ 52 % 2 ^ 11 := by
  simp [Fp.expField, BitVec.extractLsb'_toNat, Nat.shiftRight_eq_div_pow]

theorem Fp.fraction_eq (w : Word) : Fp.fraction w = w.toNat % 2 ^ 52 := by
  simp [Fp.fraction, BitVec.extractLsb'_toNat]

theorem Fp.sign_eq (w : Word) : Fp.sign w = decide (2 ^ 63 ≤ w.toNat) := by
  have h : w.msb = w.getLsbD 63 := by simp [BitVec.msb_eq_getLsbD_last]
  rw [Fp.sign, ← h, BitVec.msb_eq_decide]

theorem Fp.toNat_pack (s : Bool) (bits : Nat) (h : bits < 2 ^ 63) : (Fp.pack s bits).toNat = s.toNat * 2 ^ 63 + bits := by
  rw [Fp.pack, BitVec.toNat_append, BitVec.toNat_ofNat, Nat.mod_eq_of_lt h, ← Nat.shiftLeft_add_eq_or_of_lt h]
  cases s <;> simp [Nat.shiftLeft_eq]

theorem Fp.sign_pack (s : Bool) (bits : Nat) (h : bits < 2 ^ 63) : Fp.sign (Fp.pack s bits) = s := by
  rw [Fp.sign_eq, Fp.toNat_pack _ _ h]
  cases s
  · simp; omega
  · simp

theorem Fp.expField_pack (s : Bool) (bits : Nat) (h : bits < 2 ^ 63) : Fp.expField (Fp.pack s bits) = bits / 2 ^ 52 := by
  rw [Fp.expField_eq, Fp.toNat_pack _ _ h]
  cases s
  · simp; omega
  · simp; omega

theorem Fp.fraction_pack (s : Bool) (bits : Nat) (h : bits < 2 ^ 63) : Fp.fraction (Fp.pack s bits) = bits % 2 ^ 52 := by
  rw [Fp.fraction_eq, Fp.toNat_pack _ _ h]
  cases s
  · simp
  · simp; omega

theorem Fp.roundMag_le (num den : Nat) : Fp.roundMag num den ≤ 2047 * 2 ^ 52 := Nat.min_le_right _ _

theorem Fp.roundMag_lt (num den : Nat) : Fp.roundMag num den < 2 ^ 63 :=
  Nat.lt_of_le_of_lt (Fp.roundMag_le _ _) (by norm_num)

/-- A rounded magnitude is finite or an infinity, never a NaN (R12). -/
theorem Fp.isNaN_round (s : Bool) (num den : Nat) : Fp.isNaN (Fp.round s num den) = false := by
  have h := Fp.roundMag_le num den
  have hl := Fp.roundMag_lt num den
  simp only [Fp.isNaN, Fp.round, Fp.expField_pack _ _ hl, Fp.fraction_pack _ _ hl, Bool.and_eq_false_imp, beq_iff_eq, bne_eq_false_iff_eq]
  omega

theorem Fp.sign_round (s : Bool) (num den : Nat) : Fp.sign (Fp.round s num den) = s :=
  Fp.sign_pack _ _ (Fp.roundMag_lt _ _)

theorem Fp.isNaN_inf (s : Bool) : Fp.isNaN (Fp.inf s) = false := by
  cases s <;> decide

theorem Fp.isNaN_zero (s : Bool) : Fp.isNaN (Fp.zero s) = false := by
  cases s <;> decide

/-! ### Negation -/

theorem Fp.sign_neg (a : Word) : Fp.sign (Fp.neg a) = !Fp.sign a := by
  simp only [Fp.sign, Fp.neg, BitVec.getLsbD_xor, Word.negZero]
  cases a.getLsbD 63 <;> decide

theorem Fp.expField_neg (a : Word) : Fp.expField (Fp.neg a) = Fp.expField a := by
  have h : (Fp.neg a).extractLsb' 52 11 = a.extractLsb' 52 11 := by
    apply BitVec.eq_of_getLsbD_eq
    intro i hi
    have hz : Word.negZero.getLsbD (52 + i) = false := by interval_cases i <;> decide
    simp [Fp.neg, hz]
  rw [Fp.expField, h, Fp.expField]

theorem Fp.fraction_neg (a : Word) : Fp.fraction (Fp.neg a) = Fp.fraction a := by
  have h : (Fp.neg a).extractLsb' 0 52 = a.extractLsb' 0 52 := by
    apply BitVec.eq_of_getLsbD_eq
    intro i hi
    have hz : Word.negZero.getLsbD i = false := by interval_cases i <;> decide
    simp [Fp.neg, hz]
  rw [Fp.fraction, h, Fp.fraction]

theorem Fp.mag_neg (a : Word) : Fp.mag (Fp.neg a) = Fp.mag a := by
  simp [Fp.mag, Fp.expField_neg, Fp.fraction_neg]

theorem Fp.isNaN_neg (a : Word) : Fp.isNaN (Fp.neg a) = Fp.isNaN a := by
  simp [Fp.isNaN, Fp.expField_neg, Fp.fraction_neg]

theorem Fp.isInf_neg (a : Word) : Fp.isInf (Fp.neg a) = Fp.isInf a := by
  simp [Fp.isInf, Fp.expField_neg, Fp.fraction_neg]

theorem Fp.isFinite_neg (a : Word) : Fp.isFinite (Fp.neg a) = Fp.isFinite a := by
  simp [Fp.isFinite, Fp.expField_neg]

theorem Fp.isZero_neg (a : Word) : Fp.isZero (Fp.neg a) = Fp.isZero a := by
  simp [Fp.isZero, Fp.expField_neg, Fp.fraction_neg]

theorem Fp.value_neg (a : Word) : Fp.value (Fp.neg a) = -Fp.value a := by
  simp only [Fp.value, Fp.sign_neg, Fp.mag_neg]
  cases Fp.sign a <;> simp

theorem Fp.neg_neg (a : Word) : Fp.neg (Fp.neg a) = a := by
  simp [Fp.neg]

/-! ### Free NaNs -/

/-- Whatever the free bits are, the word made from them is a NaN (R13). -/
theorem Fp.isNaN_asNaN (v : Word) : Fp.isNaN (Fp.asNaN v) = true := by
  have hexp : ∀ u : Word, (∀ i, i < 11 → u.getLsbD (52 + i) = true) → Fp.expField u = 2047 := by
    intro u h
    have : u.extractLsb' 52 11 = BitVec.allOnes 11 := by
      apply BitVec.eq_of_getLsbD_eq
      intro i hi
      rw [BitVec.getLsbD_extractLsb', h i hi, BitVec.getLsbD_allOnes]
      simp
    rw [Fp.expField, this]
    rfl
  have hbits : ∀ i, i < 11 → (0x7FF0000000000000#64).getLsbD (52 + i) = true := by
    intro i hi
    interval_cases i <;> decide
  unfold Fp.asNaN
  dsimp only
  split
  · rename_i h0
    have h1 : Fp.expField ((v ||| 0x7FF0000000000000#64) ||| 1#64) = 2047 :=
      hexp _ fun i hi => by simp only [BitVec.getLsbD_or, hbits i hi]; simp
    have h2 : Fp.fraction ((v ||| 0x7FF0000000000000#64) ||| 1#64) ≠ 0 := by
      intro h
      have hb : ((v ||| 0x7FF0000000000000#64) ||| 1#64).extractLsb' 0 52 = 0#52 := by
        apply BitVec.eq_of_toNat_eq
        exact h
      have := congrArg (fun b : BitVec 52 => b.getLsbD 0) hb
      simp at this
    simp [Fp.isNaN, h1, h2]
  · rename_i h0
    have h1 : Fp.expField (v ||| 0x7FF0000000000000#64) = 2047 :=
      hexp _ fun i hi => by simp only [BitVec.getLsbD_or, hbits i hi]; simp
    simp [Fp.isNaN, h1, h0]

theorem Fp.isNaN_nan (op : FpOp) (a b : Word) : Fp.isNaN (Fp.nan op a b) = true := Fp.isNaN_asNaN _

theorem Fp.isFinite_of_isNaN (a : Word) (h : Fp.isNaN a = true) : Fp.isFinite a = false := by
  simp only [Fp.isNaN, Bool.and_eq_true, beq_iff_eq] at h
  simp [Fp.isFinite, h.1]

/-- A NaN operand makes the result a NaN, for each of the four operations (R12). -/
theorem Fp.add_of_isNaN (a b : Word) (h : Fp.isNaN a = true ∨ Fp.isNaN b = true) : Fp.add a b = Fp.nan .add a b := by
  rcases h with h | h <;> simp [Fp.add, h]

theorem Fp.sub_of_isNaN (a b : Word) (h : Fp.isNaN a = true ∨ Fp.isNaN b = true) : Fp.sub a b = Fp.nan .sub a b := by
  rcases h with h | h <;> simp [Fp.sub, h]

theorem Fp.mul_of_isNaN (a b : Word) (h : Fp.isNaN a = true ∨ Fp.isNaN b = true) : Fp.mul a b = Fp.nan .mul a b := by
  rcases h with h | h <;> simp [Fp.mul, h]

theorem Fp.div_of_isNaN (a b : Word) (h : Fp.isNaN a = true ∨ Fp.isNaN b = true) : Fp.div a b = Fp.nan .div a b := by
  rcases h with h | h <;> simp [Fp.div, h]

/-- Every NaN is the word made from itself, so nothing is lost by making NaNs so (R13). -/
theorem Fp.asNaN_of_isNaN (v : Word) (h : Fp.isNaN v = true) : Fp.asNaN v = v := by
  simp only [Fp.isNaN, Bool.and_eq_true, beq_iff_eq, bne_iff_ne] at h
  have hv : v ||| 0x7FF0000000000000#64 = v := by
    apply BitVec.eq_of_getLsbD_eq
    intro i hi
    rw [BitVec.getLsbD_or]
    by_cases hr : 52 ≤ i ∧ i < 63
    · have hx : (v.extractLsb' 52 11) = BitVec.allOnes 11 := by
        apply BitVec.eq_of_toNat_eq
        rw [show (v.extractLsb' 52 11).toNat = 2047 from h.1]
        rfl
      have := congrArg (fun b : BitVec 11 => b.getLsbD (i - 52)) hx
      have e : 52 + (i - 52) = i := by omega
      simp only [BitVec.getLsbD_extractLsb', BitVec.getLsbD_allOnes, e] at this
      have h11 : i - 52 < 11 := by omega
      simp only [h11, decide_true, Bool.true_and] at this
      simp [this]
    · have : (0x7FF0000000000000#64).getLsbD i = false := by
        interval_cases i <;> first | decide | omega
      simp [this]
  unfold Fp.asNaN
  dsimp only
  rw [hv, if_neg h.2]

end Sys2Proof.Machine
end

