-- ==== Sys2Proof/Laws/PerInstr.lean ====
section
/-!
SUPPORT. Sys2Proof/Laws/PerInstr.lean: a fact about every operation as the host issues it, one lemma per constructor: the two reads are
encoded as bus reads and every other operation as a bus write (30_encoding R90, R80).
-/
namespace Sys2Proof

/-- A bus read. -/
def Txn.isRead : Txn → Bool
  | .read _ => true
  | .write _ _ => false

/-- REG.RD and BUF.RD. -/
def Instr.isRead : Instr → Bool
  | .regRd _ => true
  | .bufRd _ => true
  | .oscInit => false
  | .oscReset => false
  | .oscFill => false
  | .bqDesign _ _ => false
  | .bqLoad _ => false
  | .bqReset _ => false
  | .bqApply _ => false
  | .casBuild => false
  | .casReset => false
  | .casApply => false
  | .regWr _ _ => false
  | .bufWr _ _ => false

end Sys2Proof

namespace Sys2Proof.Laws.Kind

/-- The kind of the transaction an operation is encoded as is the operation's own. -/
def Statement (i : Instr) : Prop := (encode i).isRead = i.isRead

theorem oscInit : Statement .oscInit := rfl

theorem oscReset : Statement .oscReset := rfl

theorem oscFill : Statement .oscFill := rfl

theorem bqDesign (k : BitVec 16) (n : Bool) : Statement (.bqDesign k n) := rfl

theorem bqLoad (k : BitVec 16) : Statement (.bqLoad k) := rfl

theorem bqReset (k : BitVec 16) : Statement (.bqReset k) := rfl

theorem bqApply (k : BitVec 16) : Statement (.bqApply k) := rfl

theorem casBuild : Statement .casBuild := rfl

theorem casReset : Statement .casReset := rfl

theorem casApply : Statement .casApply := rfl

theorem regRd (a : Addr) : Statement (.regRd a) := rfl

theorem regWr (a : Addr) (w : Word) : Statement (.regWr a w) := rfl

theorem bufRd (a : Addr) : Statement (.bufRd a) := rfl

theorem bufWr (a : Addr) (w : Word) : Statement (.bufWr a w) := rfl

end Sys2Proof.Laws.Kind
end

