-- ==== Sys2Proof/Machine/Protocol.lean ====
section
/-!
DEFINITION. Sys2Proof/Machine/Protocol.lean: the host's side as lists of bus transactions: the pseudo-instructions of 30_encoding R95 and
the order of operations of the reference host (70_reset_and_hazards R224 to R228, R235; 90_conflicts C6, C7). Nothing here is state
or behaviour of the block.
-/
namespace Sys2Proof.Machine

/-- The word a host writes to BUFLEN for a length of `n`: the length itself where 64 bits hold it, else the greatest word, so that a
length beyond every BUFCAP stays beyond it and faults ALLOC (R228, R172). DESIGN CHOICE, notes/assumptions/19.md. -/
def lengthWord (n : Nat) : Word := BitVec.ofNat 64 (min n (2 ^ 64 - 1))

/-- The word address of `BUF[i]` (R61); an index beyond the address space gets the last address, which is unmapped (R62).
DESIGN CHOICE, notes/assumptions/19.md. -/
def sampleAddr (i : Nat) : Addr := BitVec.ofNat 32 (min (0x40000000 + i) (2 ^ 32 - 1))

/-- `SETLEN n`: `WR BUFLEN, n`. -/
def asmSetLen (n : Word) : List Txn := [.write 0x00000002#32 n]

/-- `SETH h`: `WR OSC_H, h`. -/
def asmSetH (h : Word) : List Txn := [.write 0x00000020#32 h]

/-- `SETPARAMS fs, f0, q, g`. -/
def asmSetParams (p : DesignParams) : List Txn :=
  [.write 0x00000008#32 p.fs, .write 0x00000009#32 p.f0, .write 0x0000000A#32 p.q, .write 0x0000000B#32 p.gain]

/-- `SETCOEF b0, b1, b2, a1, a2`. -/
def asmSetCoef (c : Coefs) : List Txn :=
  [.write 0x00000010#32 c.b0, .write 0x00000011#32 c.b1, .write 0x00000012#32 c.b2, .write 0x00000013#32 c.a1,
   .write 0x00000014#32 c.a2]

/-- `TRIAL.BEGIN`: reset the generator and every filter. -/
def asmTrialBegin : List Txn := [encode .oscReset, encode .casReset]

/-- `TRIAL.ITER`: fill the buffer, then filter it in place. -/
def asmTrialIter : List Txn := [encode .oscFill, encode .casApply]

/-- `TRIAL n, c`. -/
def asmTrial (n : Word) (c : Nat) : List Txn :=
  asmSetLen n ++ asmTrialBegin ++ (List.replicate c asmTrialIter).flatten

/-- The writes that put samples into the buffer from index `i` up (R174). -/
def asmPutSamples : (i : Nat) → List Word → List Txn
  | _, [] => []
  | i, x :: xs => .write (sampleAddr i) x :: asmPutSamples (i + 1) xs

/-- The reads that fetch `n` samples from the buffer (R173, R230). -/
def asmGetSamples (n : Nat) : List Txn :=
  (List.range n).map fun i => .read (sampleAddr i)

/-- The host's constants of 00_scope R7: open (D24), so every list below takes them. -/
structure HostConstants where
  params : DesignParams
  budget : Nat
  lLow : Nat
  lHigh : Nat
  deriving DecidableEq, Repr

/-- Build the oscillator and the cascade once (R224). -/
def hostBuild (c : HostConstants) : List Txn :=
  asmSetParams c.params ++ [encode .oscInit, encode .casBuild]

/-- The trial at sweep index `l` (R225, R227): `buffer_len = 2^l`, `buffer_count = floor(budget / buffer_len)`. A length above BUFCAP
makes its WR BUFLEN fault ALLOC, for every `l` (R228). -/
def hostTrial (c : HostConstants) (l : Nat) : List Txn :=
  asmTrial (lengthWord (2 ^ l)) (c.budget / 2 ^ l)

/-- The sweep over `[L_LOW, L_HIGH)` in increasing buffer size (R228). -/
def hostSweep (c : HostConstants) : List Txn :=
  (List.range (c.lHigh - c.lLow)).flatMap fun j => hostTrial c (c.lLow + j)

/-- The whole run of the reference host (R224 to R228). -/
def hostRun (c : HostConstants) : List Txn := hostBuild c ++ hostSweep c

/-- The minimal sequence of R235 for a buffer of `n` samples. -/
def hostMinimal (p : DesignParams) (n : Nat) : List Txn :=
  asmSetParams p ++ [encode .oscInit, encode .casBuild] ++ asmSetLen (lengthWord n) ++ asmTrialIter ++
    asmGetSamples n

/-- The state with a list of transactions as the host's program (R38, R234). -/
def State.withProgram (s : State) (ts : List Txn) : State := { s with pending := ts.map HostEvent.bus }

end Sys2Proof.Machine
end

