-- ==== Sys2Proof/Laws/Protocol.lean ====
section
/-!
SUPPORT. Sys2Proof/Laws/Protocol.lean: what the host's lists of transactions do at the block, however large the numbers in them are.
-/
namespace Sys2Proof.Machine

/-- A length that 64 bits hold is written as it is. -/
theorem lengthWord_toNat (n : Nat) (h : n < 2 ^ 64) : (lengthWord n).toNat = n := by
  rw [lengthWord, BitVec.toNat_ofNat, Nat.min_eq_left (by omega), Nat.mod_eq_of_lt h]

/-- The word of a length is within a capacity exactly when the length is. -/
theorem lengthWord_le_iff (n cap : Nat) (h : cap < 2 ^ 64 - 1) : (lengthWord n).toNat ≤ cap ↔ n ≤ cap := by
  rw [lengthWord, BitVec.toNat_ofNat]
  omega

/-- The word address of a sample that the storage can hold. -/
theorem sampleAddr_toNat (i : Nat) (h : i < 2 ^ 30) : (sampleAddr i).toNat = 0x40000000 + i := by
  rw [sampleAddr, BitVec.toNat_ofNat]
  omega

/-- An index no storage can hold has an address with bit 31 set, which is unmapped. -/
theorem sampleAddr_unmapped (i : Nat) (h : 2 ^ 30 ≤ i) : 0x80000000 ≤ (sampleAddr i).toNat := by
  rw [sampleAddr, BitVec.toNat_ofNat]
  omega

/-- The first transaction of a trial sets BUFLEN to `2^l`, or faults ALLOC where `2^l` is above BUFCAP, for every sweep index (R228). -/
theorem step_hostTrial (s : State) (c : HostConstants) (l : Nat) (rest : List HostEvent) (hf : s.fault = false)
    (hc : s.cfg.bufcap ≤ 2 ^ 30) (hp : s.pending = (hostTrial c l).map HostEvent.bus ++ rest) :
    ∃ t, step s = .next t ∧
      (2 ^ l ≤ s.cfg.bufcap → t.bufLen.toNat = 2 ^ l ∧ t.fault = false) ∧
      (s.cfg.bufcap < 2 ^ l → t.bufLen = s.bufLen ∧ t.fault = true ∧ t.cause = .alloc) := by
  have hcap : s.cfg.bufcap < 2 ^ 64 - 1 := by omega
  have hle := lengthWord_le_iff (2 ^ l) s.cfg.bufcap hcap
  rw [hostTrial, asmTrial, asmSetLen, List.append_assoc, List.singleton_append, List.map_cons, List.cons_append] at hp
  have hst := step_bus s _ _ hp
  rw [show decode (.write 0x00000002#32 (lengthWord (2 ^ l))) = .ok (.regWr 0x00000002#32 (lengthWord (2 ^ l))) from rfl] at hst
  dsimp only [effect] at hst
  rw [regWr_bufLen] at hst
  refine ⟨_, hst, fun h => ?_, fun h => ?_⟩
  · have hn : ¬ s.cfg.bufcap < (lengthWord (2 ^ l)).toNat := by omega
    simp only [hf, hn, if_false, Bool.false_eq_true]
    exact ⟨lengthWord_toNat (2 ^ l) (by omega), trivial⟩
  · have hn : s.cfg.bufcap < (lengthWord (2 ^ l)).toNat := by omega
    simp [hf, hn, State.raise]

/-- A sweep is one trial per index of `[L_LOW, L_HIGH)`, in increasing order (R228). -/
theorem hostSweep_succ (c : HostConstants) (n : Nat) (h : c.lHigh = c.lLow + n) :
    hostSweep { c with lHigh := c.lHigh + 1 } = hostSweep c ++ hostTrial c (c.lLow + n) := by
  have e1 : c.lHigh + 1 - c.lLow = n + 1 := by omega
  have e2 : c.lHigh - c.lLow = n := by omega
  simp only [hostSweep, e1, e2, List.range_succ, List.flatMap_append, List.flatMap_singleton]
  rfl

end Sys2Proof.Machine
end

