-- ==== Sys2Proof/Tests/Slice0.lean ====
section
/-!
SUPPORT. Sys2Proof/Tests/Slice0.lean: the model's own tests. Expected values are those of spec/95_test_vectors.md and of the examples in
the rules, named in each comment. The last part shows that the hypotheses of every statement can be met together.
-/
namespace Sys2Proof.Tests

open Sys2Proof Sys2Proof.Machine

/-! ### Helpers -/

/-- The state an operation leaves. -/
def after (i : Instr) (s : State) : Option State :=
  match exec i s with
  | .next t => some t
  | .fault _ => none
  | .refused _ => none

/-- The state a bus transaction leaves, by one step. -/
def stepOn (x : Txn) (s : State) : Option State :=
  match step (s.withTxn x) with
  | .next t => some t
  | .fault _ => none
  | .refused _ => none

/-- STATUS after an operation. -/
def statusAfter (i : Instr) (s : State) : Option Word := (after i s).map State.status

/-- STATUS after a bus transaction. -/
def statusOn (x : Txn) (s : State) : Option Word := (stepOn x s).map State.status

/-- The live buffer after an operation. -/
def bufAfter (i : Instr) (s : State) : Option (List Word) := (after i s).map State.liveBuf

/-- The newest word a read has returned, after a bus transaction. -/
def readOn (x : Txn) (s : State) : Option Word := (stepOn x s).bind fun t => t.replies.head?

/-- The state with the buffer holding the samples. -/
def withBuf (xs : List Word) (s : State) : State := s.loadBuf xs

/-- Coefficient set `K0` of V-BQ-1. -/
def k0 : Coefs :=
  { b0 := 0x3FE0000000000000#64, b1 := 0x3FD0000000000000#64, b2 := 0x3FC0000000000000#64, a1 := 0xBFE0000000000000#64,
    a2 := 0x3FD0000000000000#64 }

/-- Coefficient set `K1` of V-CAS-1. -/
def k1 : Coefs :=
  { b0 := 0x3FF0000000000000#64, b1 := 0xBFE0000000000000#64, b2 := 0x0000000000000000#64, a1 := 0x3FD0000000000000#64,
    a2 := 0xBFC0000000000000#64 }

/-- A constructed stage with the coefficients and history given. -/
def stageOf (c : Coefs) (x1 x2 y1 y2 : Word) : Stage := { c := c, x1 := x1, x2 := x2, y1 := y1, y2 := y2, v := true }

/-- A fresh stage. -/
def fresh (c : Coefs) : Stage := stageOf c 0#64 0#64 0#64 0#64

/-- A block of two fresh stages `K0`, `K1` (V-CAS-1). -/
def twoStages : State := { State.reset with stages := [fresh k0, fresh k1] }

/-- A block with a constructed oscillator, three constructed stages and eight samples in its buffer. -/
def built : State :=
  withBuf (List.replicate 8 0x3FF0000000000000#64)
    { State.reset with
      osc := { h := 3#64, level := .high, cnt := 1#64, v := true }
      stages := [fresh k0, stageOf k1 1#64 2#64 3#64 4#64, fresh k0] }

/-- The state after the first operation of P5: a fill with no oscillator. -/
def faulted : State := { State.reset with fault := true, cause := .unconfigured }

/-- The reset state with the four design parameters written. -/
def withParams (fs f0 q gain : Word) : State :=
  { State.reset with params := { fs := fs, f0 := f0, q := q, gain := gain } }

/-- The parameters of V-DES-1: 48000, +0, 1, +0. -/
def des1 : State := withParams 0x40E7700000000000#64 0#64 0x3FF0000000000000#64 0#64

/-- The identity's coefficients (V-DES-1). -/
def identityCoefs : Coefs :=
  { b0 := 0x3FF0000000000000#64, b1 := 0xC000000000000000#64, b2 := 0x3FF0000000000000#64, a1 := 0xC000000000000000#64,
    a2 := 0x3FF0000000000000#64 }

/-! ### Well-formedness -/

/-- A bus operation's address lies in its region (R90): each of the four with one outside. -/
theorem test_wf_regRd_region : (Instr.regRd 0x40000000#32).wf = false := by decide

theorem test_wf_regWr_region : (Instr.regWr 0x80000002#32 0#64).wf = false := by decide

theorem test_wf_regWr_cmd : (Instr.regWr 0x00000000#32 0x0000000003000000#64).wf = false := by decide

theorem test_wf_bufRd_region : (Instr.bufRd 0x00000002#32).wf = false := by decide

theorem test_wf_bufWr_region : (Instr.bufWr 0x80000000#32 0#64).wf = false := by decide

theorem test_wf_accepts :
    (Instr.regRd 0x3FFFFFFF#32).wf ∧ (Instr.regWr 0x00000001#32 0#64).wf ∧ (Instr.bufRd 0x40000000#32).wf ∧
      (Instr.bufWr 0x7FFFFFFF#32 0#64).wf ∧ (Instr.bqDesign 0xFFFF#16 true).wf := by decide

/-! ### Decoding -/

/-- V-ENC-1: every command word. -/
theorem test_decode_commands :
    decodeCmd 0x0000000001000000#64 = .ok .oscInit ∧
    decodeCmd 0x0000000002000000#64 = .ok .oscReset ∧
    decodeCmd 0x0000000003000000#64 = .ok .oscFill ∧
    decodeCmd 0x0000000010000000#64 = .ok (.bqDesign 0#16 false) ∧
    decodeCmd 0x0000000010010002#64 = .ok (.bqDesign 2#16 true) ∧
    decodeCmd 0x0000000011000001#64 = .ok (.bqLoad 1#16) ∧
    decodeCmd 0x0000000012000002#64 = .ok (.bqReset 2#16) ∧
    decodeCmd 0x0000000013000005#64 = .ok (.bqApply 5#16) ∧
    decodeCmd 0x000000001001FFFF#64 = .ok (.bqDesign 65535#16 true) ∧
    decodeCmd 0x0000000020000000#64 = .ok .casBuild ∧
    decodeCmd 0x0000000021000000#64 = .ok .casReset ∧
    decodeCmd 0x0000000022000000#64 = .ok .casApply := by decide

/-- R90: the bus operations at the first and the last address of their regions. -/
theorem test_decode_bus :
    decode (.read 0x00000000#32) = .ok (.regRd 0x00000000#32) ∧
    decode (.read 0x3FFFFFFF#32) = .ok (.regRd 0x3FFFFFFF#32) ∧
    decode (.write 0x00000020#32 2#64) = .ok (.regWr 0x00000020#32 2#64) ∧
    decode (.read 0x40000000#32) = .ok (.bufRd 0x40000000#32) ∧
    decode (.write 0x7FFFFFFF#32 1#64) = .ok (.bufWr 0x7FFFFFFF#32 1#64) ∧
    decode (.read 0x80000000#32) = .error .unmapped ∧
    decode (.write 0xC0000000#32 0#64) = .error .unmapped := by decide

/-- V-ENC-2, R86: the illegal words. -/
theorem test_decode_illegal :
    ([0x0000000000000000#64, 0x0000000004000000#64, 0x0000000003000001#64, 0x0000000010020000#64,
      0x0000000011010000#64, 0x0000000101000000#64, 0xFFFFFFFFFFFFFFFF#64] : List Word).all (fun w =>
      decodeCmd w == .error .illegalCmd && statusOn (.write 0x00000000#32 w) State.reset == some 0x0101#64) = true := by
  decide +kernel

/-- V-ENC-2: the legal words whose operation succeeds or faults, by one step from reset. -/
theorem test_step_runs_commands :
    statusOn (.write 0x00000000#32 0x0000000012000002#64) State.reset = some 0x0000#64 ∧
    statusOn (.write 0x00000000#32 0x0000000012000003#64) State.reset = some 0x0201#64 ∧
    statusOn (.write 0x00000000#32 0x0000000013000003#64) State.reset = some 0x0201#64 ∧
    statusOn (.write 0x00000000#32 0x0000000013000000#64) State.reset = some 0x0301#64 := by decide +kernel

/-- The host's two questions of the table's rows, on one word of a command and of a read. -/
theorem test_withFetchWord :
    decodeTableWord 64 0x0000000002000000 = some .oscReset ∧
    ((step (State.reset.withFetchWord 64 0x0000000011000001) matches .next _) = true) ∧
    decodeTableWord 32 0x00000003 = some (.regRd 3#32) := by decide +kernel

/-! ### Oscillator -/

/-- V-OSC-7, V-OSC-8, V-OSC-9: the quotient 54.5454... rounds up to 55; the tie 220.5 gives 221; `2^33 /. 1 /. 2` does not fit 32
bits: BAD_PARAM. -/
theorem test_oscInit_rounds :
    (after .oscInit (withParams 0x40E7700000000000#64 0x407B800000000000#64 0#64 0#64)).map State.osc =
      some { h := 55#64, level := .low, cnt := 0#64, v := true } ∧
    halfPeriod 32 0x40E5888000000000#64 0x4059000000000000#64 = some 221#64 ∧
    statusAfter .oscInit (withParams 0x4200000000000000#64 0x3FF0000000000000#64 0#64 0#64) = some 0x0401#64 := by
  decide +kernel

/-- V-OSC-9: `0 /. 0` is a NaN, whichever, and BAD_PARAM. -/
theorem test_oscInit_nan : statusAfter .oscInit State.reset = some 0x0401#64 := by
  have h1 : Fp.div 0#64 0#64 = Fp.nan .div 0#64 0#64 := by
    have e : Fp.isNaN 0#64 = false ∧ Fp.isInf 0#64 = false ∧ Fp.isZero 0#64 = true := by decide
    simp [Fp.div, e.1, e.2.1, e.2.2]
  have h2 : halfPeriod 32 0#64 0#64 = none := by
    have hn : Fp.isNaN (Fp.div 0#64 0#64) = true := by rw [h1]; exact Fp.isNaN_nan _ _ _
    have hf : Fp.isFinite (Fp.div (Fp.div 0#64 0#64) Word.two) = false := by
      rw [Fp.div_of_isNaN _ _ (.inl hn)]
      exact Fp.isFinite_of_isNaN _ (Fp.isNaN_nan _ _ _)
    simp [halfPeriod, hf]
  have h3 : oscInit State.reset = State.reset.raise .badParam := by
    rw [oscInit_eq]
    have : halfPeriod State.reset.cfg.cntw State.reset.params.fs State.reset.params.f0 = none := h2
    rw [this]
    rfl
  have h4 : statusAfter .oscInit State.reset = some (oscInit State.reset).status := rfl
  rw [h4, h3]
  decide

/-- R103, example: `H = 3`, HIGH, 1 becomes `H = 3`, LOW, 0. -/
theorem test_oscReset_keeps_h :
    (after .oscReset built).map State.osc = some { h := 3#64, level := .low, cnt := 0#64, v := true } := by decide +kernel

/-- V-OSC-6: legal on an oscillator never constructed. -/
theorem test_oscReset_unconstructed : statusAfter .oscReset State.reset = some 0x0000#64 := by decide +kernel

/-- V-OSC-3: half period 3, eight samples, ending LOW with counter 2. -/
theorem test_oscFill_segments :
    let s := { State.reset with osc := { h := 3#64, level := .low, cnt := 0#64, v := true }, bufLen := 8#64 }
    bufAfter .oscFill s =
        some [0xBFE0000000000000#64, 0xBFE0000000000000#64, 0xBFE0000000000000#64, 0x3FE0000000000000#64,
          0x3FE0000000000000#64, 0x3FE0000000000000#64, 0xBFE0000000000000#64, 0xBFE0000000000000#64] ∧
      (after .oscFill s).map State.osc = some { h := 3#64, level := .low, cnt := 2#64, v := true } := by decide +kernel

/-- V-OSC-5: the valid check comes before the empty loop. -/
theorem test_oscFill_unconfigured : statusAfter .oscFill State.reset = some 0x0301#64 := by decide +kernel

/-! ### Biquad -/

/-- V-DES-1: the case that uses the exact values of the library functions only, here with the gain negated. -/
theorem test_bqDesign_identity :
    (after (.bqDesign 2#16 true) des1).map (fun t => t.stage 2) = some (fresh identityCoefs) := by decide +kernel

/-- V-BQ-8 and V-DES-6: a stage index out of range is BAD_STAGE; degenerate parameters do not fault and make the stage valid. -/
theorem test_bqDesign_bounds :
    statusAfter (.bqDesign 3#16 true) State.reset = some 0x0201#64 ∧
    statusAfter (.bqDesign 0#16 false) State.reset = some 0x0000#64 ∧
    (after (.bqDesign 0#16 false) State.reset).map (fun t => (t.stage 0).v) = some true := by decide +kernel

/-- R124, example: the coefficients are copied, and clear history and V set replace what was there. -/
theorem test_bqLoad_copies :
    (after (.bqLoad 1#16) { built with staging := k0 }).map (fun t => t.stage 1) = some (fresh k0) := by decide +kernel

/-- V-BQ-8: BQ.LOAD 3 of three stages. -/
theorem test_bqLoad_range : statusAfter (.bqLoad 3#16) State.reset = some 0x0201#64 := by decide +kernel

/-- R125, example: the history (-2.0, 0.25, -0.66796875, 0.484375) is cleared. -/
theorem test_bqReset_clears :
    (after (.bqReset 0#16)
        { State.reset with
          stages := [stageOf k0 0xC000000000000000#64 0x3FD0000000000000#64 0xBFE5600000000000#64 0x3FDF000000000000#64] }).map
        (fun t => t.stage 0) = some (fresh k0) := by decide +kernel

/-- V-BQ-5: rounding and the evaluation order, which three other orders do not give. -/
theorem test_bqApply_rounding :
    let c : Coefs :=
      { b0 := 0x3FB999999999999A#64, b1 := 0x3FC999999999999A#64, b2 := 0x3FD3333333333333#64,
        a1 := 0xBFD999999999999A#64, a2 := 0x3FE0000000000000#64 }
    let s := withBuf [0x3FF0000000000000#64, 0x3FB999999999999A#64, 0xBFE6666666666666#64, 0x3FD3333333333333#64, 0#64, 0#64]
      { State.reset with stages := [fresh c] }
    bufAfter (.bqApply 0#16) s =
      some [0x3FB999999999999A#64, 0x3FD0000000000000#64, 0x3FD3333333333333#64, 0xBFB5C28F5C28F5C2#64,
        0xBFD5604189374BC6#64, 0xBF5205BC01A36E40#64] := by decide +kernel

/-- V-BQ-6: signed zero and infinity: output +0.0 and +inf, and the history keeps the -0.0 input. -/
theorem test_bqApply_zero_inf :
    let s := withBuf [0x8000000000000000#64, 0x7FF0000000000000#64] { State.reset with stages := [fresh k0] }
    bufAfter (.bqApply 0#16) s = some [0#64, 0x7FF0000000000000#64] ∧
      (after (.bqApply 0#16) s).map (fun t => t.stage 0) =
        some (stageOf k0 0x7FF0000000000000#64 0x8000000000000000#64 0x7FF0000000000000#64 0#64) := by decide +kernel

/-! ### Cascade -/

/-- P4: with gain +0.0 and centre frequency +0.0 the three stages are identities, the middle one designed with gain -0.0. -/
theorem test_casBuild_identity :
    (after .casBuild des1).map State.stages = some (List.replicate 3 (fresh identityCoefs)) := by decide +kernel

/-- V-CAS-4: every history is cleared, the coefficients and V are kept. -/
theorem test_casReset_clears :
    (after .casReset built).map State.stages = some [fresh k0, fresh k1, fresh k0] := by decide +kernel

/-- V-CAS-1: two loaded stages, impulse. -/
theorem test_casApply_impulse :
    let s := withBuf [0x3FF0000000000000#64, 0#64, 0#64, 0#64, 0#64, 0#64] twoStages
    bufAfter .casApply s =
        some [0x3FE0000000000000#64, 0x3FC0000000000000#64, 0x3FA0000000000000#64, 0xBFBE000000000000#64,
          0xBF9E000000000000#64, 0xBF7E000000000000#64] ∧
      (after .casApply s).map State.stages =
        some [stageOf k0 0#64 0#64 0xBFA0000000000000#64 0xBFB0000000000000#64,
          stageOf k1 0xBFA0000000000000#64 0xBFB0000000000000#64 0xBF7E000000000000#64 0xBF9E000000000000#64] := by
  decide +kernel

/-- V-CAS-3: stage 2 is missing: UNCONFIGURED, and the buffer and the other stages are untouched. -/
theorem test_casApply_missing :
    let s := withBuf [0x3FF0000000000000#64, 0#64, 0#64, 0#64]
      { State.reset with stages := [fresh k0, fresh k0, Stage.reset] }
    after .casApply s = some { s with fault := true, cause := .unconfigured } ∧ statusAfter .casApply s = some 0x0301#64 := by
  decide +kernel

/-! ### Host access -/

/-- V-ACC-1: an unmapped address, the write-only CMD, a stage beyond the last and offset 10 fault and return 0. -/
theorem test_regRd_faults :
    ([0x00000005#32, 0x00000000#32, 0x00100030#32, 0x0010000A#32, 0x80000000#32] : List Addr).all (fun a =>
      statusOn (.read a) State.reset == some 0x0601#64 && readOn (.read a) State.reset == some 0#64) = true := by
  decide +kernel

/-- V-ACC-1 and P5: CAP_STAGES, CAP_BUF, and STATUS after a fault. -/
theorem test_regRd_values :
    readOn (.read 0x00000003#32) State.reset = some 3#64 ∧ readOn (.read 0x00000004#32) State.reset = some 16#64 ∧
      readOn (.read 0x00000001#32) faulted = some 0x0301#64 := by decide +kernel

/-- V-ACC-1, V-OSC-9: BUFLEN above and at BUFCAP, OSC_H above and at `2^32 - 1`, a read-only register. -/
theorem test_regWr_checks :
    statusOn (.write 0x00000002#32 17#64) State.reset = some 0x0501#64 ∧
    statusOn (.write 0x00000002#32 16#64) State.reset = some 0x0000#64 ∧
    statusOn (.write 0x00000020#32 0x100000000#64) State.reset = some 0x0401#64 ∧
    statusOn (.write 0x00000020#32 0xFFFFFFFF#64) State.reset = some 0x0002#64 ∧
    statusOn (.write 0x00100000#32 0#64) State.reset = some 0x0601#64 := by decide +kernel

/-- R171, example: `WR P_FS, f64:48000`; P5: a write while faulted is ignored. -/
theorem test_regWr_stores :
    (stepOn (.write 0x00000008#32 0x40E7700000000000#64) State.reset).map (fun t => t.params.fs) = some 0x40E7700000000000#64 ∧
    stepOn (.write 0x00000020#32 2#64) faulted = some faulted := by decide +kernel

/-- R173, example: after the fill of R104's example `RD BUF[2]` returns 0x3FE0000000000000. -/
theorem test_bufRd_sample :
    readOn (.read 0x40000002#32) (withBuf [0#64, 0#64, 0x3FE0000000000000#64] State.reset) = some 0x3FE0000000000000#64 := by
  decide +kernel

/-- V-ACC-1, P5: an index at BUFLEN faults and returns 0; while faulted the cause is kept. -/
theorem test_bufRd_range :
    statusOn (.read 0x40000000#32) State.reset = some 0x0601#64 ∧ readOn (.read 0x40000000#32) State.reset = some 0#64 ∧
      statusOn (.read 0x40000000#32) faulted = some 0x0301#64 := by decide +kernel

/-- V-ACC-4: the last word of a live buffer of 4 takes a write; the word above is out of reach. -/
theorem test_bufWr_range :
    (stepOn (.write 0x40000003#32 0x3FF0000000000000#64) { State.reset with bufLen := 4#64 }).map (fun t => t.readBuf 3) =
        some 0x3FF0000000000000#64 ∧
      statusOn (.write 0x40000004#32 0#64) { State.reset with bufLen := 4#64 } = some 0x0601#64 := by decide +kernel

/-- T6, V-ENC-3: the words of whole numbers. -/
theorem test_fp_ofNat : Fp.ofNat 48000 = 0x40E7700000000000#64 ∧ Fp.ofNat 50 = 0x4049000000000000#64 := by decide +kernel

/-- R95, T5: the writes of a trial. -/
theorem test_protocol_trial :
    asmTrial 4#64 1 =
      [.write 0x00000002#32 4#64, .write 0x00000000#32 0x0000000002000000#64, .write 0x00000000#32 0x0000000021000000#64,
        .write 0x00000000#32 0x0000000003000000#64, .write 0x00000000#32 0x0000000022000000#64] := by decide

/-- R228: a trial whose length is `2^64` faults ALLOC, as one of `2^5` does at BUFCAP = 16; one of `2^4` does not. -/
theorem test_protocol_trial_alloc :
    let c : HostConstants := { params := des1.params, budget := 0, lLow := 64, lHigh := 65 }
    ((hostSweep c).head?.bind fun x => statusOn x State.reset) = some 0x0501#64 ∧
      ((hostTrial c 5).head?.bind fun x => statusOn x State.reset) = some 0x0501#64 ∧
      ((hostTrial c 4).head?.bind fun x => statusOn x State.reset) = some 0x0000#64 := by decide +kernel

/-! ### The hypotheses of the statements can be met

One theorem per statement of Certificates/Slice0/Obligations.lean that has hypotheses, at boundary values of each clause. -/

/-- The state with one event for the host to come. -/
def withEvent (e : HostEvent) (s : State) : State := { s with pending := [e] }

/-- A fresh stage `K0` with the impulse in a buffer of three. -/
def impulse : State := withBuf [0x3FF0000000000000#64, 0#64, 0#64] { State.reset with stages := [fresh k0] }

theorem test_witness_DecodeReadsWhatEncodeWrites :
    (Instr.bqDesign 0xFFFF#16 true).wf = true ∧ (Instr.regWr 0x3FFFFFFF#32 0#64).wf = true ∧
      (Instr.bufRd 0x7FFFFFFF#32).wf = true := by decide

theorem test_witness_EncodeWritesWhatDecodeRead :
    decode (.write 0#32 0x000000001001FFFF#64) = .ok (.bqDesign 0xFFFF#16 true) ∧
      decode (.read 0x7FFFFFFF#32) = .ok (.bufRd 0x7FFFFFFF#32) := by decide

/-- A word of a row, the first word beside it that is of none, and a word of no opcode. -/
theorem test_witness_CommandRowsAreMaskAndMatch :
    (0x0000000003000000#64 : Word) &&& 0xFFFFFFFFFFFFFFFF#64 = 0x0000000003000000#64 ∧
      NoCommandRow 0x0000000003000001#64 ∧ NoCommandRow 0x0000000010020000#64 := by
  refine ⟨by decide, ?_, ?_⟩ <;> simp [NoCommandRow, commandRows]

/-- The first and the last address of each region. -/
theorem test_witness_BusOperationsByKindAndRegion :
    ((0x00000000#32 : Addr) &&& 0xC0000000#32 = 0#32 ∧ (0x3FFFFFFF#32 : Addr) &&& 0xC0000000#32 = 0#32) ∧
      ((0x40000000#32 : Addr) &&& 0xC0000000#32 = 0x40000000#32 ∧ (0x7FFFFFFF#32 : Addr) &&& 0xC0000000#32 = 0x40000000#32) ∧
      ((0x80000000#32 : Addr).getLsbD 31 = true ∧ (0xFFFFFFFF#32 : Addr).getLsbD 31 = true) := by decide

theorem test_witness_StepRunsTheDecodedInstruction :
    (built.withTxn (.write 0#32 0x0000000022000000#64)).pending = .bus (.write 0#32 0x0000000022000000#64) :: [] ∧
      decode (.write 0#32 0x0000000022000000#64) = .ok .casApply := by decide

theorem test_witness_IllegalCommandFaults :
    (built.withTxn (.write 0#32 0x0000000003000001#64)).fault = false ∧ NoCommandRow 0x0000000003000001#64 ∧
      (built.withTxn (.write 0#32 0x0000000003000001#64)).pending = .bus (.write 0#32 0x0000000003000001#64) :: [] :=
  ⟨rfl, by simp [NoCommandRow, commandRows], rfl⟩

/-- The addresses next to the mapped ones: after the globals, after a stage, after the last stage, after the live buffer, bit 31. -/
theorem test_witness_UnmappedAccessFaults :
    (∀ a ∈ ([0x00000023#32, 0x000FFFFF#32, 0x0010000A#32, 0x00100030#32, 0x40000008#32, 0x80000000#32] : List Addr),
      ¬ MappedAddr built a) ∧
    built.fault = false ∧ (built.withTxn (.read 0x80000000#32)).pending = .bus (.read 0x80000000#32) :: [] := by
  refine ⟨?_, rfl, rfl⟩
  have hn : built.nstages = 3 := rfl
  have hb : built.bufLen.toNat = 8 := rfl
  intro a ha
  simp only [List.mem_cons, List.not_mem_nil, or_false] at ha
  rcases ha with rfl | rfl | rfl | rfl | rfl | rfl <;>
    (simp only [MappedAddr, hn, hb, globalAddrs]; rintro (h | ⟨k, r, hk, hr, h⟩ | ⟨i, hi, h⟩) <;> simp at h <;> omega)

theorem test_witness_HardwareResetValues :
    (withEvent .hardwareReset faulted).pending = .hardwareReset :: [] := by decide

/-- The ends of the parameters' ranges. -/
theorem test_witness_ResetMeetsTheInvariant :
    ({ bufcap := 1, cntw := 1 } : Config).wf ∧ ({ bufcap := 2 ^ 30, cntw := 63 } : Config).wf ∧ (1 ≤ 1 ∧ 65536 ≤ 65536) := by
  decide

/-- States that meet the invariant: constructed, faulted, and with the counter at its bound. -/
theorem test_witness_StepKeepsTheInvariant :
    built.inv ∧ faulted.inv ∧ ({ built with osc := { h := 3#64, level := .low, cnt := 3#64, v := true } } : State).inv ∧
      ∃ t, step (built.withTxn (.write 0#32 0x0000000003000000#64)) = .next t :=
  ⟨by decide +kernel, by decide +kernel, by decide +kernel, _, rfl⟩

theorem test_witness_StepKeepsTheParameters : ∃ t, step (withEvent .hardwareReset built) = .next t := ⟨_, rfl⟩

theorem test_witness_CoefficientsChangeByConstructionOnly :
    Instr.casApply.wf = true ∧ (∀ k n, Instr.casApply ≠ .bqDesign k n) ∧ (∀ k, Instr.casApply ≠ .bqLoad k) ∧
      Instr.casApply ≠ .casBuild ∧ ∃ t, exec .casApply built = .next t :=
  ⟨rfl, by simp, by simp, by simp, _, rfl⟩

theorem test_witness_ValidBitsStaySet :
    (built.withTxn (.write 0#32 0x0000000002000000#64)).pending.head? ≠ some .hardwareReset ∧
      (∃ t, step (built.withTxn (.write 0#32 0x0000000002000000#64)) = .next t) ∧ built.osc.v = true ∧
      (built.stage 2).v = true :=
  ⟨by decide, ⟨_, rfl⟩, rfl, rfl⟩

theorem test_witness_FaultedBlockIgnoresWrites :
    (faulted.withTxn (.write 0x00000020#32 2#64)).fault = true ∧
      (faulted.withTxn (.write 0x00000020#32 2#64)).pending = .bus (.write 0x00000020#32 2#64) :: [] := by decide

/-- The last live sample and the first index beyond; the first and the last address with bit 31 set. -/
theorem test_witness_FaultedBlockAnswersReads :
    let s := { built with fault := true, cause := .alloc }
    s.fault = true ∧ (7 < s.bufLen.toNat ∧ 7 < 2 ^ 30) ∧ (s.bufLen.toNat ≤ 8 ∧ 8 < 2 ^ 30) ∧
      ((0x80000000#32 : Addr).getLsbD 31 = true ∧
        (s.withTxn (.read 0x80000000#32)).pending = .bus (.read 0x80000000#32) :: []) ∧
      (0xFFFFFFFF#32 : Addr).getLsbD 31 = true := by decide

theorem test_witness_FaultIsSticky :
    let s := faulted.withTxn (.read 0x00000005#32)
    s.fault = true ∧ s.pending.head? ≠ some .hardwareReset ∧ ∃ t, step s = .next t :=
  ⟨rfl, by decide, _, rfl⟩

/-- A write and a read that fault. -/
theorem test_witness_FaultsArePrecise :
    (∃ t, step (State.reset.withTxn (.write 0#32 0x0000000022000000#64)) = .next t ∧ t.fault = true) ∧
      (∃ t, step (State.reset.withTxn (.read 0x40000000#32)) = .next t ∧ t.fault = true) ∧ State.reset.fault = false :=
  ⟨⟨_, rfl, by decide +kernel⟩, ⟨_, rfl, by decide +kernel⟩, rfl⟩

/-- The first index out of range, and a word of each command that names it. -/
theorem test_witness_StageIndexOutOfRangeFaults :
    built.fault = false ∧ built.nstages ≤ (3#16).toNat ∧ decodeCmd 0x0000000010010003#64 = .ok (.bqDesign 3#16 true) ∧
      decodeCmd 0x0000000011000003#64 = .ok (.bqLoad 3#16) ∧ decodeCmd 0x0000000012000003#64 = .ok (.bqReset 3#16) ∧
      decodeCmd 0x0000000013000003#64 = .ok (.bqApply 3#16) := by decide

/-- The last stage not constructed; the oscillator not constructed. -/
theorem test_witness_UseBeforeConstructionFaults :
    State.reset.fault = false ∧ State.reset.osc.v = false ∧ (2#16).toNat < State.reset.nstages ∧
      (State.reset.stage (2#16).toNat).v = false ∧ (2 < State.reset.nstages ∧ (State.reset.stage 2).v = false) := by decide

/-- Quotients that are finite, infinite, and a NaN. -/
theorem test_witness_HalfPeriodIsTheRoundedQuotient :
    32 ≤ 63 ∧
      Fp.isFinite (Fp.div (Fp.div 0x3FF0000000000000#64 0x3FF0000000000000#64) 0x4000000000000000#64) = true ∧
      Fp.isInf (Fp.div (Fp.div 0x3FF0000000000000#64 0#64) 0x4000000000000000#64) = true ∧
      Fp.isNaN (Fp.div (Fp.div 0x7FF8000000000000#64 0#64) 0x4000000000000000#64) = true :=
  ⟨by decide, by decide +kernel, by decide +kernel, by
    rw [Fp.div_of_isNaN _ _ (.inl (by rw [Fp.div_of_isNaN _ _ (.inl (by decide))]; exact Fp.isNaN_nan _ _ _))]
    exact Fp.isNaN_nan _ _ _⟩

/-- A tie, a subnormal and a negative word. -/
theorem test_witness_RoundHalfAwayIsNearest :
    Fp.isFinite 0x4004000000000000#64 = true ∧ Fp.roundHalfAway 0x4004000000000000#64 = 3 ∧ Fp.isFinite 1#64 = true ∧
      Fp.sign 0xC004000000000000#64 = true ∧ Fp.roundHalfAway 0xC004000000000000#64 = -3 := by decide +kernel

/-- The smallest and the largest half period of a one-bit counter, and a refused one. -/
theorem test_witness_OscInitConstructs :
    State.reset.fault = false ∧ halfPeriod 1 0x3FF0000000000000#64 0x3FF0000000000000#64 = some 1#64 ∧
      halfPeriod 32 0x3FF0000000000000#64 0#64 = none := by decide +kernel

/-- Both ends of the range and the words next to it. -/
theorem test_witness_OscHWriteConstructs :
    State.reset.fault = false ∧ (1 ≤ (1#64).toNat ∧ (1#64).toNat ≤ 2 ^ State.reset.cfg.cntw - 1) ∧
      (1 ≤ (0xFFFFFFFF#64).toNat ∧ (0xFFFFFFFF#64).toNat ≤ 2 ^ State.reset.cfg.cntw - 1) ∧ (0#64).toNat < 1 ∧
      2 ^ State.reset.cfg.cntw - 1 < (0x100000000#64).toNat := by decide

theorem test_witness_OscResetRestarts : built.fault = false ∧ State.reset.fault = false := by decide

theorem test_witness_OscFillRunsTheOscillator :
    built.fault = false ∧ built.osc.v = true ∧ 7 < built.bufLen.toNat ∧ State.reset.fault = false ∧
      State.reset.osc.v = false := by decide

/-- With samples and with none. -/
theorem test_witness_SegmentLawOfTheWave :
    let s := { built with osc := Osc.built 1#64 }
    s.fault = false ∧ s.osc.v = true ∧ s.osc.level = .low ∧ s.osc.cnt = 0#64 ∧ 1 ≤ s.osc.h.toNat ∧ 7 < s.bufLen.toNat ∧
      1 ≤ s.bufLen.toNat ∧ ({ s with bufLen := 0#64 } : State).bufLen.toNat = 0 := by decide

theorem test_witness_FillContinuity :
    built.fault = false ∧ built.osc.v = true ∧ 4 + 12 ≤ built.cfg.bufcap ∧ built.cfg.bufcap ≤ 2 ^ 30 := by decide

/-- Both signs of the gain zero are in the domain; `q = 0` is not. -/
theorem test_witness_DesignDomain :
    designValid des1.params 0#64 = true ∧ designValid des1.params 0x8000000000000000#64 = true ∧
      designValid { des1.params with q := 0#64 } 0#64 = false := by decide +kernel

/-- The last stage and the first index beyond; valid and degenerate parameters. -/
theorem test_witness_BqDesignBuildsTheStage :
    des1.fault = false ∧ (2#16).toNat < des1.nstages ∧ des1.nstages ≤ (3#16).toNat ∧
      designValid des1.params (des1.params.gain ^^^ 0x8000000000000000#64) = true ∧
      designValid des1.params des1.params.gain = true ∧ designValid State.reset.params 0#64 = false := by decide +kernel

theorem test_witness_DesignAtFrequencyZero :
    des1.fault = false ∧ (2#16).toNat < des1.nstages ∧ des1.params.f0 = 0#64 ∧
      designValid des1.params (if true then Fp.neg des1.params.gain else des1.params.gain) = true ∧
      designValid des1.params (if false then Fp.neg des1.params.gain else des1.params.gain) = true := by decide +kernel

theorem test_witness_BqLoadCopiesTheStaging :
    built.fault = false ∧ (2#16).toNat < built.nstages ∧ built.nstages ≤ (3#16).toNat := by decide

theorem test_witness_BqResetClearsTheHistory :
    built.fault = false ∧ (1#16).toNat < built.nstages ∧ built.nstages ≤ (3#16).toNat := by decide

/-- A constructed stage, the first index beyond, and a stage not constructed. -/
theorem test_witness_BqApplyIsTheRecurrence :
    built.fault = false ∧ ((2#16).toNat < built.nstages ∧ (built.stage (2#16).toNat).v = true) ∧ 7 < built.bufLen.toNat ∧
      built.nstages ≤ (3#16).toNat ∧
      ((0#16).toNat < State.reset.nstages ∧ (State.reset.stage (0#16).toNat).v = false) := by decide

theorem test_witness_ImpulseResponse :
    impulse.fault = false ∧ (0#16).toNat < impulse.nstages ∧
      impulse.stage (0#16).toNat = { c := k0, x1 := 0#64, x2 := 0#64, y1 := 0#64, y2 := 0#64, v := true } ∧
      (Fp.isFinite k0.b0 = true ∧ Fp.isFinite k0.b1 = true ∧ Fp.isFinite k0.b2 = true ∧ Fp.isFinite k0.a1 = true ∧
        Fp.isFinite k0.a2 = true) ∧
      3 ≤ impulse.bufLen.toNat ∧ impulse.readBuf 0 = 0x3FF0000000000000#64 ∧ impulse.readBuf 1 = 0#64 ∧
      impulse.readBuf 2 = 0#64 ∧ impulse.bufLen.toNat = 3 := by decide +kernel

theorem test_witness_BqResetIsReloading :
    let s := { built with staging := k1 }
    s.fault = false ∧ (1#16).toNat < s.nstages ∧ (s.stage (1#16).toNat).v = true ∧ s.staging = (s.stage (1#16).toNat).c := by
  decide

/-- Two buffers that fill the storage exactly. -/
theorem test_witness_ApplyContinuity :
    built.fault = false ∧ (0#16).toNat < built.nstages ∧ (built.stage (0#16).toNat).v = true ∧
      (List.replicate 3 (0#64 : Word)).length + (List.replicate 13 (0#64 : Word)).length ≤ built.cfg.bufcap ∧
      built.cfg.bufcap ≤ 2 ^ 30 := by decide

/-- Even and odd stages, both signs valid. -/
theorem test_witness_CasBuildAlternatesTheGain :
    des1.fault = false ∧ 2 < des1.nstages ∧ designValid des1.params des1.params.gain = true ∧
      designValid des1.params (Fp.neg des1.params.gain) = true := by decide +kernel

theorem test_witness_CasBuildIsTheDesignSequence : State.reset.fault = false ∧ State.reset.nstages ≤ 65536 := by decide

theorem test_witness_CasResetClearsEveryHistory : built.fault = false ∧ 2 < built.nstages := by decide

/-- All stages constructed; one not. -/
theorem test_witness_CasApplyIsTheApplySequence :
    built.fault = false ∧ built.nstages ≤ 65536 ∧ (∀ k, k < built.nstages → (built.stage k).v = true) ∧
      (2 < State.reset.nstages ∧ (State.reset.stage 2).v = false) := by decide

theorem test_witness_CasApplyFrame :
    built.fault = false ∧ (∀ k, k < built.nstages → (built.stage k).v = true) ∧
      ({ built with bufLen := 0#64 } : State).bufLen = 0#64 := by decide

theorem test_witness_LoopInterchange :
    built.fault = false ∧ ∀ k, k < built.nstages → (built.stage k).v = true := by decide

theorem test_witness_CascadeResetLaw :
    built.fault = false ∧ ∀ k, k < built.nstages → (built.stage k).v = true := by decide

theorem test_witness_CascadeContinuity :
    built.fault = false ∧ (∀ k, k < built.nstages → (built.stage k).v = true) ∧
      (List.replicate 16 (0#64 : Word)).length + ([] : List Word).length ≤ built.cfg.bufcap ∧ built.cfg.bufcap ≤ 2 ^ 30 := by
  decide

/-- The last stage, the last address of the region, and the address after the last stage. -/
theorem test_witness_RegisterReads :
    (2 < built.nstages ∧ 2 < 65536) ∧ (0x3FFFFFFF#32 : Addr).toNat < 0x40000000 ∧ ¬ MappedAddr built 0x3FFFFFFF#32 ∧
      ¬ MappedAddr built 0x00100030#32 := by
  have hn : built.nstages = 3 := rfl
  have hb : built.bufLen.toNat = 8 := rfl
  refine ⟨by decide, by decide, ?_, ?_⟩ <;>
    (simp only [MappedAddr, hn, hb, globalAddrs]; rintro (h | ⟨k, r, hk, hr, h⟩ | ⟨i, hi, h⟩) <;> simp at h <;> omega)

theorem test_witness_ParameterWritesStore : built.fault = false := by decide

theorem test_witness_AccessRightViolationsFault : built.fault = false ∧ 2 < built.nstages ∧ 2 < 65536 ∧ 9 ≤ 9 := by decide

/-- At BUFCAP and next above it. -/
theorem test_witness_BufLenWrite :
    built.fault = false ∧ (16#64).toNat ≤ built.cfg.bufcap ∧ built.cfg.bufcap < (17#64).toNat := by decide

theorem test_witness_CmdWriteRunsTheCommand :
    decodeCmd 0x0000000001000000#64 = .ok .oscInit ∧ built.fault = false ∧ NoCommandRow 0x0000000001000001#64 :=
  ⟨by decide, rfl, by simp [NoCommandRow, commandRows]⟩

/-- The last live index and the first beyond. -/
theorem test_witness_BufferReads :
    7 < 2 ^ 30 ∧ 7 < built.bufLen.toNat ∧ 8 < 2 ^ 30 ∧ built.bufLen.toNat ≤ 8 := by decide

theorem test_witness_BufferWrites :
    7 < 2 ^ 30 ∧ faulted.fault = true ∧ built.fault = false ∧ 7 < built.bufLen.toNat ∧ built.bufLen.toNat ≤ 8 := by decide

theorem test_witness_IdempotentWrites :
    (0x00000002#32 : Addr) ≠ 0#32 ∧ designValid des1.params des1.params.gain = true ∧
      designValid des1.params (Fp.neg des1.params.gain) = true := by decide +kernel

theorem test_witness_SampleBytesAreLittleEndian :
    0 < 8 ∧ 7 < 8 ∧ wordBytes 0x3FE0000000000001#64 = wordBytes 0x3FE0000000000001#64 := by decide

/-- Finite operands with a finite and with an infinite result, and a divisor that is not zero. -/
theorem test_witness_DottedOperatorsRoundToNearest :
    Fp.isFinite 0x7FEFFFFFFFFFFFFF#64 = true ∧ Fp.isFinite 1#64 = true ∧ Fp.value 1#64 ≠ 0 ∧
      Fp.isFinite (Fp.mul 0x7FEFFFFFFFFFFFFF#64 1#64) = true ∧
      Fp.isInf (Fp.add 0x7FEFFFFFFFFFFFFF#64 0x7FEFFFFFFFFFFFFF#64) = true ∧
      Fp.isInf (Fp.div 0x7FEFFFFFFFFFFFFF#64 1#64) = true := by decide +kernel

/-- A NaN operand, and an invalid operation of each kind. -/
theorem test_witness_NaNResults :
    Fp.isNaN 0x7FF8000000000000#64 = true ∧ (Fp.isInf 0x7FF0000000000000#64 = true ∧ Fp.isZero 0x8000000000000000#64 = true) ∧
      Fp.sign 0xFFF0000000000000#64 ≠ Fp.sign 0x7FF0000000000000#64 := by decide

theorem test_witness_SignsOfResults :
    Fp.isNaN (Fp.mul 0xBFF0000000000000#64 0x3FF0000000000000#64) = false ∧
      Fp.isNaN (Fp.div 0xBFF0000000000000#64 0#64) = false ∧
      (Fp.isFinite 0x8000000000000000#64 = true ∧ Fp.value 0x8000000000000000#64 + Fp.value 0x8000000000000000#64 = 0) ∧
      Fp.value 0x3FF0000000000000#64 + Fp.value 0xBFF0000000000000#64 = 0 := by decide +kernel

end Sys2Proof.Tests
end

section
/-!
PROOFS, scope (00_scope): one step of the host (R16, R38) and the parameters of the block (R6, R37).
-/
namespace Sys2Proof.Machine

/-! ### The decoded operation -/

/-- Settles O6: the state's next event is taken off the list, and its decoder's answer selects the arm. -/
theorem stepRunsTheDecodedInstruction : Obligations.StepRunsTheDecodedInstruction := by
  intro s t rest i hp hd
  rw [step_bus s t rest hp, hd, exec_effect]

/-! ### The invariant after power-on -/

theorem powerOn_nstages (cfg : Config) (n : Nat) : (State.powerOn cfg n).nstages = n :=
  List.length_replicate

theorem powerOn_inv {cfg : Config} {n : Nat} (hc : cfg.wf) (h1 : 1 ≤ n) (h2 : n ≤ 65536) : (State.powerOn cfg n).inv := by
  have hn : 1 ≤ (State.powerOn cfg n).nstages ∧ (State.powerOn cfg n).nstages ≤ 65536 := by
    rw [powerOn_nstages]
    exact ⟨h1, h2⟩
  have hosc : (State.powerOn cfg n).osc.inv cfg.cntw := ⟨nofun, fun _ => rfl⟩
  have hstages : ∀ st ∈ (State.powerOn cfg n).stages, st.inv := fun st h _ => List.eq_of_mem_replicate h
  have hfault : (State.powerOn cfg n).fault = false ↔ (State.powerOn cfg n).cause = .none := iff_of_true rfl rfl
  exact ⟨hc, hn, hosc, hstages, Nat.zero_le _, rfl, rfl, hfault⟩

/-- Settles O11: `State.reset` is a power-on with parameters inside the ranges of R6. -/
theorem resetMeetsTheInvariant : Obligations.ResetMeetsTheInvariant :=
  ⟨powerOn_inv (by decide) (by decide) (by decide), fun _ _ => powerOn_inv⟩

/-! ### The parameters of the block -/

/-- `t` is a state of the same block as `s`: the parameters of R6 are the same in both. -/
def SameBlock (s t : State) : Prop := t.cfg = s.cfg ∧ t.nstages = s.nstages

theorem SameBlock.of_fields {s t : State} (hc : t.cfg = s.cfg) (hl : t.stages.length = s.stages.length) : SameBlock s t :=
  ⟨hc, hl⟩

theorem SameBlock.refl (s : State) : SameBlock s s := ⟨rfl, rfl⟩

theorem SameBlock.ite {s t u : State} {c : Prop} [Decidable c] (ht : SameBlock s t) (hu : SameBlock s u) :
    SameBlock s (if c then t else u) := by
  split
  · exact ht
  · exact hu

theorem SameBlock.raise (c : Cause) (s : State) : SameBlock s (s.raise c) := .of_fields (by simp) (by simp)

theorem SameBlock.reply (w : Word) (s : State) : SameBlock s (s.reply w) := .of_fields rfl rfl

theorem SameBlock.replyFault (s : State) : SameBlock s s.replyFault := .of_fields (by simp) (by simp)

/-- The write gate keeps the block when the gated action does. -/
theorem SameBlock.gated {act : State → State} {s : State} (h : SameBlock s (act s)) : SameBlock s (s.gated act) :=
  .ite (.refl s) h

/-- The stage check keeps the block when the checked action does. -/
theorem SameBlock.withStage {act : Nat → State → State} {k : BitVec 16} {s : State} (h : SameBlock s (act k.toNat s)) :
    SameBlock s (s.withStage k act) :=
  .ite h (.raise _ s)

theorem SameBlock.setOsc (o : Osc) (s : State) : SameBlock s (s.setOsc o) := .of_fields rfl rfl

theorem SameBlock.setStage (k : Nat) (st : Stage) (s : State) : SameBlock s (s.setStage k st) := ⟨rfl, by simp⟩

theorem SameBlock.buildFrom (n k : Nat) (s : State) : SameBlock s (buildFrom n k s) := by
  obtain ⟨st, d, h, hl⟩ := buildFrom_frame n k s
  rw [h]
  exact .of_fields rfl hl

theorem SameBlock.cascadeFrom (n k : Nat) (s : State) : SameBlock s (cascadeFrom n k s) := by
  obtain ⟨st, m, h, hl⟩ := cascadeFrom_frame n k s
  rw [h]
  exact .of_fields rfl hl

theorem SameBlock.oscInit (s : State) : SameBlock s (oscInit s) := by
  rw [oscInit_eq]
  refine .ite (.refl s) ?_
  split
  · exact .raise _ s
  · exact .setOsc _ s

theorem SameBlock.regRd (a : Addr) (s : State) : SameBlock s (regRd a s) := by
  unfold Machine.regRd
  split
  · exact .reply _ s
  · exact .replyFault s

theorem SameBlock.bufRd (a : Addr) (s : State) : SameBlock s (bufRd a s) := by
  unfold Machine.bufRd
  split
  · exact .reply _ s
  · exact .replyFault s

theorem SameBlock.bufWr (a : Addr) (w : Word) (s : State) : SameBlock s (bufWr a w s) := by
  rw [bufWr_eq]
  refine .ite (.refl s) ?_
  split
  · exact .of_fields rfl rfl
  · exact .raise _ s

/-- Every operation but REG.WR keeps the block; REG.WR comes after, since a write to CMD runs one of these. -/
theorem SameBlock.effect_of_ne_regWr {i : Instr} (hi : ∀ a w, i ≠ .regWr a w) (s : State) : SameBlock s (effect i s) := by
  cases i with
  | oscInit => exact .oscInit s
  | oscReset => exact .gated (.setOsc _ s)
  | oscFill => exact .gated (.ite (.of_fields rfl rfl) (.raise _ s))
  | bqDesign k n => exact .gated (.withStage ⟨rfl, by simp⟩)
  | bqLoad k => exact .gated (.withStage (.setStage _ _ s))
  | bqReset k => exact .gated (.withStage (.setStage _ _ s))
  | bqApply k => exact .gated (.withStage (.ite ⟨rfl, by simp⟩ (.raise _ s)))
  | casBuild => exact .gated (.buildFrom _ _ s)
  | casReset => exact .gated (.of_fields rfl (by simp))
  | casApply => exact .gated (.ite (.cascadeFrom _ _ s) (.raise _ s))
  | regRd a => exact .regRd a s
  | regWr a w => exact absurd rfl (hi a w)
  | bufRd a => exact .bufRd a s
  | bufWr a w => exact .bufWr a w s

theorem SameBlock.runCommand (w : Word) (s : State) : SameBlock s (runCommand w s) := by
  rw [runCommand_eq]
  split
  next i h =>
    obtain ⟨-, hi, -, -⟩ := decodeCmd_isCommand h
    exact .effect_of_ne_regWr hi s
  next => exact .raise _ s

theorem SameBlock.regWrite (r : Reg) (w : Word) (s : State) : SameBlock s (r.write w s) := by
  cases r with
  | cmd => exact .runCommand w s
  | bufLen => exact .ite (.raise _ s) (.of_fields rfl rfl)
  | oscH => exact .ite (.setOsc _ s) (.raise _ s)
  | pFs | pF0 | pQ | pGain | cB0 | cB1 | cB2 | cA1 | cA2 => exact .of_fields rfl rfl
  | status | capStages | capBuf | oscCnt | oscLevel | stage => exact .raise _ s

theorem SameBlock.regWr (a : Addr) (w : Word) (s : State) : SameBlock s (regWr a w s) := by
  rw [regWr_eq]
  refine .ite (.refl s) ?_
  split
  · exact .regWrite _ w s
  · exact .raise _ s

theorem SameBlock.effect (i : Instr) (s : State) : SameBlock s (effect i s) := by
  by_cases hi : ∃ a w, i = .regWr a w
  · obtain ⟨a, w, rfl⟩ := hi
    exact .regWr a w s
  · exact .effect_of_ne_regWr (fun a w h => hi ⟨a, w, h⟩) s

theorem SameBlock.rejectTxn (x : Txn) (r : Reject) (s : State) : SameBlock s (s.rejectTxn x r) := by
  cases x with
  | read a => exact .replyFault s
  | write a w =>
    rw [rejectTxn_write]
    refine .ite (.refl s) ?_
    cases r with
    | illegalCmd => exact .raise _ s
    | unmapped => exact .raise _ s

/-- Hardware reset builds the block anew with its own parameters (R220, R37). -/
theorem SameBlock.hardwareReset (s : State) : SameBlock s s.hardwareReset :=
  .of_fields rfl (powerOn_nstages s.cfg s.nstages)

/-- Settles O13, by what a step can do: it rests, resets, performs an operation or rejects a transaction. -/
theorem stepKeepsTheParameters : Obligations.StepKeepsTheParameters := by
  intro s t h
  obtain ⟨-, rfl⟩ | ⟨rest, -, rfl⟩ | ⟨x, rest, i, -, -, rfl⟩ | ⟨x, rest, r, -, -, rfl⟩ := step_cases h
  · exact SameBlock.refl t
  · exact SameBlock.hardwareReset { s with pending := rest }
  · exact SameBlock.effect i { s with pending := rest }
  · exact SameBlock.rejectTxn x r { s with pending := rest }

end Sys2Proof.Machine
end

section
/-!
PROOFS, scope (00_scope): the classes and the signs of the results of the dotted operators (R11 to R13).
-/
namespace Sys2Proof.Machine

/-! ### The classes of a word -/

theorem Fp.isNaN_of_isFinite {a : Word} (h : Fp.isFinite a = true) : Fp.isNaN a = false := by
  simp only [Fp.isFinite, bne_iff_ne] at h
  simp [Fp.isNaN, h]

theorem Fp.isInf_of_isFinite {a : Word} (h : Fp.isFinite a = true) : Fp.isInf a = false := by
  simp only [Fp.isFinite, bne_iff_ne] at h
  simp [Fp.isInf, h]

theorem Fp.isZero_of_isInf {a : Word} (h : Fp.isInf a = true) : Fp.isZero a = false := by
  simp only [Fp.isInf, Bool.and_eq_true, beq_iff_eq] at h
  simp [Fp.isZero, h.1]

theorem Fp.mag_of_isZero {a : Word} (h : Fp.isZero a = true) : Fp.mag a = 0 := by
  simp only [Fp.isZero, Bool.and_eq_true, beq_iff_eq] at h
  simp [Fp.mag, h]

theorem Fp.sign_inf (s : Bool) : Fp.sign (Fp.inf s) = s := Fp.sign_pack _ _ (by norm_num)

theorem Fp.sign_zero (s : Bool) : Fp.sign (Fp.zero s) = s := Fp.sign_pack _ _ (by norm_num)

/-! ### Each operation without a NaN operand -/

theorem Fp.add_of_not_isNaN {a b : Word} (ha : Fp.isNaN a = false) (hb : Fp.isNaN b = false) :
    Fp.add a b = Fp.addWith (Fp.nan .add a b) a b := by
  simp [Fp.add, ha, hb]

theorem Fp.sub_of_not_isNaN {a b : Word} (ha : Fp.isNaN a = false) (hb : Fp.isNaN b = false) :
    Fp.sub a b = Fp.addWith (Fp.nan .sub a b) a (Fp.neg b) := by
  simp [Fp.sub, ha, hb]

theorem Fp.mul_of_not_isNaN {a b : Word} (ha : Fp.isNaN a = false) (hb : Fp.isNaN b = false) :
    Fp.mul a b =
      if Fp.isInf a = true ∨ Fp.isInf b = true then
        if Fp.isZero a = true ∨ Fp.isZero b = true then Fp.nan .mul a b else Fp.inf (Fp.sign a != Fp.sign b)
      else Fp.round (Fp.sign a != Fp.sign b) (Fp.mag a * Fp.mag b) (2 ^ 1074) := by
  simp [Fp.mul, ha, hb, -Nat.reducePow]

theorem Fp.div_of_not_isNaN {a b : Word} (ha : Fp.isNaN a = false) (hb : Fp.isNaN b = false) :
    Fp.div a b =
      if Fp.isInf a = true then
        if Fp.isInf b = true then Fp.nan .div a b else Fp.inf (Fp.sign a != Fp.sign b)
      else if Fp.isInf b = true then Fp.zero (Fp.sign a != Fp.sign b)
      else if Fp.isZero b = true then
        if Fp.isZero a = true then Fp.nan .div a b else Fp.inf (Fp.sign a != Fp.sign b)
      else Fp.round (Fp.sign a != Fp.sign b) (Fp.mag a * 2 ^ 1074) (Fp.mag b) := by
  simp [Fp.div, ha, hb, -Nat.reducePow]

/-! ### Which operations give a NaN -/

theorem Fp.isNaN_addFinite (a b : Word) : Fp.isNaN (Fp.addFinite a b) = false := by
  unfold Fp.addFinite
  dsimp only
  split
  · exact Fp.isNaN_zero _
  · exact Fp.isNaN_round _ _ _

/-- A sum of two words that are no NaN is one exactly for infinities of opposite signs. -/
theorem Fp.isNaN_addWith_iff {nan a b : Word} (hn : Fp.isNaN nan = true) (ha : Fp.isNaN a = false) (hb : Fp.isNaN b = false) :
    Fp.isNaN (Fp.addWith nan a b) = true ↔ Fp.isInf a = true ∧ Fp.isInf b = true ∧ Fp.sign a ≠ Fp.sign b := by
  unfold Fp.addWith
  by_cases hia : Fp.isInf a = true
  · by_cases hib : Fp.isInf b = true ∧ Fp.sign a ≠ Fp.sign b
    · simp [hia, hib, hn]
    · have hc : ¬(Fp.isInf b && Fp.sign a != Fp.sign b) = true := by simpa using hib
      rw [if_pos hia, if_neg hc, ha]
      exact iff_of_false Bool.false_ne_true fun h => hib h.2
  · by_cases hib : Fp.isInf b = true
    · simp [hia, hib, hb]
    · simp [hia, hib, Fp.isNaN_addFinite]

/-- An operation gives a NaN for a NaN operand, and otherwise when it is invalid (R12, R13). -/
theorem Fp.isNaN_iff_of_operands {a b r : Word} {op : FpOp} {invalid : Prop}
    (hnan : Fp.isNaN a = true ∨ Fp.isNaN b = true → r = Fp.nan op a b)
    (hnum : Fp.isNaN a = false → Fp.isNaN b = false → (Fp.isNaN r = true ↔ invalid)) :
    Fp.isNaN r = true ↔ Fp.isNaN a = true ∨ Fp.isNaN b = true ∨ invalid := by
  by_cases h : Fp.isNaN a = true ∨ Fp.isNaN b = true
  · rw [hnan h, ← or_assoc]
    exact iff_of_true (Fp.isNaN_nan _ _ _) (.inl h)
  · obtain ⟨ha, hb⟩ := not_or.mp h
    rw [hnum (Bool.eq_false_of_not_eq_true ha) (Bool.eq_false_of_not_eq_true hb)]
    simp [ha, hb]

theorem Fp.isNaN_add_iff (a b : Word) :
    Fp.isNaN (Fp.add a b) = true ↔
      Fp.isNaN a = true ∨ Fp.isNaN b = true ∨ (Fp.isInf a = true ∧ Fp.isInf b = true ∧ Fp.sign a ≠ Fp.sign b) := by
  refine Fp.isNaN_iff_of_operands (Fp.add_of_isNaN a b) fun ha hb => ?_
  rw [Fp.add_of_not_isNaN ha hb, Fp.isNaN_addWith_iff (Fp.isNaN_nan _ _ _) ha hb]

theorem Fp.isNaN_sub_iff (a b : Word) :
    Fp.isNaN (Fp.sub a b) = true ↔
      Fp.isNaN a = true ∨ Fp.isNaN b = true ∨ (Fp.isInf a = true ∧ Fp.isInf b = true ∧ Fp.sign a = Fp.sign b) := by
  refine Fp.isNaN_iff_of_operands (Fp.sub_of_isNaN a b) fun ha hb => ?_
  rw [Fp.sub_of_not_isNaN ha hb, Fp.isNaN_addWith_iff (Fp.isNaN_nan _ _ _) ha ((Fp.isNaN_neg b).trans hb)]
  simp [Fp.isInf_neg, Fp.sign_neg]

theorem Fp.isNaN_mul_iff (a b : Word) :
    Fp.isNaN (Fp.mul a b) = true ↔
      Fp.isNaN a = true ∨ Fp.isNaN b = true ∨ (Fp.isInf a = true ∧ Fp.isZero b = true) ∨
        (Fp.isZero a = true ∧ Fp.isInf b = true) := by
  refine Fp.isNaN_iff_of_operands (Fp.mul_of_isNaN a b) fun ha hb => ?_
  rw [Fp.mul_of_not_isNaN ha hb]
  by_cases hinf : Fp.isInf a = true ∨ Fp.isInf b = true
  · have hza := Fp.isZero_of_isInf (a := a)
    have hzb := Fp.isZero_of_isInf (a := b)
    rw [if_pos hinf]
    split
    next hzero => simp only [Fp.isNaN_nan, true_iff]; grind
    next hzero => simp only [Fp.isNaN_inf]; grind
  · rw [if_neg hinf, Fp.isNaN_round]
    exact iff_of_false Bool.false_ne_true (by tauto)

theorem Fp.isNaN_div_iff (a b : Word) :
    Fp.isNaN (Fp.div a b) = true ↔
      Fp.isNaN a = true ∨ Fp.isNaN b = true ∨ (Fp.isInf a = true ∧ Fp.isInf b = true) ∨
        (Fp.isZero a = true ∧ Fp.isZero b = true) := by
  refine Fp.isNaN_iff_of_operands (Fp.div_of_isNaN a b) fun ha hb => ?_
  rw [Fp.div_of_not_isNaN ha hb]
  by_cases hia : Fp.isInf a = true
  · by_cases hib : Fp.isInf b = true
    · simp [hia, hib, Fp.isNaN_nan]
    · simp [hia, hib, Fp.isNaN_inf, Fp.isZero_of_isInf hia]
  · by_cases hib : Fp.isInf b = true
    · simp [hia, hib, Fp.isNaN_zero, Fp.isZero_of_isInf hib]
    · by_cases hzb : Fp.isZero b = true
      · by_cases hza : Fp.isZero a = true
        · simp [hia, hib, hza, hzb, Fp.isNaN_nan]
        · simp [hia, hib, hza, hzb, Fp.isNaN_inf]
      · simp [hia, hib, hzb, Fp.isNaN_round, -Nat.reducePow]

/-- Settles O58, one operation at a time. -/
theorem nanResults : Obligations.NaNResults := fun a b =>
  ⟨Fp.isNaN_add_iff a b, Fp.isNaN_sub_iff a b, Fp.isNaN_mul_iff a b, Fp.isNaN_div_iff a b⟩

/-! ### Signs -/

theorem Fp.mul_isNaN_or_sign (a b : Word) :
    Fp.isNaN (Fp.mul a b) = true ∨ Fp.sign (Fp.mul a b) = (Fp.sign a ^^ Fp.sign b) := by
  unfold Fp.mul
  dsimp only
  split
  · exact .inl (Fp.isNaN_nan _ _ _)
  · split
    · split
      · exact .inl (Fp.isNaN_nan _ _ _)
      · exact .inr (Fp.sign_inf _)
    · exact .inr (Fp.sign_round _ _ _)

theorem Fp.div_isNaN_or_sign (a b : Word) :
    Fp.isNaN (Fp.div a b) = true ∨ Fp.sign (Fp.div a b) = (Fp.sign a ^^ Fp.sign b) := by
  unfold Fp.div
  dsimp only
  split
  · exact .inl (Fp.isNaN_nan _ _ _)
  · split
    · split
      · exact .inl (Fp.isNaN_nan _ _ _)
      · exact .inr (Fp.sign_inf _)
    · split
      · exact .inr (Fp.sign_zero _)
      · split
        · split
          · exact .inl (Fp.isNaN_nan _ _ _)
          · exact .inr (Fp.sign_inf _)
        · exact .inr (Fp.sign_round _ _ _)

theorem Fp.addWith_of_isFinite {nan a b : Word} (ha : Fp.isFinite a = true) (hb : Fp.isFinite b = true) :
    Fp.addWith nan a b = Fp.addFinite a b := by
  simp [Fp.addWith, Fp.isInf_of_isFinite ha, Fp.isInf_of_isFinite hb]

theorem Fp.add_of_isFinite {a b : Word} (ha : Fp.isFinite a = true) (hb : Fp.isFinite b = true) :
    Fp.add a b = Fp.addFinite a b := by
  rw [Fp.add_of_not_isNaN (Fp.isNaN_of_isFinite ha) (Fp.isNaN_of_isFinite hb), Fp.addWith_of_isFinite ha hb]

theorem Fp.zero_eq (s : Bool) : Fp.zero s = if s = true then 0x8000000000000000#64 else 0#64 := by
  cases s <;> rfl

/-- An exact sum of zero is `-0` when both operands are negative, else `+0` (R12). -/
theorem Fp.add_of_sum_eq_zero {a b : Word} (ha : Fp.isFinite a = true) (hb : Fp.isFinite b = true)
    (h : Fp.value a + Fp.value b = 0) :
    Fp.add a b = if Fp.sign a = true ∧ Fp.sign b = true then 0x8000000000000000#64 else 0#64 := by
  rw [Fp.add_of_isFinite ha hb, Fp.addFinite]
  simp only [h, if_true, Fp.zero_eq, Bool.and_eq_true]

/-- Settles O59: a product or quotient is a NaN or has its sign; the other clauses are those of `addFinite` and `neg`. -/
theorem signsOfResults : Obligations.SignsOfResults := fun a b =>
  ⟨fun h => (Fp.mul_isNaN_or_sign a b).resolve_left (by simp [h]),
    fun h => (Fp.div_isNaN_or_sign a b).resolve_left (by simp [h]),
    Fp.add_of_sum_eq_zero, Fp.sign_neg a, Fp.mag_neg a, Fp.isNaN_neg a, Fp.neg_neg a⟩

end Sys2Proof.Machine
end

section
/-!
PROOFS, scope (00_scope): `round_half_away` (R15).
-/
namespace Sys2Proof.Machine

/-! ### Rounding to the nearest integer, ties away from zero -/

theorem Fp.natAbs_roundHalfAway (v : Word) :
    (Fp.roundHalfAway v).natAbs = (2 * Fp.mag v + 2 ^ 1074) / (2 * 2 ^ 1074) := by
  rw [← pow_succ']
  unfold Fp.roundHalfAway
  dsimp only
  split
  · rw [Int.natAbs_neg, Int.natAbs_natCast]
  · rw [Int.natAbs_natCast]

/-- The quotient `m / k` rounded half up is within half a unit of it, and above it at a tie. -/
theorem halfUp_bounds (m : Nat) {k : Nat} (hk : 0 < k) :
    2 * ((2 * m + k) / (2 * k)) * k ≤ 2 * m + k ∧ 2 * m < 2 * ((2 * m + k) / (2 * k)) * k + k := by
  have hlo := Nat.div_mul_le_self (2 * m + k) (2 * k)
  have hhi := Nat.lt_div_mul_add (a := 2 * m + k) (b := 2 * k) (by omega)
  constructor <;> linarith

/-- Settles O23: the magnitude is the operand's rounded half up, the sign is the operand's. -/
theorem roundHalfAwayIsNearest : Obligations.RoundHalfAwayIsNearest := by
  intro v _ r
  obtain ⟨hlo, hhi⟩ := halfUp_bounds (Fp.mag v) (k := 2 ^ 1074) (by positivity)
  rw [← Fp.natAbs_roundHalfAway] at hlo hhi
  refine ⟨Int.sub_right_le_of_le_add (mod_cast hlo), mod_cast hhi, fun hs => ?_, fun hs => ?_⟩
  · simp only [r, Fp.roundHalfAway, hs, if_true]
    exact Int.neg_nonpos_of_nonneg (Int.natCast_nonneg _)
  · simp only [r, Fp.roundHalfAway, hs, Bool.false_eq_true, if_false]
    exact Int.natCast_nonneg _
end Sys2Proof.Machine
end

section
/-!
PROOFS, scope (00_scope): each dotted operator rounds to nearest, ties to even (R11, R12). The distance of a magnitude from the exact
quotient is measured in parts of its denominator, so that every comparison is one of whole numbers.
-/
namespace Sys2Proof.Machine

/-! ### The distance of a magnitude from an exact result -/

/-- How far `m` is from the exact `num / den`, in parts of `1 / den`. -/
def Fp.gap (num den m : Nat) : Int := |(m : Int) * den - num|

theorem Fp.gap_zero (num den : Nat) : Fp.gap num den 0 = num := by simp [Fp.gap]

/-- Measured in units of `u`, the denominator takes the unit. -/
theorem Fp.gap_mul (num den m u : Nat) : Fp.gap num den (m * u) = Fp.gap num (den * u) m := by
  unfold Fp.gap
  push_cast
  rw [mul_assoc, mul_comm (u : Int)]

/-- Two whole numbers are at least one apart. -/
theorem Fp.den_le_gap_add_gap (num den : Nat) {j k : Nat} (h : k ≠ j) : (den : Int) ≤ Fp.gap num den j + Fp.gap num den k := by
  have hjk : 1 ≤ |(j : Int) - k| := Int.one_le_abs (by omega)
  calc (den : Int) ≤ |(j : Int) - k| * den := le_mul_of_one_le_left (Int.natCast_nonneg _) hjk
    _ = |((j : Int) * den - num) - ((k : Int) * den - num)| := by
      rw [← abs_of_nonneg (Int.natCast_nonneg den), ← abs_mul, abs_of_nonneg (Int.natCast_nonneg den)]
      congr 1
      ring
    _ ≤ Fp.gap num den j + Fp.gap num den k := abs_sub _ _

theorem Fp.gap_of_le {num den m : Nat} (h : m * den ≤ num) : Fp.gap num den m = (num : Int) - (m : Int) * den := by
  have h' : (m : Int) * den ≤ num := mod_cast h
  rw [Fp.gap, abs_sub_comm, abs_of_nonneg (sub_nonneg.mpr h')]

theorem Fp.gap_of_ge {num den m : Nat} (h : num ≤ m * den) : Fp.gap num den m = (m : Int) * den - num := by
  have h' : (num : Int) ≤ (m : Int) * den := mod_cast h
  rw [Fp.gap, abs_of_nonneg (sub_nonneg.mpr h')]

/-- Below the exact result, the lesser magnitude is the farther one. -/
theorem Fp.gap_lt_gap {num den g m : Nat} (hden : 0 < den) (hg : g * den ≤ num) (hm : m < g) :
    Fp.gap num den g < Fp.gap num den m := by
  have hlt : m * den < g * den := Nat.mul_lt_mul_of_pos_right hm hden
  rw [Fp.gap_of_le hg, Fp.gap_of_le (hlt.le.trans hg)]
  exact sub_lt_sub_left (mod_cast hlt) _

/-! ### The nearest integer, ties to even -/

theorem Fp.div_le_nearestEven (num den : Nat) : num / den ≤ Fp.nearestEven num den := by
  unfold Fp.nearestEven
  dsimp only
  split <;> omega

theorem Fp.nearestEven_le_div_add_one (num den : Nat) : Fp.nearestEven num den ≤ num / den + 1 := by
  unfold Fp.nearestEven
  dsimp only
  split <;> omega

/-- `nearestEven` is within half a unit of the quotient, and even at exactly half a unit (R12). -/
theorem Fp.gap_nearestEven (num : Nat) {den : Nat} (hden : 0 < den) :
    2 * Fp.gap num den (Fp.nearestEven num den) ≤ den ∧
      (2 * Fp.gap num den (Fp.nearestEven num den) = den → Fp.nearestEven num den % 2 = 0) := by
  have hr := Nat.mod_lt num hden
  have hq := Nat.div_add_mod' num den
  have hq1 : (num / den + 1) * den = num / den * den + den := Nat.succ_mul _ _
  unfold Fp.nearestEven
  dsimp only
  split
  next hup =>
    simp only [Bool.or_eq_true, Bool.and_eq_true, decide_eq_true_eq, beq_iff_eq] at hup
    rw [Fp.gap_of_ge (by omega)]
    omega
  next hdown =>
    simp only [Bool.or_eq_true, Bool.and_eq_true, decide_eq_true_eq, beq_iff_eq, not_or, not_and] at hdown
    rw [Fp.gap_of_le (by omega)]
    omega

/-- No whole number is nearer to the quotient than `nearestEven`, and only an even one ties with another. -/
theorem Fp.gap_nearestEven_le (num : Nat) {den : Nat} (hden : 0 < den) (k : Nat) :
    Fp.gap num den (Fp.nearestEven num den) ≤ Fp.gap num den k ∧
      (Fp.gap num den (Fp.nearestEven num den) = Fp.gap num den k → k ≠ Fp.nearestEven num den →
        Fp.nearestEven num den % 2 = 0) := by
  obtain ⟨hhalf, htie⟩ := Fp.gap_nearestEven num hden
  by_cases hk : k = Fp.nearestEven num den
  · exact ⟨by rw [hk], fun _ hne => absurd hk hne⟩
  · have := Fp.den_le_gap_add_gap num den hk
    exact ⟨by omega, fun heq _ => htie (by omega)⟩

/-- A quotient rounds to an even `n` or above it exactly when it is at least `n` less one half. -/
theorem Fp.le_nearestEven_iff {num den n : Nat} (hden : 0 < den) (hn : n % 2 = 0) :
    n ≤ Fp.nearestEven num den ↔ 2 * n * den ≤ 2 * num + den := by
  obtain ⟨hhalf, htie⟩ := Fp.gap_nearestEven num hden
  have habs := abs_le.mp (show |((Fp.nearestEven num den : Nat) : Int) * den - num| ≤ Fp.gap num den _ from le_rfl)
  obtain ⟨hlo, hhi⟩ := habs
  constructor
  · intro h
    have : n * den ≤ Fp.nearestEven num den * den := Nat.mul_le_mul_right _ h
    zify at this ⊢
    linarith
  · intro h
    by_contra hlt
    have hne : (Fp.nearestEven num den + 1) * den ≤ n * den := Nat.mul_le_mul_right _ (by omega)
    have hnext : n ≠ Fp.nearestEven num den + 1 := fun heq => by
      have : 2 * Fp.gap num den (Fp.nearestEven num den) = den := by
        subst heq
        zify at h
        linarith
      have := htie this
      omega
    have hstep : (Fp.nearestEven num den + 1) * den + den ≤ n * den := by
      rw [← Nat.succ_mul]
      exact Nat.mul_le_mul_right _ (by omega)
    zify at h hstep
    have : (0 : Int) < den := mod_cast hden
    linarith

/-! ### The unit in the last place -/

theorem Fp.lt_two_pow_ulpShift (m : Nat) : m < 2 ^ (53 + Fp.ulpShift m) :=
  Nat.lt_of_lt_of_le Nat.lt_log2_self (Nat.pow_le_pow_right (by omega) (by unfold Fp.ulpShift; omega))

/-- A magnitude above the subnormals' unit fills its 53 bits. -/
theorem Fp.two_pow_ulpShift_le {m : Nat} (h : Fp.ulpShift m ≠ 0) : 2 ^ (52 + Fp.ulpShift m) ≤ m := by
  have hm : m ≠ 0 := by
    rintro rfl
    exact h (by decide)
  have hlog : 52 + Fp.ulpShift m = Nat.log2 m := by
    unfold Fp.ulpShift at h ⊢
    omega
  rw [hlog]
  exact Nat.log2_self_le hm

/-- The exponent of the unit in the last place of the result for `num / den`. -/
def Fp.ulpExp (num den : Nat) : Nat := Fp.ulpShift (num / den)

/-- The result's magnitude in units of its last place, before overflow is looked at. -/
def Fp.significand (num den : Nat) : Nat := Fp.nearestEven num (den * 2 ^ Fp.ulpExp num den)

theorem Fp.roundMag_eq (num den : Nat) :
    Fp.roundMag num den = min (Fp.ulpExp num den * 2 ^ 52 + Fp.significand num den) (2047 * 2 ^ 52) := rfl

theorem Fp.div_ulp_lt (num den : Nat) : num / (den * 2 ^ Fp.ulpExp num den) < 2 ^ 53 := by
  rw [← Nat.div_div_eq_div_mul]
  apply Nat.div_lt_of_lt_mul
  rw [← pow_add, add_comm]
  exact Fp.lt_two_pow_ulpShift _

theorem Fp.significand_le (num den : Nat) : Fp.significand num den ≤ 2 ^ 53 :=
  (Fp.nearestEven_le_div_add_one _ _).trans (Fp.div_ulp_lt num den)

/-- With a unit above the least one, `num / den` is at least `2^52` units. -/
theorem Fp.two_pow_mul_le {num den : Nat} (h : Fp.ulpExp num den ≠ 0) :
    2 ^ 52 * 2 ^ Fp.ulpExp num den * den ≤ num := by
  rw [← pow_add]
  exact (Nat.mul_le_mul_right _ (Fp.two_pow_ulpShift_le h)).trans (Nat.div_mul_le_self num den)

theorem Fp.le_significand {num den : Nat} (hden : 0 < den) (h : Fp.ulpExp num den ≠ 0) :
    2 ^ 52 ≤ Fp.significand num den := by
  refine le_trans ?_ (Fp.div_le_nearestEven _ _)
  rw [Nat.le_div_iff_mul_le (by positivity), mul_comm den, ← mul_assoc]
  exact Fp.two_pow_mul_le h

/-! ### The magnitude of a rounded word -/

/-- A significand of 53 bits stands for itself in its unit, also when it has carried to `2^53`. -/
theorem Fp.mag_pack (s : Bool) {e q : Nat} (hq : q ≤ 2 ^ 53) (he : e ≠ 0 → 2 ^ 52 ≤ q) (hfin : e * 2 ^ 52 + q < 2047 * 2 ^ 52) :
    Fp.mag (Fp.pack s (e * 2 ^ 52 + q)) = q * 2 ^ e := by
  have hbits : e * 2 ^ 52 + q < 2 ^ 63 := by omega
  unfold Fp.mag
  rw [Fp.expField_pack _ _ hbits, Fp.fraction_pack _ _ hbits]
  rcases Nat.lt_or_ge q (2 ^ 52) with hsub | hnormal
  · obtain rfl : e = 0 := by
      by_contra h
      exact absurd (he h) (by omega)
    rw [if_pos (by omega)]
    omega
  · rcases Nat.lt_or_eq_of_le hq with hlt | rfl
    · have hexp : (e * 2 ^ 52 + q) / 2 ^ 52 = e + 1 := by omega
      have hfrac : (e * 2 ^ 52 + q) % 2 ^ 52 = q - 2 ^ 52 := by omega
      rw [hexp, hfrac, if_neg (by omega), Nat.add_sub_cancel, Nat.add_sub_cancel' hnormal]
    · have hexp : (e * 2 ^ 52 + 2 ^ 53) / 2 ^ 52 = e + 2 := by omega
      have hfrac : (e * 2 ^ 52 + 2 ^ 53) % 2 ^ 52 = 0 := by omega
      rw [hexp, hfrac, if_neg (by omega), Nat.add_zero, show e + 2 - 1 = e + 1 from rfl, pow_succ]
      ring

/-- Every magnitude is a whole number of units of `2^e`, or too small to need them. -/
theorem Fp.mag_dvd_or_lt (y : Word) (e : Nat) : (∃ k, Fp.mag y = k * 2 ^ e) ∨ Fp.mag y < 2 ^ 52 * 2 ^ e := by
  have hf : Fp.fraction y < 2 ^ 52 := by
    rw [Fp.fraction_eq]
    exact Nat.mod_lt _ (by norm_num)
  unfold Fp.mag
  split
  next hsub => exact .inr (lt_of_lt_of_le hf (Nat.le_mul_of_pos_right _ (by positivity)))
  next hnormal =>
    rcases Nat.lt_or_ge (Fp.expField y - 1) e with hlt | hge
    · right
      have hpow : 2 * 2 ^ (Fp.expField y - 1) ≤ 2 ^ e := by
        rw [← pow_succ']
        exact Nat.pow_le_pow_right (by omega) hlt
      calc (2 ^ 52 + Fp.fraction y) * 2 ^ (Fp.expField y - 1)
          < 2 ^ 53 * 2 ^ (Fp.expField y - 1) := Nat.mul_lt_mul_of_pos_right (by omega) (by positivity)
        _ = 2 ^ 52 * (2 * 2 ^ (Fp.expField y - 1)) := by ring
        _ ≤ 2 ^ 52 * 2 ^ e := Nat.mul_le_mul_left _ hpow
    · left
      refine ⟨(2 ^ 52 + Fp.fraction y) * 2 ^ (Fp.expField y - 1 - e), ?_⟩
      rw [mul_assoc, ← pow_add, Nat.sub_add_cancel hge]

/-- No word's magnitude is nearer to `num / den` than the significand in its unit, and only an even one ties with another. -/
theorem Fp.gap_significand_le {num den : Nat} (hden : 0 < den) (y : Word) :
    Fp.gap num den (Fp.significand num den * 2 ^ Fp.ulpExp num den) ≤ Fp.gap num den (Fp.mag y) ∧
      (Fp.gap num den (Fp.significand num den * 2 ^ Fp.ulpExp num den) = Fp.gap num den (Fp.mag y) →
        Fp.mag y ≠ Fp.significand num den * 2 ^ Fp.ulpExp num den → Fp.significand num den % 2 = 0) := by
  have hunit : 0 < den * 2 ^ Fp.ulpExp num den := by positivity
  have hgrid := fun k => Fp.gap_nearestEven_le num hunit k
  by_cases hk : ∃ k, Fp.mag y = k * 2 ^ Fp.ulpExp num den
  · obtain ⟨k, hk⟩ := hk
    rw [hk, Fp.gap_mul, Fp.gap_mul]
    exact ⟨(hgrid k).1, fun heq hne => (hgrid k).2 heq fun h => hne (by rw [h]; rfl)⟩
  · have he : Fp.ulpExp num den ≠ 0 := fun h => hk ⟨Fp.mag y, by rw [h, pow_zero, mul_one]⟩
    have hbelow := Fp.gap_lt_gap hden (Fp.two_pow_mul_le he) ((Fp.mag_dvd_or_lt y _).resolve_left hk)
    have hnear := (hgrid (2 ^ 52)).1
    rw [← Fp.gap_mul, ← Fp.gap_mul] at hnear
    have hlt : Fp.gap num den (Fp.significand num den * 2 ^ Fp.ulpExp num den) < Fp.gap num den (Fp.mag y) :=
      lt_of_le_of_lt hnear hbelow
    exact ⟨hlt.le, fun heq => absurd heq hlt.ne⟩

/-! ### Overflow -/

/-- The bits pass those of the greatest significand with unit `2^t` exactly when the exact result is at least that magnitude and half
its last place. -/
theorem Fp.bits_ge_iff {num den : Nat} (hden : 0 < den) (t : Nat) :
    (t + 2) * 2 ^ 52 ≤ Fp.ulpExp num den * 2 ^ 52 + Fp.significand num den ↔ (2 ^ 54 - 1) * 2 ^ t * den ≤ 2 * num := by
  rcases Nat.lt_trichotomy (Fp.ulpExp num den) t with he | he | he
  · have hsig := Fp.significand_le num den
    refine iff_of_false (by omega) (Nat.not_le.mpr ?_)
    have hpow : 2 * 2 ^ Fp.ulpExp num den ≤ 2 ^ t := by
      rw [← pow_succ']
      exact Nat.pow_le_pow_right (by omega) he
    have hnum : num < 2 ^ 53 * 2 ^ Fp.ulpExp num den * den := by
      rw [← pow_add]
      exact (Nat.div_lt_iff_lt_mul hden).mp (Fp.lt_two_pow_ulpShift _)
    calc 2 * num < 2 * (2 ^ 53 * 2 ^ Fp.ulpExp num den * den) := by omega
      _ = 2 ^ 53 * (2 * 2 ^ Fp.ulpExp num den) * den := by ring
      _ ≤ (2 ^ 54 - 1) * 2 ^ t * den := by gcongr; norm_num
  · have hnear := Fp.le_nearestEven_iff (num := num) (n := 2 ^ 53) (den := den * 2 ^ t) (by positivity) (by norm_num)
    have hsig : Fp.significand num den = Fp.nearestEven num (den * 2 ^ t) := by rw [Fp.significand, he]
    have hdist : 2 * 2 ^ 53 * (den * 2 ^ t) = (2 ^ 54 - 1) * 2 ^ t * den + den * 2 ^ t := by ring
    rw [he, hsig]
    omega
  · have hsig := Fp.le_significand hden (num := num) (by omega)
    have hnum := Fp.two_pow_mul_le (num := num) (den := den) (by omega)
    have hpow : 2 * 2 ^ t ≤ 2 ^ Fp.ulpExp num den := by
      rw [← pow_succ']
      exact Nat.pow_le_pow_right (by omega) he
    refine iff_of_true (by omega) ?_
    calc (2 ^ 54 - 1) * 2 ^ t * den ≤ 2 * (2 ^ 52 * (2 * 2 ^ t) * den) := by
          rw [← mul_assoc 2, ← mul_assoc 2, ← mul_assoc (2 * 2 ^ 52)]
          gcongr
          norm_num
      _ ≤ 2 * (2 ^ 52 * 2 ^ Fp.ulpExp num den * den) := by gcongr
      _ ≤ 2 * num := Nat.mul_le_mul_left _ hnum

/-- The bits reach the infinity's exactly when the exact result is at least the greatest finite value and half its last place. -/
theorem Fp.overflow_iff {num den : Nat} (hden : 0 < den) :
    2047 * 2 ^ 52 ≤ Fp.ulpExp num den * 2 ^ 52 + Fp.significand num den ↔ (2 ^ 54 - 1) * 2 ^ 2044 * den ≤ num := by
  rw [show 2047 = 2045 + 2 from rfl, Fp.bits_ge_iff hden, pow_succ' 2 2044, ← mul_assoc, mul_comm _ 2, mul_assoc 2, mul_assoc 2,
    Nat.mul_le_mul_left_iff (by norm_num)]

/-! ### A rounded word -/

theorem Fp.isFinite_round_iff (s : Bool) (num den : Nat) :
    Fp.isFinite (Fp.round s num den) = true ↔ Fp.ulpExp num den * 2 ^ 52 + Fp.significand num den < 2047 * 2 ^ 52 := by
  rw [Fp.isFinite, Fp.round, Fp.expField_pack _ _ (Fp.roundMag_lt _ _), Fp.roundMag_eq, bne_iff_ne]
  omega

theorem Fp.isInf_round_iff (s : Bool) (num den : Nat) :
    Fp.isInf (Fp.round s num den) = true ↔ 2047 * 2 ^ 52 ≤ Fp.ulpExp num den * 2 ^ 52 + Fp.significand num den := by
  rw [Fp.isInf, Fp.round, Fp.expField_pack _ _ (Fp.roundMag_lt _ _), Fp.fraction_pack _ _ (Fp.roundMag_lt _ _), Fp.roundMag_eq,
    Bool.and_eq_true, beq_iff_eq, beq_iff_eq]
  omega

theorem Fp.getLsbD_zero_pack (s : Bool) {bits : Nat} (h : bits < 2 ^ 63) : (Fp.pack s bits).getLsbD 0 = decide (bits % 2 = 1) := by
  rw [BitVec.getLsbD, Fp.toNat_pack _ _ h, Nat.testBit_zero]
  congr 1
  rw [eq_iff_iff]
  omega

/-- A finite result has the magnitude of its significand, and its last bit. -/
theorem Fp.round_of_isFinite {s : Bool} {num den : Nat} (hden : 0 < den) (h : Fp.isFinite (Fp.round s num den) = true) :
    Fp.mag (Fp.round s num den) = Fp.significand num den * 2 ^ Fp.ulpExp num den ∧
      (Fp.round s num den).getLsbD 0 = decide (Fp.significand num den % 2 = 1) := by
  have hfin := (Fp.isFinite_round_iff s num den).mp h
  rw [Fp.round, Fp.roundMag_eq, Nat.min_eq_left hfin.le]
  refine ⟨Fp.mag_pack s (Fp.significand_le num den) (Fp.le_significand hden) hfin, ?_⟩
  rw [Fp.getLsbD_zero_pack s (by omega)]
  congr 1
  rw [eq_iff_iff]
  omega

/-- A finite result is the nearest magnitude, its last bit 0 at a tie (R12). -/
theorem Fp.gap_round_le {s : Bool} {num den : Nat} (hden : 0 < den) (h : Fp.isFinite (Fp.round s num den) = true) (y : Word) :
    Fp.gap num den (Fp.mag (Fp.round s num den)) ≤ Fp.gap num den (Fp.mag y) ∧
      (Fp.gap num den (Fp.mag (Fp.round s num den)) = Fp.gap num den (Fp.mag y) → Fp.mag y ≠ Fp.mag (Fp.round s num den) →
        (Fp.round s num den).getLsbD 0 = false) := by
  obtain ⟨hmag, hlsb⟩ := Fp.round_of_isFinite hden h
  obtain ⟨hle, htie⟩ := Fp.gap_significand_le hden y
  rw [hmag, hlsb]
  exact ⟨hle, fun heq hne => by simp [htie heq hne]⟩

/-! ### Signed values -/

/-- The whole number of a sign and a magnitude. -/
def Fp.signed (s : Bool) (n : Nat) : Int := if s then -(n : Int) else n

theorem Fp.value_eq_signed (w : Word) : Fp.value w = Fp.signed (Fp.sign w) (Fp.mag w) := rfl

theorem Fp.signed_zero (s : Bool) : Fp.signed s 0 = 0 := by cases s <;> rfl

theorem Fp.abs_signed (s : Bool) (n : Nat) : |Fp.signed s n| = n := by cases s <;> simp [Fp.signed]

theorem Fp.signed_mul (s t : Bool) (m n : Nat) : Fp.signed (s != t) (m * n) = Fp.signed s m * Fp.signed t n := by
  cases s <;> cases t <;> simp [Fp.signed]

theorem Fp.signed_mul_natCast (s : Bool) (m n : Nat) : Fp.signed s (m * n) = Fp.signed s m * n := by
  rw [← Bool.bne_false s, Fp.signed_mul, Bool.bne_false]
  rfl

theorem Fp.signed_not (s : Bool) (n : Nat) : Fp.signed (!s) n = -Fp.signed s n := by
  cases s <;> simp [Fp.signed]

theorem Fp.signed_natAbs (v : Int) : Fp.signed (decide (v < 0)) v.natAbs = v := by
  by_cases h : v < 0
  · simp [Fp.signed, h, abs_of_neg]
  · simp [Fp.signed, h, abs_of_nonneg (not_lt.mp h)]

theorem Fp.abs_signed_mul_sub_same (s : Bool) (num den m : Nat) : |Fp.signed s m * den - Fp.signed s num| = Fp.gap num den m := by
  cases s with
  | false => rfl
  | true =>
    have h : Fp.signed true m * den - Fp.signed true num = -((m : Int) * den - num) := by
      simp only [Fp.signed, if_true]
      ring
    rw [h, abs_neg, Fp.gap]

theorem Fp.abs_signed_mul_sub_opposite (s : Bool) (num den m : Nat) :
    |Fp.signed (!s) m * den - Fp.signed s num| = (m : Int) * den + num := by
  have hnonneg : (0 : Int) ≤ (m : Int) * den + num := by positivity
  cases s with
  | false =>
    have h : Fp.signed (!false) m * den - Fp.signed false num = -((m : Int) * den + num) := by
      simp only [Fp.signed, Bool.not_false, if_true, Bool.false_eq_true, if_false]
      ring
    rw [h, abs_neg, abs_of_nonneg hnonneg]
  | true =>
    have h : Fp.signed (!true) m * den - Fp.signed true num = (m : Int) * den + num := by
      simp only [Fp.signed, Bool.not_true, if_true, Bool.false_eq_true, if_false]
      ring
    rw [h, abs_of_nonneg hnonneg]

/-! ### Correctly rounded results -/

/-- `r` is the binary64 nearest to `exact / scale`, ties to even, with IEEE 754's overflow (R12). -/
def Fp.RoundsTo (r : Word) (exact scale : Int) : Prop :=
  (Fp.isFinite r = true → ∀ y : Word,
    |Fp.value r * scale - exact| ≤ |Fp.value y * scale - exact| ∧
      (|Fp.value r * scale - exact| = |Fp.value y * scale - exact| → Fp.value y ≠ Fp.value r → r.getLsbD 0 = false)) ∧
  (Fp.isInf r = true ↔ (2 ^ 54 - 1) * 2 ^ 2044 * |scale| ≤ |exact|) ∧
  (Fp.isFinite r = true ∨ Fp.isInf r = true)

/-- A quotient does not change when both its terms change their signs. -/
theorem Fp.RoundsTo.neg {r : Word} {exact scale : Int} (h : Fp.RoundsTo r exact scale) : Fp.RoundsTo r (-exact) (-scale) := by
  have hdist (v : Int) : |v * -scale - -exact| = |v * scale - exact| := by
    rw [← abs_neg]
    congr 1
    ring
  simpa only [Fp.RoundsTo, hdist, abs_neg] using h

/-- The word made by rounding is the nearest to the signed quotient: among words of its sign by the magnitudes, and a word of the other
sign is no nearer than zero. -/
theorem Fp.round_nearest {s : Bool} {num den : Nat} (hden : 0 < den) (h : Fp.isFinite (Fp.round s num den) = true) (y : Word) :
    |Fp.value (Fp.round s num den) * den - Fp.signed s num| ≤ |Fp.value y * den - Fp.signed s num| ∧
      (|Fp.value (Fp.round s num den) * den - Fp.signed s num| = |Fp.value y * den - Fp.signed s num| →
        Fp.value y ≠ Fp.value (Fp.round s num den) → (Fp.round s num den).getLsbD 0 = false) := by
  rw [Fp.value_eq_signed, Fp.value_eq_signed, Fp.sign_round, Fp.abs_signed_mul_sub_same]
  by_cases hs : Fp.sign y = s
  · obtain ⟨hle, htie⟩ := Fp.gap_round_le hden h y
    rw [hs, Fp.abs_signed_mul_sub_same]
    exact ⟨hle, fun heq hne => htie heq fun hmag => hne (by rw [hmag])⟩
  · obtain ⟨hle, htie⟩ := Fp.gap_round_le hden h (Fp.zero false)
    have hzero : Fp.mag (Fp.zero false) = 0 := by decide
    rw [hzero, Fp.gap_zero] at hle htie
    rw [Bool.eq_not.mpr hs, Fp.abs_signed_mul_sub_opposite]
    have hy : (0 : Int) ≤ (Fp.mag y : Int) * den := by positivity
    refine ⟨by omega, fun heq hne => htie (by omega) fun hmag => hne ?_⟩
    have hprod : Fp.mag y * den = 0 := by zify; omega
    have hmagy : Fp.mag y = 0 := (Nat.mul_eq_zero.mp hprod).resolve_right hden.ne'
    rw [← hmag, hmagy, Fp.signed_zero, Fp.signed_zero]

theorem Fp.roundsTo_round (s : Bool) (num : Nat) {den : Nat} (hden : 0 < den) :
    Fp.RoundsTo (Fp.round s num den) (Fp.signed s num) den := by
  refine ⟨fun h => Fp.round_nearest hden h, ?_, ?_⟩
  · have hmax : ((2 ^ 54 - 1 : Nat) : Int) = 2 ^ 54 - 1 := by norm_num
    rw [Fp.isInf_round_iff, Fp.overflow_iff hden, Fp.abs_signed, Nat.abs_cast, ← Nat.cast_le (α := Int), Nat.cast_mul, Nat.cast_mul,
      Nat.cast_pow, hmax, Nat.cast_ofNat]
  · rw [Fp.isFinite_round_iff, Fp.isInf_round_iff]
    exact Nat.lt_or_ge _ _

/-- A negative divisor changes the signs of both terms of the exact quotient. -/
theorem Fp.roundsTo_round_bne (s t : Bool) (num : Nat) {den : Nat} (hden : 0 < den) :
    Fp.RoundsTo (Fp.round (s != t) num den) (Fp.signed s num) (Fp.signed t den) := by
  cases t with
  | false =>
    rw [Bool.bne_false]
    exact Fp.roundsTo_round s num hden
  | true =>
    have h := (Fp.roundsTo_round (!s) num hden).neg
    rwa [Fp.signed_not, Int.neg_neg, ← Bool.bne_true] at h

/-! ### The four operations on finite operands -/

theorem Fp.zero_eq_round (s : Bool) : Fp.zero s = Fp.round s 0 1 := by
  cases s <;> decide

theorem Fp.roundsTo_addFinite (a b : Word) : Fp.RoundsTo (Fp.addFinite a b) (Fp.value a + Fp.value b) 1 := by
  unfold Fp.addFinite
  dsimp only
  split
  next hzero =>
    rw [hzero, Fp.zero_eq_round, ← Fp.signed_zero (Fp.sign a && Fp.sign b)]
    exact Fp.roundsTo_round _ _ Nat.one_pos
  next hne =>
    have h := Fp.roundsTo_round (decide (Fp.value a + Fp.value b < 0)) (Fp.value a + Fp.value b).natAbs Nat.one_pos
    rwa [Fp.signed_natAbs] at h

theorem Fp.roundsTo_add {a b : Word} (ha : Fp.isFinite a = true) (hb : Fp.isFinite b = true) :
    Fp.RoundsTo (Fp.add a b) (Fp.value a + Fp.value b) 1 := by
  rw [Fp.add_of_isFinite ha hb]
  exact Fp.roundsTo_addFinite a b

theorem Fp.roundsTo_sub {a b : Word} (ha : Fp.isFinite a = true) (hb : Fp.isFinite b = true) :
    Fp.RoundsTo (Fp.sub a b) (Fp.value a - Fp.value b) 1 := by
  rw [Fp.sub_of_not_isNaN (Fp.isNaN_of_isFinite ha) (Fp.isNaN_of_isFinite hb),
    Fp.addWith_of_isFinite ha ((Fp.isFinite_neg b).trans hb), sub_eq_add_neg, ← Fp.value_neg]
  exact Fp.roundsTo_addFinite a (Fp.neg b)

theorem Fp.roundsTo_mul {a b : Word} (ha : Fp.isFinite a = true) (hb : Fp.isFinite b = true) :
    Fp.RoundsTo (Fp.mul a b) (Fp.value a * Fp.value b) (2 ^ 1074) := by
  have hinf : ¬(Fp.isInf a = true ∨ Fp.isInf b = true) := by simp [Fp.isInf_of_isFinite ha, Fp.isInf_of_isFinite hb]
  have h := Fp.roundsTo_round (Fp.sign a != Fp.sign b) (Fp.mag a * Fp.mag b) (den := 2 ^ 1074) (by positivity)
  rw [Fp.signed_mul, Nat.cast_pow] at h
  rw [Fp.mul_of_not_isNaN (Fp.isNaN_of_isFinite ha) (Fp.isNaN_of_isFinite hb), if_neg hinf]
  exact h

theorem Fp.roundsTo_div {a b : Word} (ha : Fp.isFinite a = true) (hb : Fp.isFinite b = true) (hne : Fp.value b ≠ 0) :
    Fp.RoundsTo (Fp.div a b) (Fp.value a * 2 ^ 1074) (Fp.value b) := by
  have hmag : Fp.mag b ≠ 0 := fun h => hne (by rw [Fp.value_eq_signed, h, Fp.signed_zero])
  have hzero : ¬Fp.isZero b = true := fun h => hmag (Fp.mag_of_isZero h)
  have h := Fp.roundsTo_round_bne (Fp.sign a) (Fp.sign b) (Fp.mag a * 2 ^ 1074) (Nat.pos_of_ne_zero hmag)
  rw [Fp.signed_mul_natCast, Nat.cast_pow] at h
  rw [Fp.div_of_not_isNaN (Fp.isNaN_of_isFinite ha) (Fp.isNaN_of_isFinite hb), if_neg (by simp [Fp.isInf_of_isFinite ha]),
    if_neg (by simp [Fp.isInf_of_isFinite hb]), if_neg hzero]
  exact h

/-- Settles O57: each operation rounds its exact result once. -/
theorem dottedOperatorsRoundToNearest : Obligations.DottedOperatorsRoundToNearest := by
  intro a b y ha hb _ r exact scale hop
  have h : Fp.RoundsTo r exact scale := by
    obtain ⟨rfl, rfl, rfl⟩ | ⟨rfl, rfl, rfl⟩ | ⟨rfl, rfl, rfl⟩ | ⟨rfl, hne, rfl, rfl⟩ := hop
    · exact Fp.roundsTo_add ha hb
    · exact Fp.roundsTo_sub ha hb
    · exact Fp.roundsTo_mul ha hb
    · exact Fp.roundsTo_div ha hb hne
  obtain ⟨hnear, hinf, hclass⟩ := h
  exact ⟨fun hfin => hnear hfin y, hinf, hclass⟩

end Sys2Proof.Machine
end

section
/-!
PROOFS, state (10_state): what an operation and a step can do to the block, as a run of guarded updates.
-/
namespace Sys2Proof.Machine

open Relation (ReflTransGen)

/-- One update of the block, with the check that guards it. With `b` false no stage is constructed. -/
inductive Update (b : Bool) (s : State) : State → Prop where
  | raise {c : Cause} (hc : c ≠ .none) : Update b s (s.raise c)
  | reply (w : Word) : Update b s (s.reply w)
  | buildOsc {r : Int} (hr : halfPeriodOk s.cfg.cntw r = true) : Update b s (s.setOsc (Osc.built (BitVec.ofInt 64 r)))
  | restartOsc : Update b s (s.setOsc s.osc.restart)
  | fill (hv : s.osc.v = true) :
      Update b s { s with osc := oscAfter s.bufLen.toNat s.osc, buf := (fillFrom s.bufLen.toNat 0 s.osc s.buf).2 }
  | buildStage (hb : b = true) (k : Nat) (c : Coefs) (d : Nat) :
      Update b s { s.setStage k (Stage.built c) with draws := d }
  | clearStage (k : Nat) : Update b s (s.setStage k (s.stage k).clear)
  | clearStages : Update b s { s with stages := s.stages.map Stage.clear }
  | applyStage {k : Nat} (hv : (s.stage k).v = true) : Update b s (s.applyStage k)
  | setBufLen {w : Word} (hw : w.toNat ≤ s.cfg.bufcap) : Update b s { s with bufLen := w }
  | setParams (p : DesignParams) : Update b s { s with params := p }
  | setStaging (c : Coefs) : Update b s { s with staging := c }
  | writeBuf {i : Nat} (hi : i < s.bufLen.toNat) (w : Word) : Update b s (s.writeBuf i w)

/-- A run of updates. -/
abbrev Updates (b : Bool) : State → State → Prop := ReflTransGen (Update b)

/-- None of the three operations that construct a stage (R123, R124, R151). -/
def ConstructsNoStage (i : Instr) : Prop := (∀ k n, i ≠ .bqDesign k n) ∧ (∀ k, i ≠ .bqLoad k) ∧ i ≠ .casBuild

/-! ### The shared operations -/

variable {b : Bool} {s : State}

theorem updates_gated {act : State → State} (h : Updates b s (act s)) : Updates b s (s.gated act) := by
  unfold State.gated
  split
  · exact .refl
  · exact h

theorem updates_raise {c : Cause} (hc : c ≠ .none) : Updates b s (s.raise c) := .single (.raise hc)

theorem updates_replyFault : Updates b s s.replyFault := .tail (updates_raise (by decide)) (.reply 0#64)

theorem updates_withStage {act : Nat → State → State} {k : BitVec 16} (h : Updates b s (act k.toNat s)) :
    Updates b s (s.withStage k act) := by
  unfold State.withStage
  split
  · exact h
  · exact updates_raise (by decide)

theorem updates_buildFrom (hb : b = true) (n k : Nat) (s : State) : Updates b s (buildFrom n k s) := by
  induction n generalizing k s with
  | zero => exact .refl
  | succ n ih => exact .head (.buildStage hb k _ _) (ih (k + 1) _)

/-- A pass of one stage keeps the valid bits of the stages whose pass is still to come. -/
theorem updates_cascadeFrom (n k : Nat) (s : State) (hv : ∀ j, k ≤ j → j < k + n → (s.stage j).v = true) :
    Updates b s (cascadeFrom n k s) := by
  induction n generalizing k s with
  | zero => exact .refl
  | succ n ih =>
    refine .head (.applyStage (hv k (by omega) (by omega))) (ih (k + 1) _ fun j hj hjn => ?_)
    have hne : (s.applyStage k).stage j = s.stage j := State.stage_setStage_ne s k j _ (by omega)
    rw [hne]
    exact hv j (by omega) (by omega)

/-! ### The operations -/

theorem updates_oscInit : Updates b s (oscInit s) := by
  refine updates_gated ?_
  split
  · exact updates_raise (by decide)
  next h hh =>
    simp only [halfPeriod] at hh
    split at hh
    · split at hh
      next hr =>
        cases hh
        exact .single (.buildOsc hr)
      next => cases hh
    · cases hh

theorem updates_oscReset : Updates b s (oscReset s) := updates_gated (.single .restartOsc)

theorem updates_oscFill : Updates b s (oscFill s) := by
  rw [oscFill_eq]
  split
  · exact .refl
  · split
    next hv => exact .single (.fill hv)
    next => exact updates_raise (by decide)

theorem updates_bqDesign (hb : b = true) (k : BitVec 16) (n : Bool) : Updates b s (bqDesign k n s) :=
  updates_gated (updates_withStage (.single (.buildStage hb _ _ _)))

theorem updates_bqLoad (hb : b = true) (k : BitVec 16) : Updates b s (bqLoad k s) :=
  updates_gated (updates_withStage (.single (.buildStage hb _ _ s.draws)))

theorem updates_bqReset (k : BitVec 16) : Updates b s (bqReset k s) :=
  updates_gated (updates_withStage (.single (.clearStage _)))

theorem updates_bqApply (k : BitVec 16) : Updates b s (bqApply k s) := by
  refine updates_gated (updates_withStage ?_)
  split
  next hv => exact .single (.applyStage hv)
  next => exact updates_raise (by decide)

theorem updates_casBuild (hb : b = true) : Updates b s (casBuild s) := updates_gated (updates_buildFrom hb _ _ s)

theorem updates_casReset : Updates b s (casReset s) := updates_gated (.single .clearStages)

theorem updates_casApply : Updates b s (casApply s) := by
  refine updates_gated ?_
  split
  next hv => exact updates_cascadeFrom _ _ _ fun j _ hj => (allValid_iff s).mp hv j (by omega)
  next => exact updates_raise (by decide)

theorem updates_regRd (a : Addr) : Updates b s (regRd a s) := by
  unfold regRd
  split
  · exact .single (.reply _)
  · exact updates_replyFault

theorem updates_bufRd (a : Addr) : Updates b s (bufRd a s) := by
  unfold bufRd
  split
  · exact .single (.reply _)
  · exact updates_replyFault

theorem updates_bufWr (a : Addr) (w : Word) : Updates b s (bufWr a w s) := by
  refine updates_gated ?_
  split
  next i hi =>
    obtain ⟨hlt, -, -⟩ := liveIndex_some hi
    exact .single (.writeBuf hlt w)
  next => exact updates_raise (by decide)

theorem updates_writeBufLen (w : Word) : Updates b s (writeBufLen w s) := by
  unfold writeBufLen
  split
  · exact updates_raise (by decide)
  next h => exact .single (.setBufLen (Nat.le_of_not_lt h))

theorem updates_writeOscH (w : Word) : Updates b s (writeOscH w s) := by
  have hw : BitVec.ofInt 64 w.toNat = w := by simp
  unfold writeOscH
  split
  next hr => simpa only [hw] using ReflTransGen.single (Update.buildOsc hr)
  next => exact updates_raise (by decide)

theorem updates_regWrite {r : Reg} (hr : r ≠ .cmd) (w : Word) : Updates b s (r.write w s) := by
  cases r with
  | cmd => exact absurd rfl hr
  | bufLen => exact updates_writeBufLen w
  | oscH => exact updates_writeOscH w
  | pFs | pF0 | pQ | pGain => exact .single (.setParams _)
  | cB0 | cB1 | cB2 | cA1 | cA2 => exact .single (.setStaging _)
  | status | capStages | capBuf | oscCnt | oscLevel | stage => exact updates_raise (by decide)

/-- CMD has one address (R41). -/
theorem eq_cmd_of_regAt {n : Nat} {a : Addr} (h : regAt n a = some .cmd) : a = Addr.cmd := by
  unfold regAt at h
  split at h
  · split at h
    · dsimp only at h
      split at h
      · simp at h
      · cases h
    · obtain ⟨l₁, l₂, hl, -⟩ := List.lookup_eq_some_iff.mp h
      have hmem : (a, Reg.cmd) ∈ regTable := by simp [hl]
      simpa [regTable, Addr.cmd] using hmem
  · cases h

theorem updates_regWr {a : Addr} (ha : a ≠ Addr.cmd) (w : Word) : Updates b s (regWr a w s) := by
  refine updates_gated ?_
  split
  next r hr => exact updates_regWrite (fun h => ha (eq_cmd_of_regAt (h ▸ hr))) w
  next => exact updates_raise (by decide)

/-- Every operation but a REG.WR to CMD, which comes after, since it runs one of these. -/
theorem updates_effect_of_ne_cmd {i : Instr} (hi : ∀ w, i ≠ .regWr Addr.cmd w) (hb : ConstructsNoStage i ∨ b = true) :
    Updates b s (effect i s) := by
  cases i with
  | oscInit => exact updates_oscInit
  | oscReset => exact updates_oscReset
  | oscFill => exact updates_oscFill
  | bqDesign k n => exact updates_bqDesign (hb.resolve_left fun ⟨hdesign, _, _⟩ => hdesign k n rfl) k n
  | bqLoad k => exact updates_bqLoad (hb.resolve_left fun ⟨_, hload, _⟩ => hload k rfl) k
  | bqReset k => exact updates_bqReset k
  | bqApply k => exact updates_bqApply k
  | casBuild => exact updates_casBuild (hb.resolve_left fun ⟨_, _, hbuild⟩ => hbuild rfl)
  | casReset => exact updates_casReset
  | casApply => exact updates_casApply
  | regRd a => exact updates_regRd a
  | regWr a w => exact updates_regWr (fun ha => hi w (ha ▸ rfl)) w
  | bufRd a => exact updates_bufRd a
  | bufWr a w => exact updates_bufWr a w

theorem updates_runCommand (w : Word) : Updates true s (runCommand w s) := by
  rw [runCommand_eq]
  split
  next i h =>
    obtain ⟨-, hi, -, -⟩ := decodeCmd_isCommand h
    exact updates_effect_of_ne_cmd (hi _) (.inr rfl)
  next => exact updates_raise (by decide)

theorem updates_effect (i : Instr) : Updates true s (effect i s) := by
  by_cases hi : ∃ w, i = .regWr Addr.cmd w
  · obtain ⟨w, rfl⟩ := hi
    exact updates_gated (updates_runCommand w)
  · exact updates_effect_of_ne_cmd (fun w h => hi ⟨w, h⟩) (.inr rfl)

theorem updates_rejectTxn (x : Txn) (r : Reject) : Updates b s (s.rejectTxn x r) := by
  cases x with
  | read a => exact updates_replyFault
  | write a w =>
    rw [rejectTxn_write]
    split
    · exact .refl
    · cases r with
      | illegalCmd => exact updates_raise (by decide)
      | unmapped => exact updates_raise (by decide)

/-- A step resets the block, or takes an event off the host's list and runs updates. -/
theorem step_updates {s t : State} (h : step s = .next t) :
    (∃ rest, s.pending = .hardwareReset :: rest ∧ t = State.hardwareReset { s with pending := rest }) ∨
    ∃ rest, Updates true { s with pending := rest } t := by
  obtain ⟨-, rfl⟩ | hreset | ⟨x, rest, i, -, -, rfl⟩ | ⟨x, rest, r, -, -, rfl⟩ := step_cases h
  · exact .inr ⟨t.pending, .refl⟩
  · exact .inl hreset
  · exact .inr ⟨rest, updates_effect i⟩
  · exact .inr ⟨rest, updates_rejectTxn x r⟩

end Sys2Proof.Machine
end

section
/-!
PROOFS, state (10_state): the registers' invariants, the coefficients, the valid bits and STATUS.
-/
namespace Sys2Proof.Machine

/-! ### The oscillator's invariants -/

theorem toNat_ofInt_of_halfPeriodOk {cntw : Nat} {r : Int} (hc : cntw ≤ 63) (hr : halfPeriodOk cntw r = true) :
    1 ≤ (BitVec.ofInt 64 r).toNat ∧ (BitVec.ofInt 64 r).toNat ≤ 2 ^ cntw - 1 := by
  simp only [halfPeriodOk, Bool.and_eq_true, decide_eq_true_eq] at hr
  obtain ⟨h1, h2⟩ := hr
  obtain ⟨n, rfl⟩ := Int.eq_ofNat_of_zero_le (show 0 ≤ r by omega)
  have hpow : 2 ^ cntw ≤ 2 ^ 63 := Nat.pow_le_pow_right (by decide) hc
  have hn : n ≤ 2 ^ cntw - 1 := by
    have : ((2 ^ cntw : Nat) : Int) = 2 ^ cntw := by push_cast; rfl
    omega
  rw [BitVec.ofInt_natCast, BitVec.toNat_ofNat, Nat.mod_eq_of_lt (by omega)]
  exact ⟨by omega, hn⟩

theorem Osc.inv_built {cntw : Nat} {h : BitVec 64} (h1 : 1 ≤ h.toNat) (h2 : h.toNat ≤ 2 ^ cntw - 1) :
    (Osc.built h).inv cntw :=
  ⟨fun _ => ⟨h1, h2, Nat.zero_le _⟩, nofun⟩

theorem Osc.inv_restart {cntw : Nat} {o : Osc} (ho : o.inv cntw) : o.restart.inv cntw := by
  obtain ⟨hvalid, hreset⟩ := ho
  refine ⟨fun hv => ?_, fun hv => ?_⟩
  · obtain ⟨h1, h2, -⟩ := hvalid hv
    exact ⟨h1, h2, Nat.zero_le _⟩
  · rw [hreset hv]
    rfl

/-- R24: the counter restarts at the bound, so the increment does not pass it. -/
theorem oscStep_cnt_le {o : Osc} (h1 : 1 ≤ o.h.toNat) (hc : o.cnt.toNat ≤ o.h.toNat) :
    (oscStep o).2.cnt.toNat ≤ o.h.toNat := by
  simp only [oscStep, Osc.turn]
  split
  · exact h1
  next hne =>
    have hlt : o.cnt.toNat ≠ o.h.toNat := fun h => hne (BitVec.eq_of_toNat_eq h)
    bv_omega

theorem Osc.inv_oscStep {cntw : Nat} {o : Osc} (hv : o.v = true) (ho : o.inv cntw) : (oscStep o).2.inv cntw := by
  obtain ⟨h1, h2, h3⟩ := ho.1 hv
  have hh : (oscStep o).2.h = o.h := oscAfter_h 1 o
  have hv' : (oscStep o).2.v = true := (oscAfter_v 1 o).trans hv
  refine ⟨fun _ => ?_, fun hf => absurd (hf.symm.trans hv') (by decide)⟩
  rw [hh]
  exact ⟨h1, h2, oscStep_cnt_le h1 h3⟩

theorem Osc.inv_oscAfter {cntw : Nat} {o : Osc} (n : Nat) (hv : o.v = true) (ho : o.inv cntw) : (oscAfter n o).inv cntw := by
  induction n with
  | zero => exact ho
  | succ n ih =>
    rw [oscAfter_succ]
    exact Osc.inv_oscStep (by simpa using hv) ih

/-! ### Reading the stage file -/

theorem State.stage_of_not_lt {s : State} {k : Nat} (hk : ¬k < s.nstages) : s.stage k = Stage.reset :=
  List.getD_eq_default _ _ (Nat.le_of_not_lt hk)

/-- No stage beyond the last reads as constructed. -/
theorem State.lt_nstages_of_stage_v {s : State} {k : Nat} (hv : (s.stage k).v = true) : k < s.nstages := by
  by_contra hk
  rw [State.stage_of_not_lt hk] at hv
  cases hv

theorem State.stage_mapClear (s : State) (k : Nat) :
    State.stage { s with stages := s.stages.map Stage.clear } k = (s.stage k).clear :=
  List.getD_map s.stages Stage.reset Stage.clear

/-! ### The invariant of the state -/

theorem Stage.inv_built (c : Coefs) : (Stage.built c).inv := nofun

theorem Stage.inv_clear {st : Stage} (h : st.inv) : st.clear.inv := fun hv => by
  rw [h hv]
  rfl

theorem State.inv_stage {s : State} (h : ∀ st ∈ s.stages, st.inv) (k : Nat) : (s.stage k).inv := by
  by_cases hk : k < s.nstages
  · exact h _ (s.stage_mem k hk)
  · exact fun _ => State.stage_of_not_lt hk

theorem State.inv_setStage {s : State} (hs : s.inv) (k : Nat) {st : Stage} (hst : st.inv) : (s.setStage k st).inv := by
  obtain ⟨hcfg, hn, hosc, hstages, hlen, hwf, hbelow, hfault⟩ := hs
  refine ⟨hcfg, by rwa [State.setStage_nstages], hosc, fun x hx => ?_, hlen, hwf, hbelow, hfault⟩
  obtain hx | rfl := List.mem_or_eq_of_mem_set hx
  · exact hstages x hx
  · exact hst

theorem State.inv_setOsc {s : State} (hs : s.inv) {o : Osc} (ho : o.inv s.cfg.cntw) : (s.setOsc o).inv := by
  obtain ⟨hcfg, hn, -, hrest⟩ := hs
  exact ⟨hcfg, hn, ho, hrest⟩

theorem State.inv_setBuf {s : State} (hs : s.inv) {m : Memory} (hwf : m.wf = true) (hbelow : m.below s.cfg.bufcap = true) :
    State.inv { s with buf := m } := by
  obtain ⟨hcfg, hn, hosc, hstages, hlen, -, -, hfault⟩ := hs
  exact ⟨hcfg, hn, hosc, hstages, hlen, hwf, hbelow, hfault⟩

theorem State.inv_raise {s : State} (hs : s.inv) {c : Cause} (hc : c ≠ .none) : (s.raise c).inv := by
  unfold State.raise
  split
  · exact hs
  · obtain ⟨hcfg, hn, hosc, hstages, hlen, hwf, hbelow, -⟩ := hs
    exact ⟨hcfg, hn, hosc, hstages, hlen, hwf, hbelow, iff_of_false nofun hc⟩

theorem Update.inv {b : Bool} {s t : State} (h : Update b s t) (hs : s.inv) : t.inv := by
  obtain ⟨hcfg, hn, hosc, hstages, hlen, hwf, hbelow, hfault⟩ := id hs
  cases h with
  | raise hc => exact State.inv_raise hs hc
  | buildOsc hr =>
    obtain ⟨-, -, -, hcntw⟩ := hcfg
    obtain ⟨h1, h2⟩ := toNat_ofInt_of_halfPeriodOk hcntw hr
    exact State.inv_setOsc hs (Osc.inv_built h1 h2)
  | restartOsc => exact State.inv_setOsc hs (Osc.inv_restart hosc)
  | fill hv =>
    have hfill := State.inv_setOsc hs (Osc.inv_oscAfter s.bufLen.toNat hv hosc)
    exact State.inv_setBuf hfill (fillFrom_wf _ _ _ _ hwf) (fillFrom_below _ _ _ _ _ (by simpa using hlen) hbelow)
  | buildStage _ k c d => exact State.inv_setStage hs k (Stage.inv_built c)
  | clearStage k => exact State.inv_setStage hs k (Stage.inv_clear (State.inv_stage hstages k))
  | clearStages =>
    refine ⟨hcfg, by simpa [State.nstages] using hn, hosc, ?_, hlen, hwf, hbelow, hfault⟩
    exact List.forall_mem_map.mpr fun st hst => Stage.inv_clear (hstages st hst)
  | applyStage hv =>
    refine State.inv_setBuf (State.inv_setStage hs _ fun hf => absurd hf ?_) (applyFrom_wf _ _ _ _ _ hwf)
      (applyFrom_below _ _ _ _ _ _ (by simpa using hlen) hbelow)
    simp [applyFrom_stage, hv]
  | setBufLen hw => exact ⟨hcfg, hn, hosc, hstages, hw, hwf, hbelow, hfault⟩
  | reply | setParams | setStaging => exact hs
  | writeBuf hi w => exact State.inv_setBuf hs (Memory.wf_write _ _ _ hwf) (Memory.below_write _ _ _ _ (by omega) hbelow)

theorem Updates.inv {b : Bool} {s t : State} (h : Updates b s t) (hs : s.inv) : t.inv := by
  induction h with
  | refl => exact hs
  | tail _ h ih => exact h.inv ih

theorem State.inv_hardwareReset {s : State} (hs : s.inv) : s.hardwareReset.inv := by
  obtain ⟨hcfg, ⟨h1, h2⟩, -⟩ := hs
  exact powerOn_inv hcfg h1 h2

/-- Settles O12: hardware reset powers the block on anew, and every update keeps the invariant. -/
theorem stepKeepsTheInvariant : Obligations.StepKeepsTheInvariant := by
  intro s t hs h
  obtain ⟨rest, -, rfl⟩ | ⟨rest, h⟩ := step_updates h
  · exact State.inv_hardwareReset (s := { s with pending := rest }) hs
  · exact Updates.inv h hs

/-! ### Coefficients and valid bits -/

/-- An update keeps the coefficients and the valid bit of a stage, or it constructs the stage. -/
theorem Update.stage_cases {b : Bool} {s t : State} (h : Update b s t) (k : Nat) :
    ((t.stage k).c = (s.stage k).c ∧ (t.stage k).v = (s.stage k).v) ∨ (b = true ∧ (t.stage k).v = true) := by
  cases h with
  | raise => simp [State.stage]
  | buildStage hb j c d =>
    have hstage := State.stage_setStage s j k (Stage.built c)
    split at hstage
    · exact .inr ⟨hb, congrArg Stage.v hstage⟩
    · exact .inl ⟨congrArg Stage.c hstage, congrArg Stage.v hstage⟩
  | clearStage j =>
    rw [State.stage_setStage]
    split
    next hj =>
      obtain ⟨rfl, -⟩ := hj
      exact .inl ⟨rfl, rfl⟩
    next => exact .inl ⟨rfl, rfl⟩
  | clearStages =>
    rw [State.stage_mapClear]
    exact .inl ⟨rfl, rfl⟩
  | @applyStage j hv =>
    left
    rw [State.stage_applyStage s j k (State.lt_nstages_of_stage_v hv)]
    split
    next hk =>
      subst hk
      exact ⟨bqAfter_c _ _ _, bqAfter_v _ _ _⟩
    next => exact ⟨rfl, rfl⟩
  | reply | buildOsc | restartOsc | fill | setBufLen | setParams | setStaging | writeBuf => exact .inl ⟨rfl, rfl⟩

theorem Update.stage_v {b : Bool} {s t : State} (h : Update b s t) {k : Nat} (hv : (s.stage k).v = true) :
    (t.stage k).v = true := by
  obtain ⟨-, hkept⟩ | ⟨-, hbuilt⟩ := h.stage_cases k
  · exact hkept.trans hv
  · exact hbuilt

theorem Update.osc_v {b : Bool} {s t : State} (h : Update b s t) (hv : s.osc.v = true) : t.osc.v = true := by
  cases h with
  | raise => rwa [State.raise_osc]
  | buildOsc => rfl
  | fill => exact (oscAfter_v _ _).trans hv
  | restartOsc | reply | buildStage | clearStage | clearStages | applyStage | setBufLen | setParams | setStaging
  | writeBuf => exact hv

theorem Updates.stage_c {s t : State} (h : Updates false s t) (k : Nat) : (t.stage k).c = (s.stage k).c := by
  induction h with
  | refl => rfl
  | tail _ h ih =>
    obtain ⟨hkept, -⟩ | ⟨hb, -⟩ := h.stage_cases k
    · exact hkept.trans ih
    · cases hb

theorem Updates.stage_v {b : Bool} {s t : State} (h : Updates b s t) {k : Nat} (hv : (s.stage k).v = true) :
    (t.stage k).v = true := by
  induction h with
  | refl => exact hv
  | tail _ h ih => exact h.stage_v ih

theorem Updates.osc_v {b : Bool} {s t : State} (h : Updates b s t) (hv : s.osc.v = true) : t.osc.v = true := by
  induction h with
  | refl => exact hv
  | tail _ h ih => exact h.osc_v ih

/-- Settles O14: an operation that is none of the three is a run of updates that construct no stage. -/
theorem coefficientsChangeByConstructionOnly : Obligations.CoefficientsChangeByConstructionOnly := by
  intro i s t hwf hdesign hload hbuild h k
  have hcmd : ∀ w, i ≠ .regWr Addr.cmd w := by
    rintro w rfl
    simp only [Instr.wf, bne_self_eq_false, Bool.and_false] at hwf
    cases hwf
  rw [exec_next h]
  exact Updates.stage_c (updates_effect_of_ne_cmd hcmd (.inl ⟨hdesign, hload, hbuild⟩)) k

/-- Settles O15: no update clears a valid bit. -/
theorem validBitsStaySet : Obligations.ValidBitsStaySet := by
  intro s t hne h
  obtain ⟨rest, hp, -⟩ | ⟨rest, h⟩ := step_updates h
  · exact absurd (by rw [hp]; rfl) hne
  · exact ⟨Updates.osc_v (s := { s with pending := rest }) h, fun k => Updates.stage_v (s := { s with pending := rest }) h⟩

/-! ### STATUS -/

/-- Cutting a word laid out as STATUS gives its fields back. -/
theorem status_fields (hi : BitVec 48) (code : BitVec 8) (mid : BitVec 6) (v f : Bool) :
    let w := hi ++ code ++ mid ++ BitVec.ofBool v ++ BitVec.ofBool f
    w.getLsbD 0 = f ∧ w.getLsbD 1 = v ∧ w.extractLsb' 2 6 = mid ∧ w.extractLsb' 8 8 = code ∧ w.extractLsb' 16 48 = hi := by
  intro w
  refine ⟨?_, ?_, ?_, ?_, ?_⟩
  · simp only [w, BitVec.getLsbD_append, BitVec.getLsbD_ofBool]
    simp
  · simp only [w, BitVec.getLsbD_append, BitVec.getLsbD_ofBool]
    simp
  · iterate 2 rw [BitVec.extractLsb'_append_eq_of_le (by decide)]
    exact BitVec.extractLsb'_append_eq_right
  · iterate 3 rw [BitVec.extractLsb'_append_eq_of_le (by decide)]
    exact BitVec.extractLsb'_append_eq_right
  · iterate 4 rw [BitVec.extractLsb'_append_eq_of_le (by decide)]
    exact BitVec.extractLsb'_eq_self

/-- Settles O47: the word is cut at the borders of its fields. -/
theorem statusLayout : Obligations.StatusLayout := fun s =>
  status_fields 0#48 s.cause.code 0#6 s.osc.v s.fault

end Sys2Proof.Machine
end

section
/-!
PROOFS, memory (20_memory): every event is answered (R68), the bytes of a sample (R65), and the unmapped addresses (R61, R62).
-/
namespace Sys2Proof.Machine

/-! ### Every event completes -/

/-- Settles O10: the host's list is empty or starts with one of the two kinds of event, and no operation stops. -/
theorem everyEventCompletes : Obligations.EveryEventCompletes := by
  refine ⟨fun s => ?_, fun i s => ⟨_, exec_effect i s⟩⟩
  cases hp : s.pending with
  | nil => exact ⟨_, step_nil s hp⟩
  | cons e rest =>
    cases e with
    | bus t => exact ⟨_, step_bus s t rest hp⟩
    | hardwareReset => exact ⟨_, step_hardwareReset s rest hp⟩

/-! ### The bytes of a sample -/

theorem wordBytes_getElem? (w : Word) {j : Nat} (hj : j < 8) : (wordBytes w)[j]? = some (w.extractLsb' (8 * j) 8) := by
  simp [wordBytes, hj]

/-- Bit `i` of a word is bit `i % 8` of its byte `i / 8`. -/
theorem getLsbD_byte (w : Word) (i : Nat) : (w.extractLsb' (8 * (i / 8)) 8).getLsbD (i % 8) = w.getLsbD i := by
  have hi : i % 8 < 8 := Nat.mod_lt i (by decide)
  rw [BitVec.getLsbD_extractLsb', decide_eq_true hi, Bool.true_and, Nat.div_add_mod]

theorem wordBytes_injective {v w : Word} (h : wordBytes v = wordBytes w) : v = w := by
  refine BitVec.eq_of_getLsbD_eq fun i hi => ?_
  have hj : i / 8 < 8 := by omega
  have hbyte : v.extractLsb' (8 * (i / 8)) 8 = w.extractLsb' (8 * (i / 8)) 8 := by
    rw [← Option.some_inj, ← wordBytes_getElem? v hj, ← wordBytes_getElem? w hj, h]
  rw [← getLsbD_byte v, ← getLsbD_byte w, hbyte]

/-- Settles O56: a bit that differs shows in the byte that holds it. -/
theorem sampleBytesAreLittleEndian : Obligations.SampleBytesAreLittleEndian :=
  ⟨fun w _ => wordBytes_getElem? w, fun _ => by simp [wordBytes], fun _ _ => wordBytes_injective⟩

/-! ### Unmapped addresses -/

/-- R90: a read is one of the two reads, or its address has bit 31 set. -/
theorem decode_read_cases (a : Addr) :
    decode (.read a) = .ok (.regRd a) ∨ decode (.read a) = .ok (.bufRd a) ∨ decode (.read a) = .error .unmapped := by
  by_cases h0 : a.region = 0#2
  · simp [decode, h0]
  · by_cases h1 : a.region = 1#2 <;> simp [decode, h0, h1]

/-- R90: a write that is no command is one of the two writes, or its address has bit 31 set. -/
theorem decode_write_cases {a : Addr} (ha : a ≠ Addr.cmd) (w : Word) :
    decode (.write a w) = .ok (.regWr a w) ∨ decode (.write a w) = .ok (.bufWr a w) ∨
      decode (.write a w) = .error .unmapped := by
  by_cases h0 : a.region = 0#2
  · simp [decode, ha, h0]
  · by_cases h1 : a.region = 1#2 <;> simp [decode, ha, h0, h1]

theorem bufBase_le_of_region {a : Addr} (h : a.region = 1#2) : bufBase ≤ a.toNat := by
  have h30 : a.toNat / 2 ^ 30 % 4 = 1 := by
    simpa [Addr.region, Nat.shiftRight_eq_div_pow] using congrArg BitVec.toNat h
  unfold bufBase
  omega

/-- An address behind which the block has a register is one that R61 lists. -/
theorem mappedAddr_of_regAt {s : State} {a : Addr} {r : Reg} (h : regAt s.nstages a = some r) : MappedAddr s a := by
  unfold regAt at h
  split at h
  · split at h
    next hbase =>
      dsimp only at h
      split at h
      next hk =>
        obtain ⟨x, hx, -⟩ := Option.map_eq_some_iff.mp h
        obtain ⟨hr, -⟩ := List.getElem?_eq_some_iff.mp hx
        unfold stageBase at hbase hk hr
        exact .inr (.inl ⟨_, _, hk, Nat.le_of_lt_succ hr, by omega⟩)
      next => cases h
    next =>
      have hglobal : ∀ e ∈ regTable, e.1.toNat ∈ globalAddrs := by decide
      obtain ⟨l₁, l₂, hl, -⟩ := List.lookup_eq_some_iff.mp h
      exact .inl (hglobal (a, r) (by simp [hl]))
  · cases h

/-- An address of a live sample is one that R61 lists. -/
theorem mappedAddr_of_liveIndex {s : State} {a : Addr} {i : Nat} (h : s.liveIndex a = some i) : MappedAddr s a := by
  obtain ⟨hi, hregion, rfl⟩ := liveIndex_some h
  have hbase := bufBase_le_of_region hregion
  exact .inr (.inr ⟨_, hi, by unfold bufBase at *; omega⟩)

theorem mappedAddr_cmd (s : State) : MappedAddr s Addr.cmd := .inl (by decide)

section Unmapped

variable {s : State} {a : Addr} (hu : ¬ MappedAddr s a)

include hu

theorem regAt_of_unmapped : regAt s.nstages a = none :=
  Option.eq_none_iff_forall_ne_some.mpr fun _ h => hu (mappedAddr_of_regAt h)

theorem liveIndex_of_unmapped : s.liveIndex a = none :=
  Option.eq_none_iff_forall_ne_some.mpr fun _ h => hu (mappedAddr_of_liveIndex h)

theorem regRd_of_unmapped : regRd a s = s.replyFault := by
  simp only [regRd, State.readReg, regAt_of_unmapped hu, Option.bind_none]

theorem bufRd_of_unmapped : bufRd a s = s.replyFault := by
  simp only [bufRd, liveIndex_of_unmapped hu]

theorem regWr_of_unmapped (w : Word) : regWr a w s = s.gated (State.raise .badAccess) := by
  simp only [regWr, State.gated, regAt_of_unmapped hu]

theorem bufWr_of_unmapped (w : Word) : bufWr a w s = s.gated (State.raise .badAccess) := by
  simp only [bufWr, State.gated, liveIndex_of_unmapped hu]

theorem step_read_of_unmapped {rest : List HostEvent} (hp : s.pending = .bus (.read a) :: rest) :
    step s = .next (State.replyFault { s with pending := rest }) := by
  rw [step_bus s _ rest hp]
  obtain hd | hd | hd := decode_read_cases a <;> rw [hd]
  · exact congrArg _ (regRd_of_unmapped (s := { s with pending := rest }) hu)
  · exact congrArg _ (bufRd_of_unmapped (s := { s with pending := rest }) hu)
  · rfl

/-- The write faults only where the gate of R176 lets it through. -/
theorem step_write_of_unmapped {w : Word} {rest : List HostEvent} (hp : s.pending = .bus (.write a w) :: rest) :
    step s = .next (State.gated { s with pending := rest } (State.raise .badAccess)) := by
  have hcmd : a ≠ Addr.cmd := fun h => hu (h ▸ mappedAddr_cmd s)
  rw [step_bus s _ rest hp]
  obtain hd | hd | hd := decode_write_cases hcmd w <;> rw [hd]
  · exact congrArg _ (regWr_of_unmapped (s := { s with pending := rest }) hu w)
  · exact congrArg _ (bufWr_of_unmapped (s := { s with pending := rest }) hu w)
  · rfl

end Unmapped

/-- The first fault sets FAULT and CAUSE and nothing else (R193). -/
theorem State.raise_of_not_fault {s : State} (hf : s.fault = false) (c : Cause) :
    s.raise c = { s with fault := true, cause := c } := by
  simp [State.raise, hf]

/-- Settles O8: no register and no live sample lies behind an unmapped address, so its access faults in every region. -/
theorem unmappedAccessFaults : Obligations.UnmappedAccessFaults := by
  intro s a w rest hf hu
  have hraise := State.raise_of_not_fault (s := { s with pending := rest }) hf .badAccess
  refine ⟨fun hp => ?_, fun hp => ?_⟩
  · rw [step_read_of_unmapped hu hp, State.replyFault, hraise]
    rfl
  · rw [step_write_of_unmapped hu hp, State.gated, if_neg (by simp [hf]), hraise]

end Sys2Proof.Machine
end

section
/-!
PROOFS, memory (20_memory): the idempotent writes (R67).
-/
namespace Sys2Proof.Machine

/-! ### A gated action done twice -/

/-- A gated action need do twice what it does once only where it does not fault: a fault closes the gate (R176). -/
theorem gated_idem {s : State} {act : State → State} (h : (act s).fault = false → act (act s) = act s) :
    (s.gated act).gated act = s.gated act := by
  cases hs : s.fault with
  | true => simp [State.gated, hs]
  | false =>
    cases ha : (act s).fault with
    | true => simp [State.gated, hs, ha]
    | false => simpa [State.gated, hs, ha] using h ha

/-- The action need do twice what it does once only on a stage of the file: another index faults (R83). -/
theorem withStage_idem {s : State} {k : BitVec 16} {act : Nat → State → State} (hn : (act k.toNat s).nstages = s.nstages)
    (h : k.toNat < s.nstages → act k.toNat (act k.toNat s) = act k.toNat s) (hf : (s.withStage k act).fault = false) :
    (s.withStage k act).withStage k act = s.withStage k act := by
  by_cases hk : k.toNat < s.nstages
  · simp only [State.withStage, hk, if_true, hn]
    exact h hk
  · simp [State.withStage, hk] at hf

/-- An operation with an idempotent effect, performed twice in a row, is the operation performed once. -/
theorem execAll_pair_eq {i : Instr} {s : State} (h : effect i (effect i s) = effect i s) : execAll [i, i] s = exec i s := by
  simp only [execAll, exec_effect, h]

/-! ### State updates done twice -/

theorem State.setStage_setStage (s : State) (k : Nat) (st st' : Stage) : (s.setStage k st).setStage k st' = s.setStage k st' := by
  simp [State.setStage]

theorem State.writeBuf_writeBuf (s : State) (i : Nat) (v w : Word) : (s.writeBuf i v).writeBuf i w = s.writeBuf i w := by
  simp [State.writeBuf, Memory.write_write]

/-! ### Oscillator and buffer -/

theorem oscInit_idem (s : State) : oscInit (oscInit s) = oscInit s := by
  refine gated_idem fun hf => ?_
  cases hh : halfPeriod s.cfg.cntw s.params.fs s.params.f0 with
  | none => simp [hh] at hf
  | some h =>
    simp only [State.setOsc_cfg, State.setOsc_params, hh]
    rfl

theorem oscReset_idem (s : State) : oscReset (oscReset s) = oscReset s := gated_idem fun _ => rfl

theorem bufWr_idem (a : Addr) (w : Word) (s : State) : bufWr a w (bufWr a w s) = bufWr a w s := by
  refine gated_idem fun hf => ?_
  cases hi : s.liveIndex a with
  | none => simp [hi] at hf
  | some i =>
    have hi' : (s.writeBuf i w).liveIndex a = some i := hi
    simp only [hi', State.writeBuf_writeBuf]

/-! ### Registers -/

theorem writeBufLen_idem {w : Word} {s : State} (hf : (writeBufLen w s).fault = false) :
    writeBufLen w (writeBufLen w s) = writeBufLen w s := by
  by_cases hw : s.cfg.bufcap < w.toNat
  · simp [writeBufLen, hw] at hf
  · simp [writeBufLen, hw]

theorem writeOscH_idem {w : Word} {s : State} (hf : (writeOscH w s).fault = false) :
    writeOscH w (writeOscH w s) = writeOscH w s := by
  cases hw : halfPeriodOk s.cfg.cntw w.toNat with
  | false => simp [writeOscH, hw] at hf
  | true =>
    simp only [writeOscH, hw, if_true, State.setOsc_cfg]
    rfl

/-- A write to a register that does not fault does twice what it does once; a write to CMD is a command. -/
theorem regWrite_idem {r : Reg} (hr : r ≠ .cmd) {w : Word} {s : State} (hf : (r.write w s).fault = false) :
    r.write w (r.write w s) = r.write w s := by
  cases r with
  | cmd => exact absurd rfl hr
  | bufLen => exact writeBufLen_idem hf
  | oscH => exact writeOscH_idem hf
  | pFs | pF0 | pQ | pGain | cB0 | cB1 | cB2 | cA1 | cA2 => rfl
  | status | capStages | capBuf | oscCnt | oscLevel | stage => simp [Reg.write] at hf

theorem regWr_idem {a : Addr} (ha : a ≠ Addr.cmd) (w : Word) (s : State) : regWr a w (regWr a w s) = regWr a w s := by
  refine gated_idem fun hf => ?_
  cases hr : regAt s.nstages a with
  | none => simp [hr] at hf
  | some r =>
    obtain ⟨-, hn⟩ := SameBlock.regWrite r w s
    simp only [hr, hn] at hf ⊢
    exact regWrite_idem (fun h => ha (eq_cmd_of_regAt (h ▸ hr))) hf

/-! ### Stages -/

theorem bqLoad_idem (k : BitVec 16) (s : State) : bqLoad k (bqLoad k s) = bqLoad k s :=
  gated_idem (withStage_idem (s.setStage_nstages _ _) fun _ => State.setStage_setStage _ _ _ _)

theorem bqReset_idem (k : BitVec 16) (s : State) : bqReset k (bqReset k s) = bqReset k s := by
  refine gated_idem (withStage_idem (s.setStage_nstages _ _) fun hk => ?_)
  rw [State.stage_setStage_self _ _ _ hk, State.setStage_setStage]
  rfl

theorem casReset_idem (s : State) : casReset (casReset s) = casReset s := by
  refine gated_idem fun _ => ?_
  have hclear : Stage.clear ∘ Stage.clear = Stage.clear := rfl
  simp [hclear]

/-! ### Designs, where the parameters are valid -/

/-- A valid design draws nothing: it replaces the stage and changes nothing else. -/
theorem State.designStage_of_valid {s : State} {n : Bool} (hv : designValid s.params (signedGain s.params n) = true) (k : Nat) :
    s.designStage k n = s.setStage k (Stage.built (peakingEQ s.params (signedGain s.params n))) := by
  simp only [State.designStage, State.designDraws, State.designCoefs, hv, if_true]
  rfl

theorem bqDesign_idem {s : State} {n : Bool} (hv : designValid s.params (signedGain s.params n) = true) (k : BitVec 16) :
    bqDesign k n (bqDesign k n s) = bqDesign k n s := by
  refine gated_idem (withStage_idem (s.designStage_nstages _ n) fun _ => ?_)
  rw [State.designStage_of_valid (s := s.designStage _ n) hv, State.designStage_of_valid hv, State.setStage_setStage]
  rfl

section Build

variable {s : State} (hv : ∀ n, designValid s.params (signedGain s.params n) = true)

include hv

/-- The loop of CAS.BUILD with valid designs draws nothing: it changes the stage file only. -/
theorem buildFrom_of_valid (n k : Nat) : buildFrom n k s = { s with stages := (buildFrom n k s).stages } := by
  induction n generalizing k s with
  | zero => rfl
  | succ n ih =>
    rw [buildFrom, State.designStage_of_valid (hv _)]
    exact ih (s := s.setStage k _) hv (k + 1)

/-- The loop of CAS.BUILD with valid designs constructs the stages it passes and keeps the others. -/
theorem stage_buildFrom_of_valid (n k j : Nat) (hj : j < s.nstages) :
    (buildFrom n k s).stage j =
      if k ≤ j ∧ j < k + n then Stage.built (peakingEQ s.params (signedGain s.params (j % 2 == 1))) else s.stage j := by
  induction n generalizing k s with
  | zero => rw [if_neg (by omega)]; rfl
  | succ n ih =>
    rw [buildFrom, State.designStage_of_valid (hv _), ih (s := s.setStage k _) hv (k + 1) (by simpa using hj),
      State.stage_setStage]
    by_cases hk : k = j
    · subst hk
      simp [hj]
    · have hiff : k + 1 ≤ j ∧ j < k + 1 + n ↔ k ≤ j ∧ j < k + (n + 1) := by omega
      rw [if_congr hiff rfl rfl, if_neg (fun h : k = j ∧ k < s.nstages => hk h.1), State.setStage_params]

/-- A second build constructs every stage from the same parameters. -/
theorem casBuild_idem : casBuild (casBuild s) = casBuild s := by
  refine gated_idem fun _ => ?_
  obtain ⟨-, hn⟩ := SameBlock.buildFrom s.nstages 0 s
  have hp : (buildFrom s.nstages 0 s).params = s.params := by rw [buildFrom_of_valid hv]
  have hv' : ∀ n, designValid (buildFrom s.nstages 0 s).params (signedGain (buildFrom s.nstages 0 s).params n) = true := by
    rwa [hp]
  have hstages : (buildFrom s.nstages 0 (buildFrom s.nstages 0 s)).stages = (buildFrom s.nstages 0 s).stages := by
    refine stages_ext (SameBlock.buildFrom _ 0 _).2 fun j hj => ?_
    have hj' : j < s.nstages := hn ▸ hj
    rw [stage_buildFrom_of_valid hv' _ _ _ hj, stage_buildFrom_of_valid hv _ _ _ hj', hp, if_pos (by omega), if_pos (by omega)]
  rw [hn, buildFrom_of_valid hv', hstages]

end Build

/-- Settles O55, operation by operation: each is a gated action that reads nothing it changes, or clears what is clear. -/
theorem idempotentWrites : Obligations.IdempotentWrites := by
  intro s k n a w
  refine ⟨fun i hi => execAll_pair_eq ?_, fun ha => execAll_pair_eq (regWr_idem ha w s),
    fun hv => execAll_pair_eq (bqDesign_idem hv k), fun hv hvneg => execAll_pair_eq (casBuild_idem fun n => ?_)⟩
  · simp only [List.mem_cons, List.not_mem_nil, or_false] at hi
    obtain rfl | rfl | rfl | rfl | rfl | rfl := hi
    · exact oscInit_idem s
    · exact oscReset_idem s
    · exact bqLoad_idem k s
    · exact bqReset_idem k s
    · exact casReset_idem s
    · exact bufWr_idem a w s
  · cases n with
    | false => exact hv
    | true => exact hvneg

end Sys2Proof.Machine
end

section
/-!
PROOFS, encoding (30_encoding): the decoder and the encoder (R80 to R87, R90), and the faults of a word and of a stage index (R86, R83).
-/
namespace Sys2Proof.Machine

/-! ### Bus operations, by kind and region (R90) -/

theorem decode_read_of_region_zero {a : Addr} (h : a.region = 0#2) : decode (.read a) = .ok (.regRd a) := by
  simp [decode, h]

theorem decode_read_of_region_one {a : Addr} (h : a.region = 1#2) : decode (.read a) = .ok (.bufRd a) := by
  simp [decode, h]

theorem decode_write_of_region_zero {a : Addr} (h : a.region = 0#2) (hne : a ≠ Addr.cmd) (w : Word) :
    decode (.write a w) = .ok (.regWr a w) := by
  simp [decode, h, hne]

theorem decode_write_of_region_one {a : Addr} (h : a.region = 1#2) (w : Word) : decode (.write a w) = .ok (.bufWr a w) := by
  have hne : a ≠ Addr.cmd := by rintro rfl; cases h
  simp [decode, h, hne]

/-! ### Decoding what was encoded -/

theorem beq_one_ofBool (b : Bool) : (BitVec.ofBool b == 1#1) = b := by
  cases b <;> rfl

theorem ofBool_beq_one (n : BitVec 1) : BitVec.ofBool (n == 1#1) = n := by
  obtain rfl | rfl := BitVec.eq_zero_or_eq_one n <;> rfl

/-- Settles O1: a laid-out word is cut into the fields it was made of (R81), and an address carries its region (R90). -/
theorem decodeReadsWhatEncodeWrites : Obligations.DecodeReadsWhatEncodeWrites := by
  intro i hi
  cases i with
  | oscInit | oscReset | oscFill | casBuild | casReset | casApply => rfl
  | bqDesign k n => simp [encode, decode, decodeCmd_cmdWord, cmdIf, cmdZerosOk, beq_one_ofBool]
  | bqLoad k | bqReset k | bqApply k => simp [encode, decode, decodeCmd_cmdWord, cmdIf, cmdZerosOk]
  | regRd a => exact decode_read_of_region_zero (by simpa [Instr.wf] using hi)
  | regWr a w =>
    obtain ⟨hregion, hne⟩ : a.region = 0#2 ∧ a ≠ Addr.cmd := by simpa [Instr.wf] using hi
    exact decode_write_of_region_zero hregion hne w
  | bufRd a => exact decode_read_of_region_one (by simpa [Instr.wf] using hi)
  | bufWr a w => exact decode_write_of_region_one (by simpa [Instr.wf] using hi) w

/-! ### Encoding what was decoded -/

section ZeroFields

variable {op : BitVec 8} {w : Word} (hop : (cmdFields w).opcode = op)

include hop

theorem cmdWord_of_neither (hz : cmdZerosOk .neither (cmdFields w)) : cmdWord op 0#1 0#16 = w := by
  simp only [cmdZerosOk, Bool.and_eq_true, beq_iff_eq] at hz
  obtain ⟨⟨hhi, hmid⟩, hn, hk⟩ := hz
  rw [← hop, ← hn, ← hk, ← eq_cmdWord w hhi hmid]

theorem cmdWord_of_stage (hz : cmdZerosOk .stage (cmdFields w)) : cmdWord op 0#1 (cmdFields w).k = w := by
  simp only [cmdZerosOk, Bool.and_eq_true, beq_iff_eq] at hz
  obtain ⟨⟨hhi, hmid⟩, hn⟩ := hz
  rw [← hop, ← hn, ← eq_cmdWord w hhi hmid]

theorem cmdWord_of_stageAndSign (hz : cmdZerosOk .stageAndSign (cmdFields w)) :
    cmdWord op (.ofBool ((cmdFields w).n == 1#1)) (cmdFields w).k = w := by
  simp only [cmdZerosOk, Bool.and_true, Bool.and_eq_true, beq_iff_eq] at hz
  obtain ⟨hhi, hmid⟩ := hz
  rw [ofBool_beq_one, ← hop, ← eq_cmdWord w hhi hmid]

end ZeroFields

/-- No bit of a command word is dropped: the fields its row does not use are zero (R85). -/
theorem encode_of_decodeCmd {w : Word} {i : Instr} (h : decodeCmd w = .ok i) :
    encode i = .write Addr.cmd w ∧ i.wf = true := by
  obtain ⟨hop, hz, rfl⟩ | ⟨hop, hz, rfl⟩ | ⟨hop, hz, rfl⟩ | ⟨hop, hz, rfl⟩ | ⟨hop, hz, rfl⟩ | ⟨hop, hz, rfl⟩ |
    ⟨hop, hz, rfl⟩ | ⟨hop, hz, rfl⟩ | ⟨hop, hz, rfl⟩ | ⟨hop, hz, rfl⟩ := decodeCmd_ok h
  all_goals refine ⟨congrArg (Txn.write Addr.cmd) ?_, rfl⟩
  · exact cmdWord_of_neither hop hz
  · exact cmdWord_of_neither hop hz
  · exact cmdWord_of_neither hop hz
  · exact cmdWord_of_stageAndSign hop hz
  · exact cmdWord_of_stage hop hz
  · exact cmdWord_of_stage hop hz
  · exact cmdWord_of_stage hop hz
  · exact cmdWord_of_neither hop hz
  · exact cmdWord_of_neither hop hz
  · exact cmdWord_of_neither hop hz

/-- Settles O2: a bus operation is its own transaction, and a command's word is laid out from its fields. -/
theorem encodeWritesWhatDecodeRead : Obligations.EncodeWritesWhatDecodeRead := by
  intro t i h
  cases t with
  | read a =>
    rw [decode] at h
    split at h
    · cases h; simp [encode, Instr.wf, *]
    · split at h
      · cases h; simp [encode, Instr.wf, *]
      · cases h
  | write a w =>
    rw [decode] at h
    split at h
    next ha => exact ha ▸ encode_of_decodeCmd h
    next =>
      split at h
      · cases h; simp [encode, Instr.wf, *]
      · split at h
        · cases h; simp [encode, Instr.wf, *]
        · cases h

/-! ### The rows of R82, mask and match -/

/-- The command decoder answers a command exactly for the word the command is encoded as. -/
theorem decodeCmd_eq_ok_iff {i : Instr} {v : Word} (hi : i.wf = true) (he : encode i = .write Addr.cmd v) (w : Word) :
    decodeCmd w = .ok i ↔ v = w := by
  constructor
  · intro h
    obtain ⟨he', -⟩ := encode_of_decodeCmd h
    rw [he] at he'
    injection he'
  · rintro rfl
    have hdecode := decodeReadsWhatEncodeWrites i hi
    rwa [he] at hdecode

theorem cmdWord_eq_iff_fields (op : BitVec 8) (n : BitVec 1) (k : BitVec 16) (w : Word) :
    cmdWord op n k = w ↔
      (cmdFields w).zeroHi = 0#32 ∧ (cmdFields w).opcode = op ∧ (cmdFields w).zeroMid = 0#7 ∧ (cmdFields w).n = n ∧
        (cmdFields w).k = k := by
  refine ⟨fun h => by simp [← h, cmdFields_cmdWord], ?_⟩
  rintro ⟨hhi, rfl, hmid, rfl, rfl⟩
  exact (eq_cmdWord w hhi hmid).symm

/-- Masking a word masks each of its fields. -/
theorem cmdFields_and (v w : Word) :
    cmdFields (v &&& w) =
      { zeroHi := (cmdFields v).zeroHi &&& (cmdFields w).zeroHi
        opcode := (cmdFields v).opcode &&& (cmdFields w).opcode
        zeroMid := (cmdFields v).zeroMid &&& (cmdFields w).zeroMid
        n := (cmdFields v).n &&& (cmdFields w).n
        k := (cmdFields v).k &&& (cmdFields w).k } := by
  simp [cmdFields, BitVec.extractLsb'_and]

theorem ofBool_getLsbD_sixteen (w : Word) : BitVec.ofBool (w.getLsbD 16) = (cmdFields w).n := by
  ext i hi
  obtain rfl : i = 0 := by omega
  simp [cmdFields]

/-- The mask of a row without free fields. -/
theorem cmdWord_neither_eq_iff_and_mask (op : BitVec 8) (w : Word) :
    cmdWord op 0#1 0#16 = w ↔ w &&& 0xFFFFFFFFFFFFFFFF#64 = cmdWord op 0#1 0#16 := by
  have hmask : w &&& 0xFFFFFFFFFFFFFFFF#64 = w := BitVec.and_allOnes
  rw [hmask, eq_comm]

/-- The mask of a row whose free field is `k`. -/
theorem cmdWord_stage_eq_iff_and_mask (op : BitVec 8) (w : Word) :
    cmdWord op 0#1 (w.extractLsb' 0 16) = w ↔ w &&& 0xFFFFFFFFFFFF0000#64 = cmdWord op 0#1 0#16 := by
  have hmask : cmdFields 0xFFFFFFFFFFFF0000#64 =
    { zeroHi := .allOnes 32, opcode := .allOnes 8, zeroMid := .allOnes 7, n := .allOnes 1, k := 0#16 } := by decide
  have hk : (cmdFields w).k = w.extractLsb' 0 16 := rfl
  rw [eq_comm (b := cmdWord op 0#1 0#16), cmdWord_eq_iff_fields, cmdWord_eq_iff_fields, cmdFields_and, hmask]
  simp only [BitVec.and_allOnes, BitVec.and_zero, hk]

/-- The mask of a row whose free fields are `n` and `k`. -/
theorem cmdWord_stageAndSign_eq_iff_and_mask (op : BitVec 8) (w : Word) :
    cmdWord op (.ofBool (w.getLsbD 16)) (w.extractLsb' 0 16) = w ↔
      w &&& 0xFFFFFFFFFFFE0000#64 = cmdWord op 0#1 0#16 := by
  have hmask : cmdFields 0xFFFFFFFFFFFE0000#64 =
    { zeroHi := .allOnes 32, opcode := .allOnes 8, zeroMid := .allOnes 7, n := 0#1, k := 0#16 } := by decide
  have hk : (cmdFields w).k = w.extractLsb' 0 16 := rfl
  rw [eq_comm (b := cmdWord op 0#1 0#16), cmdWord_eq_iff_fields, cmdWord_eq_iff_fields, cmdFields_and, hmask]
  simp only [BitVec.and_allOnes, BitVec.and_zero, hk, ofBool_getLsbD_sixteen]

/-- The commands of the rows of R82, in the rows' order, with the fields they have where a row leaves them free. -/
def rowCommands (k : BitVec 16) (n : Bool) : List Instr :=
  [.oscInit, .oscReset, .oscFill, .bqDesign k n, .bqLoad k, .bqReset k, .bqApply k, .casBuild, .casReset, .casApply]

/-- What the command decoder answers is a row's command, with `k` from bits 15:0 and `n` from bit 16 (R83, R84). -/
theorem mem_rowCommands_of_decodeCmd {w : Word} {i : Instr} (h : decodeCmd w = .ok i) :
    i ∈ rowCommands (w.extractLsb' 0 16) (w.getLsbD 16) := by
  have hk : (cmdFields w).k = w.extractLsb' 0 16 := rfl
  have hn : ((cmdFields w).n == 1#1) = w.getLsbD 16 := by rw [← ofBool_getLsbD_sixteen, beq_one_ofBool]
  have hcases := decodeCmd_ok h
  rw [hk, hn] at hcases
  simp only [rowCommands, List.mem_cons, List.not_mem_nil, or_false]
  tauto

/-- R82: the rows' second form and the decoder agree, row by row. -/
theorem decodeCmd_rows (w : Word) :
    List.Forall₂ (fun r i => decodeCmd w = .ok i ↔ w &&& r.1 = r.2) commandRows
      (rowCommands (w.extractLsb' 0 16) (w.getLsbD 16)) := by
  have hneither {i : Instr} (op : BitVec 8) (hi : i.wf = true) (he : encode i = .write Addr.cmd (cmdWord op 0#1 0#16)) :=
    (decodeCmd_eq_ok_iff hi he w).trans (cmdWord_neither_eq_iff_and_mask op w)
  have hstage {i : Instr} (op : BitVec 8) (hi : i.wf = true)
      (he : encode i = .write Addr.cmd (cmdWord op 0#1 (w.extractLsb' 0 16))) :=
    (decodeCmd_eq_ok_iff hi he w).trans (cmdWord_stage_eq_iff_and_mask op w)
  have hdesign := (decodeCmd_eq_ok_iff (i := .bqDesign _ _) rfl rfl w).trans (cmdWord_stageAndSign_eq_iff_and_mask 0x10#8 w)
  exact .cons (hneither 0x01#8 rfl rfl) <| .cons (hneither 0x02#8 rfl rfl) <| .cons (hneither 0x03#8 rfl rfl) <|
    .cons hdesign <| .cons (hstage 0x11#8 rfl rfl) <| .cons (hstage 0x12#8 rfl rfl) <| .cons (hstage 0x13#8 rfl rfl) <|
    .cons (hneither 0x20#8 rfl rfl) <| .cons (hneither 0x21#8 rfl rfl) <| .cons (hneither 0x22#8 rfl rfl) .nil

/-- Every row's mask covers the opcode (R82), so a word of the row has the row's opcode. -/
theorem opcode_of_row {r : Word × Word} (hr : r ∈ commandRows) {w : Word} (h : w &&& r.1 = r.2) :
    (cmdFields w).opcode = (cmdFields r.2).opcode := by
  have hmask : ∀ r ∈ commandRows, (cmdFields r.1).opcode = .allOnes 8 := by simp [commandRows, cmdFields]
  rw [← h, cmdFields_and, hmask r hr, BitVec.and_allOnes]

/-- No word is of two rows: the rows' opcodes differ. -/
theorem commandRows_disjoint {w : Word} {r r' : Word × Word} (hr : r ∈ commandRows) (hr' : r' ∈ commandRows)
    (h : w &&& r.1 = r.2) (h' : w &&& r'.1 = r'.2) : r = r' := by
  have hnodup : (commandRows.map fun r => (cmdFields r.2).opcode).Nodup := by decide
  exact List.inj_on_of_nodup_map hnodup hr hr' ((opcode_of_row hr h).symm.trans (opcode_of_row hr' h'))

/-- In lists whose entries correspond one to one, both or neither have an entry with the property. -/
theorem exists_mem_iff_of_forall₂ {α β : Type} {p : α → Prop} {q : β → Prop} {l : List α} {l' : List β}
    (h : List.Forall₂ (fun a b => q b ↔ p a) l l') : (∃ a ∈ l, p a) ↔ ∃ b ∈ l', q b := by
  induction h with
  | nil => simp
  | cons hab _ ih => simp [hab, ih]

/-- A word of no row is illegal, and no other word is (R86). -/
theorem noCommandRow_iff (w : Word) : NoCommandRow w ↔ decodeCmd w = .error .illegalCmd := by
  have hrow := exists_mem_iff_of_forall₂ (decodeCmd_rows w)
  constructor
  · intro hno
    cases hd : decodeCmd w with
    | error r => rw [decodeCmd_error hd]
    | ok i =>
      obtain ⟨r, hr, hmatch⟩ := hrow.mpr ⟨i, mem_rowCommands_of_decodeCmd hd, hd⟩
      exact absurd hmatch (hno r hr)
  · intro hd r hr hmatch
    obtain ⟨i, -, hi⟩ := hrow.mp ⟨r, hr, hmatch⟩
    rw [hd] at hi
    cases hi

/-- Settles O3: the row of each command, the opcodes that tell the rows apart, and the words of no row. -/
theorem commandRowsAreMaskAndMatch : Obligations.CommandRowsAreMaskAndMatch := by
  intro w
  have hrows := decodeCmd_rows w
  simp only [commandRows, rowCommands, List.forall₂_cons, List.forall₂_nil_left_iff] at hrows
  obtain ⟨h1, h2, h3, h4, h5, h6, h7, h8, h9, h10, -⟩ := hrows
  exact ⟨h1, h2, h3, h4, h5, h6, h7, h8, h9, h10, fun r hr r' hr' => commandRows_disjoint hr hr', noCommandRow_iff w⟩

/-! ### Written-out words and bus operations -/

/-- Settles O4: ten closed words, each evaluated by the decoder. -/
theorem writtenOutWordsDecode : Obligations.WrittenOutWordsDecode := by
  unfold Obligations.WrittenOutWordsDecode
  decide

/-- Bits 31:30 are all that the region reads of an address (R90). -/
theorem region_and_mask (a : Addr) : Addr.region (a &&& 0xC0000000#32) = a.region := by
  have hmask : (0xC0000000#32).extractLsb' 30 2 = .allOnes 2 := by decide
  rw [Addr.region, BitVec.extractLsb'_and, hmask, BitVec.and_allOnes, Addr.region]

theorem region_getLsbD_one (a : Addr) : a.region.getLsbD 1 = a.getLsbD 31 := by
  simp [Addr.region]

/-- Settles O5: the mask selects the bits of the region, on which the decoder splits. -/
theorem busOperationsByKindAndRegion : Obligations.BusOperationsByKindAndRegion := by
  intro a w
  have hregion {v : Addr} (h : a &&& 0xC0000000#32 = v) : a.region = v.region := by rw [← h, region_and_mask]
  refine ⟨fun h => decode_read_of_region_zero (hregion h), fun h hne => decode_write_of_region_zero (hregion h) hne w,
    fun h => decode_read_of_region_one (hregion h), fun h => decode_write_of_region_one (hregion h) w, fun h => ?_, rfl⟩
  have hne {v : BitVec 2} (hv : v.getLsbD 1 = false) : a.region ≠ v := by
    rintro rfl
    rw [region_getLsbD_one, h] at hv
    cases hv
  have h0 : a.region ≠ 0#2 := hne rfl
  have h1 : a.region ≠ 1#2 := hne rfl
  have hcmd : a ≠ Addr.cmd := by rintro rfl; exact h0 rfl
  simp [decode, h0, h1, hcmd]

/-! ### The faults of a word and of a stage index -/

/-- Settles O7: the decoder rejects the word, and the write faults with nothing done. -/
theorem illegalCommandFaults : Obligations.IllegalCommandFaults := by
  refine ⟨fun s w rest hf hno hp => ?_, by simp [NoCommandRow, commandRows], by simp [NoCommandRow, commandRows]⟩
  have hd : decode (.write 0#32 w) = .error .illegalCmd := (noCommandRow_iff w).mp hno
  rw [step_bus s _ rest hp, hd]
  dsimp only
  rw [rejectTxn_write, if_neg (by simp [hf]), State.raise_of_not_fault (s := { s with pending := rest }) hf]

/-- Behind the write gate the stage check comes first: nothing of the checked action is done (R83, R192). -/
theorem faultsWith_badStage {i : Instr} {k : BitVec 16} {act : Nat → State → State} {s : State} (hf : s.fault = false)
    (hk : s.nstages ≤ k.toNat) (hi : effect i s = s.gated fun s => s.withStage k act) : FaultsWith .badStage i s := by
  have hlt : ¬k.toNat < s.nstages := Nat.not_lt.mpr hk
  rw [FaultsWith, exec_effect, hi, State.gated, if_neg (by simp [hf]), State.withStage, if_neg hlt,
    State.raise_of_not_fault hf]

/-- Settles O20: each BQ command is a gated action behind the stage check, and its row has `k` in bits 15:0. -/
theorem stageIndexOutOfRangeFaults : Obligations.StageIndexOutOfRangeFaults := by
  intro s k n hf hk
  refine ⟨faultsWith_badStage hf hk rfl, faultsWith_badStage hf hk rfl, faultsWith_badStage hf hk rfl,
    faultsWith_badStage hf hk rfl, ?_⟩
  rintro w (h | h | h | h)
  · obtain ⟨h, -⟩ : k = w.extractLsb' 0 16 ∧ n = w.getLsbD 16 := by
      simpa [rowCommands] using mem_rowCommands_of_decodeCmd h
    exact h
  all_goals simpa [rowCommands] using mem_rowCommands_of_decodeCmd h

end Sys2Proof.Machine
end

section
/-!
PROOFS, oscillator (40_oscillator): the half period (R101) and the constructions and restart of the oscillator (R100, R102, R103).
-/
namespace Sys2Proof.Machine

/-! ### The half period -/

theorem halfPeriodOk_iff (cntw : Nat) (r : Int) : halfPeriodOk cntw r = true ↔ 1 ≤ r ∧ r ≤ 2 ^ cntw - 1 := by
  simp [halfPeriodOk]

theorem halfPeriodOk_natCast_iff (cntw n : Nat) : halfPeriodOk cntw n = true ↔ 1 ≤ n ∧ n ≤ 2 ^ cntw - 1 := by
  have hpos : 1 ≤ 2 ^ cntw := Nat.one_le_two_pow
  rw [halfPeriodOk_iff]
  zify [hpos]

/-- A valid half period fits the register's 64 bits. -/
theorem natCast_toNat_ofInt_of_halfPeriodOk {cntw : Nat} {r : Int} (hc : cntw ≤ 63) (hr : halfPeriodOk cntw r = true) :
    ((BitVec.ofInt 64 r).toNat : Int) = r := by
  obtain ⟨h1, h2⟩ := (halfPeriodOk_iff cntw r).mp hr
  have hpow : (2 : Int) ^ cntw ≤ 2 ^ 63 := pow_le_pow_right₀ (by decide) hc
  rw [BitVec.toNat_ofInt, Int.toNat_of_nonneg (by omega)]
  omega

theorem halfPeriod_of_not_isFinite {fs f : Word} (cntw : Nat) (hv : Fp.isFinite (Fp.div (Fp.div fs f) Word.two) = false) :
    halfPeriod cntw fs f = none := by
  simp [halfPeriod, hv]

theorem halfPeriod_of_isFinite {fs f : Word} (cntw : Nat) (hv : Fp.isFinite (Fp.div (Fp.div fs f) Word.two) = true) :
    halfPeriod cntw fs f =
      if halfPeriodOk cntw (Fp.roundHalfAway (Fp.div (Fp.div fs f) Word.two)) = true then
        some (BitVec.ofInt 64 (Fp.roundHalfAway (Fp.div (Fp.div fs f) Word.two)))
      else none := by
  simp only [halfPeriod, hv, if_true]

theorem Fp.isFinite_of_isInf {a : Word} (h : Fp.isInf a = true) : Fp.isFinite a = false := by
  by_contra hfin
  simp [Fp.isInf_of_isFinite (Bool.eq_true_of_not_eq_false hfin)] at h

/-- Settles O22: in range, the register holds the rounded quotient itself. -/
theorem halfPeriodIsTheRoundedQuotient : Obligations.HalfPeriodIsTheRoundedQuotient := by
  intro cntw fs f hc v
  refine ⟨fun h => halfPeriod_of_not_isFinite cntw (h.elim (Fp.isFinite_of_isNaN v) Fp.isFinite_of_isInf), fun hv => ?_⟩
  have hperiod : halfPeriod cntw fs f =
      if halfPeriodOk cntw (Fp.roundHalfAway v) = true then some (BitVec.ofInt 64 (Fp.roundHalfAway v)) else none :=
    halfPeriod_of_isFinite cntw hv
  rw [hperiod]
  refine ⟨fun h => ⟨?_, ?_⟩, ?_⟩
  · intro hsome
    obtain ⟨hr, hh⟩ := Option.ite_none_right_eq_some.mp hsome
    obtain rfl := Option.some.inj hh
    exact ⟨natCast_toNat_ofInt_of_halfPeriodOk hc hr, toNat_ofInt_of_halfPeriodOk hc hr⟩
  · rintro ⟨hr, hrange⟩
    have hok : halfPeriodOk cntw (Fp.roundHalfAway v) = true := hr ▸ (halfPeriodOk_natCast_iff cntw h.toNat).mpr hrange
    rw [if_pos hok, ← hr, BitVec.ofInt_natCast, BitVec.ofNat_toNat, BitVec.setWidth_eq]
  · rw [ite_eq_right_iff, halfPeriodOk_iff]
    simp only [reduceCtorEq, imp_false, not_and_or, not_le]

/-! ### The operations while FAULT = 0 -/

theorem exec_oscInit_of_some {s : State} {h : BitVec 64} (hf : s.fault = false)
    (hh : halfPeriod s.cfg.cntw s.params.fs s.params.f0 = some h) : exec .oscInit s = .next (s.setOsc (Osc.built h)) := by
  simp [exec_effect, effect, oscInit_eq, hf, hh]

theorem exec_oscInit_of_none {s : State} (hf : s.fault = false)
    (hh : halfPeriod s.cfg.cntw s.params.fs s.params.f0 = none) : exec .oscInit s = .next (s.raise .badParam) := by
  simp [exec_effect, effect, oscInit_eq, hf, hh]

theorem exec_oscReset {s : State} (hf : s.fault = false) : exec .oscReset s = .next (s.setOsc s.osc.restart) := by
  simp [exec_effect, effect, oscReset_eq, hf]

/-- A write to OSC_H (R102). -/
theorem regWr_oscH (w : Word) (s : State) : regWr 0x00000020#32 w s = if s.fault then s else writeOscH w s := rfl

theorem exec_regWr_oscH {s : State} (hf : s.fault = false) (w : Word) :
    exec (.regWr 0x00000020#32 w) s = .next (writeOscH w s) := by
  simp [exec_effect, effect, regWr_oscH, hf]

/-- With FAULT = 0, raising a fault sets FAULT and CAUSE (R193). -/
theorem faultsWith_of_exec_raise {i : Instr} {c : Cause} {s : State} (hf : s.fault = false)
    (h : exec i s = .next (s.raise c)) : FaultsWith c i s := by
  rw [FaultsWith, h, State.raise_of_not_fault hf]

/-! ### Replacing the oscillator -/

/-- Replacing the oscillator changes no other register, no buffer word and nothing of the host's side. -/
theorem exec_setOsc_frame {i : Instr} {s : State} {o : Osc} (h : exec i s = .next (s.setOsc o)) :
    ∃ t, exec i s = .next t ∧ t.osc = o ∧ SameStages s t ∧ SameParams s t ∧ SameBufLen s t ∧ SameBuf s t ∧ SameFault s t ∧
      SameHost s t ∧ SameDraws s t :=
  ⟨_, h, rfl, ⟨rfl, fun _ => rfl⟩, ⟨rfl, rfl⟩, rfl, fun _ => rfl, ⟨rfl, rfl⟩, ⟨rfl, rfl, rfl, rfl⟩, rfl⟩

/-- Settles O24: the half period of P_FS and P_F0 decides between the construction and the fault. -/
theorem oscInitConstructs : Obligations.OscInitConstructs := by
  refine ⟨by decide, fun s hf => ⟨fun h hh => ?_, fun hh => ?_⟩⟩
  · exact exec_setOsc_frame (exec_oscInit_of_some hf hh)
  · exact faultsWith_of_exec_raise hf (exec_oscInit_of_none hf hh)

/-- Settles O25: the range of the word written decides between the construction and the fault. -/
theorem oscHWriteConstructs : Obligations.OscHWriteConstructs := by
  intro s w hf
  have hexec := exec_regWr_oscH hf w
  have hok := halfPeriodOk_natCast_iff s.cfg.cntw w.toNat
  refine ⟨fun h1 h2 => ?_, fun hout => ?_⟩
  · rw [writeOscH, if_pos (hok.mpr ⟨h1, h2⟩)] at hexec
    exact exec_setOsc_frame hexec
  · rw [writeOscH, if_neg (by rw [hok]; omega)] at hexec
    exact faultsWith_of_exec_raise hf hexec

/-- Settles O26: the restart replaces the oscillator by itself at LOW and 0. -/
theorem oscResetRestarts : Obligations.OscResetRestarts :=
  ⟨by decide, fun _ hf => exec_setOsc_frame (exec_oscReset hf)⟩

end Sys2Proof.Machine
end

section
/-!
PROOFS, oscillator (40_oscillator): OSC.FILL (R104, R105), the segment law (R107) and continuity (R108).
-/
namespace Sys2Proof.Machine

/-! ### The filled state -/

/-- The state after OSC.FILL of a constructed oscillator (R104). -/
def State.filled (s : State) : State :=
  { s with
    osc := oscAfter s.bufLen.toNat s.osc
    buf := (fillFrom s.bufLen.toNat 0 s.osc s.buf).2 }

theorem exec_oscFill_of_v {s : State} (hf : s.fault = false) (hv : s.osc.v = true) : exec .oscFill s = .next s.filled := by
  rw [exec_effect, effect, oscFill_eq, if_neg (by simp [hf]), if_pos hv]
  rfl

theorem exec_oscFill_of_not_v {s : State} (hf : s.fault = false) (hv : s.osc.v = false) :
    exec .oscFill s = .next (s.raise .unconfigured) := by
  rw [exec_effect, effect, oscFill_eq, if_neg (by simp [hf]), if_neg (by simp [hv])]

/-- Sample `i` of a fill is the output of step `i + 1` of the oscillator. -/
theorem State.readBuf_filled_of_lt {s : State} {i : Nat} (hi : i < s.bufLen.toNat) :
    s.filled.readBuf i = (oscStep (oscAfter i s.osc)).1 := by
  simp [State.readBuf, State.filled, Memory.read, fillFrom_lookup, hi]

theorem State.readBuf_filled_of_le {s : State} {i : Nat} (hi : s.bufLen.toNat ≤ i) : s.filled.readBuf i = s.readBuf i := by
  simp [State.readBuf, State.filled, Memory.read, fillFrom_lookup, Nat.not_lt.mpr hi]

/-! ### One step of the oscillator -/

theorem oscStep_snd (o : Osc) :
    (oscStep o).2 =
      if o.cnt = o.h then { o with level := if o.level = .low then .high else .low, cnt := 1#64 }
      else { o with cnt := o.cnt + 1#64 } := by
  unfold oscStep Osc.turn
  split
  · cases o.level <;> rfl
  · rfl

/-- The output is the sample of the level the step leaves (C1: flip, then output). -/
theorem oscStep_fst (o : Osc) :
    (oscStep o).1 = if (oscStep o).2.level = .high then 0x3FE0000000000000#64 else 0xBFE0000000000000#64 := by
  have hlevel : (oscStep o).1 = (oscStep o).2.level.sample := rfl
  rw [hlevel]
  cases (oscStep o).2.level <;> rfl

/-- Settles O27: the oscillators of the statement are those after each number of samples. -/
theorem oscFillRunsTheOscillator : Obligations.OscFillRunsTheOscillator := by
  refine ⟨by decide, fun s hf => ⟨fun hv => faultsWith_of_exec_raise hf (exec_oscFill_of_not_v hf hv), fun hv => ?_⟩⟩
  refine ⟨s.filled, exec_oscFill_of_v hf hv, ⟨fun i => oscAfter i s.osc, rfl, rfl, fun i hi => ?_⟩,
    fun i => State.readBuf_filled_of_le, ⟨rfl, fun _ => rfl⟩, ⟨rfl, rfl⟩, rfl, ⟨rfl, rfl⟩, ⟨rfl, rfl, rfl, rfl⟩, rfl⟩
  simp only [State.readBuf_filled_of_lt hi, oscAfter_succ]
  exact ⟨oscStep_snd _, oscStep_fst _⟩

/-! ### The segment law -/

/-- The level of sample `j` of a wave of half period `h` that starts LOW (R107). -/
def waveLevel (h j : Nat) : Level := if j / h % 2 = 0 then .low else .high

theorem sample_waveLevel (h j : Nat) :
    (waveLevel h j).sample = if j / h % 2 = 0 then 0xBFE0000000000000#64 else 0x3FE0000000000000#64 := by
  unfold waveLevel
  split <;> rfl

theorem waveLevel_eq_high_iff (h j : Nat) : waveLevel h j = .high ↔ j / h % 2 = 1 := by
  simp [waveLevel]

/-- Inside a segment the next sample has the same level and the next position. -/
theorem wave_succ_of_lt {h j : Nat} (hj : j % h + 1 < h) :
    (j + 1) % h = j % h + 1 ∧ waveLevel h (j + 1) = waveLevel h j := by
  obtain ⟨hdiv, hmod⟩ : (j + 1) / h = j / h ∧ (j + 1) % h = j % h + 1 := by
    rw [Nat.div_mod_unique (by omega)]
    have := Nat.mod_add_div j h
    omega
  simp only [waveLevel, hdiv, hmod, and_self]

/-- The sample after a segment's last has the other level and position 0. -/
theorem wave_succ_of_eq {h j : Nat} (hh : 1 ≤ h) (hj : j % h + 1 = h) :
    (j + 1) % h = 0 ∧ waveLevel h (j + 1) = (waveLevel h j).flip := by
  obtain ⟨hdiv, hmod⟩ : (j + 1) / h = j / h + 1 ∧ (j + 1) % h = 0 := by
    rw [Nat.div_mod_unique hh, Nat.mul_succ]
    have := Nat.mod_add_div j h
    omega
  refine ⟨hmod, ?_⟩
  unfold waveLevel
  rw [hdiv]
  rcases Nat.mod_two_eq_zero_or_one (j / h) with heven | hodd
  · rw [if_neg (by omega), if_pos heven]
    rfl
  · rw [if_pos (by omega), if_neg (by omega)]
    rfl

/-- The oscillator's counter and level after the flip test of sample `j`: the position in the segment and the segment's level. -/
theorem turn_oscAfter {o : Osc} (hl : o.level = .low) (hc : o.cnt = 0#64) (hh : 1 ≤ o.h.toNat) (j : Nat) :
    (oscAfter j o).turn = { o with level := waveLevel o.h.toNat j, cnt := BitVec.ofNat 64 (j % o.h.toNat) } := by
  induction j with
  | zero =>
    have hne : o.cnt ≠ o.h := by
      rw [hc]
      intro h0
      simp [← h0] at hh
    simp [oscAfter, Osc.turn, hne, waveLevel, ← hl, ← hc]
  | succ j ih =>
    have hlt : j % o.h.toNat < o.h.toNat := Nat.mod_lt j hh
    have hcnt : BitVec.ofNat 64 (j % o.h.toNat) + 1#64 = BitVec.ofNat 64 (j % o.h.toNat + 1) := by
      rw [BitVec.ofNat_add]
    have hbound : BitVec.ofNat 64 (j % o.h.toNat + 1) = o.h ↔ j % o.h.toNat + 1 = o.h.toNat := by
      rw [← BitVec.toNat_inj, BitVec.toNat_ofNat, Nat.mod_eq_of_lt (by omega)]
    rw [oscAfter_succ, oscStep, ih, Osc.turn]
    simp only [hcnt, hbound]
    split
    next hend =>
      obtain ⟨hmod, hlevel⟩ := wave_succ_of_eq hh hend
      rw [hmod, hlevel]
    next hin =>
      obtain ⟨hmod, hlevel⟩ := wave_succ_of_lt (h := o.h.toNat) (j := j) (by omega)
      rw [hmod, hlevel]

/-- Settles O28: sample `j` has the level after its flip test, and the last increment comes after the last sample's. -/
theorem segmentLawOfTheWave : Obligations.SegmentLawOfTheWave := by
  intro s hf hv hl hc hh
  have hturn := turn_oscAfter hl hc hh
  refine ⟨s.filled, exec_oscFill_of_v hf hv, fun j hj => ?_, fun hn => ?_, fun hn => ?_⟩
  · rw [State.readBuf_filled_of_lt hj, ← sample_waveLevel, oscStep, hturn]
  · have hosc : s.filled.osc = (oscStep (oscAfter (s.bufLen.toNat - 1) s.osc)).2 := by
      rw [← oscAfter_succ, Nat.sub_add_cancel hn]
      rfl
    have hlt : (s.bufLen.toNat - 1) % s.osc.h.toNat < s.osc.h.toNat := Nat.mod_lt _ hh
    rw [hosc, oscStep, hturn, ← waveLevel_eq_high_iff]
    refine ⟨?_, Iff.rfl⟩
    dsimp only
    rw [← BitVec.ofNat_add, BitVec.toNat_ofNat, Nat.mod_eq_of_lt (by omega)]
  · rw [State.filled, hn]
    rfl

/-! ### Continuity -/

/-- The samples of a fill of `n` samples from the oscillator `o`. -/
def oscSamples (n : Nat) (o : Osc) : List Word := (List.range n).map fun i => (oscStep (oscAfter i o)).1

theorem oscSamples_add (m n : Nat) (o : Osc) : oscSamples (m + n) o = oscSamples m o ++ oscSamples n (oscAfter m o) := by
  simp only [oscSamples, List.range_add, List.map_append, List.map_map, Function.comp_def, oscAfter_add]

theorem State.liveBuf_filled (s : State) : s.filled.liveBuf = oscSamples s.bufLen.toNat s.osc :=
  List.map_congr_left fun _ hi => State.readBuf_filled_of_lt (List.mem_range.mp hi)

/-- What a fill of `n` samples leaves, for a length that fits BUFLEN. -/
theorem exec_oscFill_bufLen {s : State} {n : Nat} (hf : s.fault = false) (hv : s.osc.v = true) (hn : n < 2 ^ 64) :
    ∃ t, exec .oscFill { s with bufLen := BitVec.ofNat 64 n } = .next t ∧ t.fault = false ∧
      t.liveBuf = oscSamples n s.osc ∧ t.osc = oscAfter n s.osc := by
  have hlen : (BitVec.ofNat 64 n).toNat = n := by rw [BitVec.toNat_ofNat, Nat.mod_eq_of_lt hn]
  refine ⟨_, exec_oscFill_of_v hf hv, hf, ?_, ?_⟩
  · rw [State.liveBuf_filled, hlen]
  · rw [State.filled, hlen]

/-- Settles O29: the second fill goes on from the oscillator after the first `n1` samples. -/
theorem fillContinuity : Obligations.FillContinuity := by
  intro s n1 n2 hf hv hcap hmax
  obtain ⟨t1, hexec1, hf1, hbuf1, hosc1⟩ := exec_oscFill_bufLen (n := n1) hf hv (by omega)
  have hv1 : t1.osc.v = true := by rw [hosc1, oscAfter_v, hv]
  obtain ⟨t2, hexec2, -, hbuf2, hosc2⟩ := exec_oscFill_bufLen (n := n2) hf1 hv1 (by omega)
  obtain ⟨t, hexec, -, hbuf, hosc⟩ := exec_oscFill_bufLen (n := n1 + n2) hf hv (by omega)
  refine ⟨t1, t2, t, hexec1, hexec2, hexec, ?_, ?_⟩
  · rw [hbuf1, hbuf2, hbuf, hosc1, oscSamples_add]
  · rw [hosc2, hosc, hosc1, oscAfter_add]

end Sys2Proof.Machine
end

section
/-!
PROOFS, biquad (41_biquad): the constructions and the reset of a stage (R123 to R125) and the reset law (R130).
-/
namespace Sys2Proof.Machine

/-! ### Command words (R81) -/

/-- A laid-out command word is the bitwise or of its fields, each shifted to its place. -/
theorem cmdWord_eq_or (op : BitVec 8) (n : BitVec 1) (k : BitVec 16) :
    cmdWord op n k = op.setWidth 64 <<< 24 ||| n.setWidth 64 <<< 16 ||| k.setWidth 64 := by
  apply BitVec.eq_of_getLsbD_eq
  intro i hi
  simp only [cmdWord, BitVec.getLsbD_append, BitVec.getLsbD_or, BitVec.getLsbD_shiftLeft, BitVec.getLsbD_setWidth]
  grind

/-- A command is what its own word decodes to. -/
theorem decodeCmd_of_encode {i : Instr} {w : Word} (hi : i.wf = true) (he : encode i = .write Addr.cmd w) :
    decodeCmd w = .ok i :=
  (decodeCmd_eq_ok_iff hi he w).mpr rfl

/-! ### Replacing a stage -/

/-- Replacing entry `k` of the stage file gives stage `k` the value and keeps every other stage. -/
theorem stage_of_stages_set {s t : State} {k : Nat} {st : Stage} (hk : k < s.nstages) (h : t.stages = s.stages.set k st) :
    t.stage k = st ∧ SameStagesBut k s t := by
  have hstage (j : Nat) : t.stage j = (s.setStage k st).stage j := by rw [State.stage, h]; rfl
  refine ⟨?_, by simp [State.nstages, h], fun j hj => ?_⟩
  · rw [hstage, State.stage_setStage_self _ _ _ hk]
  · rw [hstage, State.stage_setStage_ne _ _ _ _ hj]

/-- Replacing a stage changes no other register, no buffer word and nothing of the host's side. -/
theorem exec_setStage_frame {i : Instr} {s : State} {k : Nat} {st : Stage} (hk : k < s.nstages)
    (h : exec i s = .next (s.setStage k st)) :
    ∃ t, exec i s = .next t ∧ t.stage k = st ∧ SameStagesBut k s t ∧ SameOsc s t ∧ SameParams s t ∧ SameBufLen s t ∧
      SameBuf s t ∧ SameFault s t ∧ SameHost s t ∧ SameDraws s t := by
  obtain ⟨hself, hbut⟩ := stage_of_stages_set (t := s.setStage k st) hk rfl
  exact ⟨_, h, hself, hbut, rfl, ⟨rfl, rfl⟩, rfl, fun _ => rfl, ⟨rfl, rfl⟩, ⟨rfl, rfl, rfl, rfl⟩, rfl⟩

section Commands

variable {s : State} {k : BitVec 16} (hf : s.fault = false) (hk : k.toNat < s.nstages)

include hf hk

theorem exec_bqDesign (n : Bool) : exec (.bqDesign k n) s = .next (s.designStage k.toNat n) := by
  simp [exec_effect, effect, bqDesign_eq, hf, hk]

theorem exec_bqLoad : exec (.bqLoad k) s = .next (s.setStage k.toNat (Stage.built s.staging)) := by
  simp [exec_effect, effect, bqLoad_eq, hf, hk]

theorem exec_bqReset : exec (.bqReset k) s = .next (s.setStage k.toNat (s.stage k.toNat).clear) := by
  simp [exec_effect, effect, bqReset_eq, hf, hk]

end Commands

/-- Settles O33: the load replaces stage `k` by one built from the staging registers. -/
theorem bqLoadCopiesTheStaging : Obligations.BqLoadCopiesTheStaging := fun _ k hf =>
  ⟨decodeCmd_of_encode rfl (by simp [encode, cmdWord_eq_or]), fun hk => exec_setStage_frame hk (exec_bqLoad hf hk),
    fun hk => faultsWith_badStage hf hk rfl⟩

/-- Settles O34: the reset replaces stage `k` by itself with its history cleared, whatever its valid bit. -/
theorem bqResetClearsTheHistory : Obligations.BqResetClearsTheHistory := fun _ k hf =>
  ⟨decodeCmd_of_encode rfl (by simp [encode, cmdWord_eq_or]), fun hk => exec_setStage_frame hk (exec_bqReset hf hk),
    fun hk => faultsWith_badStage hf hk rfl⟩

/-! ### The reset law -/

/-- Clearing a valid stage builds it anew from its own coefficients. -/
theorem Stage.clear_eq_built {st : Stage} (hv : st.v = true) : st.clear = Stage.built st.c := by
  rw [Stage.clear, hv, Stage.built]

/-- Settles O37: both commands replace stage `k` by one built from the coefficients it has. -/
theorem bqResetIsReloading : Obligations.BqResetIsReloading := by
  intro s k hf hk hv hc
  have hreset := exec_bqReset hf hk
  have hload := exec_bqLoad hf hk
  rw [Stage.clear_eq_built hv] at hreset
  rw [hc] at hload
  exact ⟨_, hreset, hload, State.stage_setStage_self _ _ _ hk, fun later => by rw [execAll, execAll, hreset, hload]⟩

end Sys2Proof.Machine
end

section
/-!
PROOFS, biquad (41_biquad): the design function, its domain (R121, R122), BQ.DESIGN and its example (R123).
-/
namespace Sys2Proof.Machine

/-! ### The sign of a finite word's value -/

theorem Fp.mag_eq_zero_iff (a : Word) : Fp.mag a = 0 ↔ Fp.isZero a = true := by
  refine ⟨fun h => ?_, Fp.mag_of_isZero⟩
  by_cases he : Fp.expField a = 0
  · rw [Fp.mag, if_pos he] at h
    simp [Fp.isZero, he, h]
  · rw [Fp.mag, if_neg he] at h
    simp at h

theorem Fp.value_eq_zero_iff (a : Word) : Fp.value a = 0 ↔ Fp.isZero a = true := by
  rw [← Fp.mag_eq_zero_iff, ← abs_eq_zero, Fp.value_eq_signed, Fp.abs_signed, Nat.cast_eq_zero]

theorem Fp.value_pos_iff {a : Word} (ha : Fp.isFinite a = true) : 0 < Fp.value a ↔ Fp.isPositive a = true := by
  have hmag := Fp.mag_eq_zero_iff a
  rw [Fp.isPositive, Fp.isNaN_of_isFinite ha, Fp.value_eq_signed]
  cases Fp.sign a <;> simp [Fp.signed, Nat.pos_iff_ne_zero, hmag]

/-- R122, one clause after the other. -/
theorem designValid_iff (p : DesignParams) (g : Word) :
    designValid p g = true ↔
      (Fp.isFinite p.fs = true ∧ Fp.isFinite p.f0 = true ∧ Fp.isFinite p.q = true ∧ Fp.isFinite g = true) ∧
      Fp.isPositive p.fs = true ∧ Fp.isPositive p.q = true ∧
      (Fp.isFinite (designA g) = true ∧ Fp.isPositive (designA g) = true) ∧
      Fp.isFinite (designA0 p g) = true ∧ ¬Fp.isZero (designA0 p g) = true := by
  simp only [designValid, Bool.and_eq_true, Bool.not_eq_true', Bool.not_eq_true]
  tauto

/-- Settles O30: a finite word is above zero, or not zero, exactly when its value is. -/
theorem designDomain : Obligations.DesignDomain := by
  intro p g
  rw [designValid_iff, ne_eq, Fp.value_eq_zero_iff]
  refine and_congr_right fun ⟨hfs, _, hq, _⟩ => ?_
  exact and_congr (Fp.value_pos_iff hfs).symm <| and_congr (Fp.value_pos_iff hq).symm <|
    and_congr_left' <| and_congr_right fun hA => (Fp.value_pos_iff hA).symm

/-! ### BQ.DESIGN -/

/-- Settles O31: the design replaces stage `k` by one built from the formula's coefficients, or from five drawn ones. -/
theorem bqDesignBuildsTheStage : Obligations.BqDesignBuildsTheStage := by
  refine fun s k n => ⟨decodeCmd_of_encode (i := .bqDesign k n) rfl (by simp [encode, cmdWord_eq_or]),
    fun hf hk => faultsWith_badStage hf hk rfl, fun hf hk => ?_⟩
  obtain ⟨hself, hbut⟩ := stage_of_stages_set (t := s.designStage k.toNat n) hk rfl
  rw [exec_bqDesign hf hk]
  refine ⟨_, rfl, fun hv => ?_, ?_, ?_, hbut, rfl, ⟨rfl, rfl⟩, rfl, fun _ => rfl, ⟨rfl, rfl⟩, rfl, rfl, rfl, rfl⟩
  · have hvalid : designValid s.params (signedGain s.params n) = true := hv
    rw [hself, State.designCoefs, if_pos hvalid, SameDraws, State.designStage_draws, State.designDraws, if_pos hvalid]
    exact ⟨rfl, rfl, rfl, rfl, rfl, rfl⟩
  · rw [hself]
    exact ⟨rfl, rfl, rfl, rfl⟩
  · rw [hself]
    rfl

/-! ### The example of R123: centre frequency +0.0 -/

theorem Fp.isPositive_iff {a : Word} :
    Fp.isPositive a = true ↔ Fp.isNaN a = false ∧ Fp.isZero a = false ∧ Fp.sign a = false := by
  simp [Fp.isPositive, and_assoc]

theorem Fp.round_zero (s : Bool) (den : Nat) : Fp.round s 0 den = Fp.zero s := by
  simp [Fp.round, Fp.roundMag, Fp.ulpShift, Fp.nearestEven, Fp.zero]

theorem Fp.isZero_round_iff (s : Bool) (num den : Nat) : Fp.isZero (Fp.round s num den) = true ↔ Fp.roundMag num den = 0 := by
  have hlt := Fp.roundMag_lt num den
  rw [Fp.isZero, Fp.round, Fp.expField_pack _ _ hlt, Fp.fraction_pack _ _ hlt, Bool.and_eq_true, beq_iff_eq, beq_iff_eq]
  omega

/-- A quotient of at least one unit does not round to zero. -/
theorem Fp.roundMag_ne_zero {num den : Nat} (hden : 0 < den) (h : den ≤ num) : Fp.roundMag num den ≠ 0 := by
  have hdiv := Fp.div_le_nearestEven num (den * 2 ^ Fp.ulpExp num den)
  have hnormal := Fp.le_significand (num := num) hden
  rw [Fp.roundMag_eq]
  by_cases he : Fp.ulpExp num den = 0
  · have hone : 1 ≤ num / den := (Nat.one_le_div_iff hden).mpr h
    rw [he, pow_zero, mul_one] at hdiv
    rw [Fp.significand, he, pow_zero, mul_one]
    omega
  · have := hnormal he
    omega

theorem Fp.mul_of_isFinite {a b : Word} (ha : Fp.isFinite a = true) (hb : Fp.isFinite b = true) :
    Fp.mul a b = Fp.round (Fp.sign a != Fp.sign b) (Fp.mag a * Fp.mag b) (2 ^ 1074) := by
  rw [Fp.mul_of_not_isNaN (Fp.isNaN_of_isFinite ha) (Fp.isNaN_of_isFinite hb),
    if_neg (by simp [Fp.isInf_of_isFinite ha, Fp.isInf_of_isFinite hb])]

/-- A product of finite numbers with a zero is the zero of its sign. -/
theorem Fp.mul_of_isZero {a b : Word} (ha : Fp.isFinite a = true) (hb : Fp.isFinite b = true)
    (h : Fp.isZero a = true ∨ Fp.isZero b = true) : Fp.mul a b = Fp.zero (Fp.sign a != Fp.sign b) := by
  have hmag : Fp.mag a * Fp.mag b = 0 := by rwa [Nat.mul_eq_zero, Fp.mag_eq_zero_iff, Fp.mag_eq_zero_iff]
  rw [Fp.mul_of_isFinite ha hb, hmag, Fp.round_zero]

/-- Twice a number above zero is above zero; it may be the infinity. -/
theorem Fp.isPositive_two_mul {a : Word} (hfin : Fp.isFinite a = true) (ha : Fp.isPositive a = true) :
    Fp.isPositive (Fp.mul Word.two a) = true := by
  obtain ⟨-, hzero, hsign⟩ := Fp.isPositive_iff.mp ha
  have htwo : 2 ^ 1074 ≤ Fp.mag Word.two := by decide +kernel
  have hmag : Fp.mag a ≠ 0 := by simp [Fp.mag_eq_zero_iff, hzero]
  have hbits := Fp.roundMag_ne_zero (by positivity) (htwo.trans (Nat.le_mul_of_pos_right _ (Nat.pos_of_ne_zero hmag)))
  rw [ne_eq, ← Fp.isZero_round_iff false, Bool.not_eq_true] at hbits
  rw [Fp.mul_of_isFinite (by decide) hfin, hsign]
  exact Fp.isPositive_iff.mpr ⟨Fp.isNaN_round _ _ _, hbits, Fp.sign_round _ _ _⟩

/-- `+0` over a number above zero, an infinity included, is `+0`. -/
theorem Fp.posZero_div {a : Word} (ha : Fp.isPositive a = true) : Fp.div Word.posZero a = Word.posZero := by
  obtain ⟨hnan, hzero, hsign⟩ := Fp.isPositive_iff.mp ha
  have hnum : Fp.mag Word.posZero * 2 ^ 1074 = 0 := by rw [Fp.mag_of_isZero (by decide), Nat.zero_mul]
  rw [Fp.div_of_not_isNaN (by decide) hnan, hsign, hnum, Fp.round_zero, if_neg (by decide),
    if_neg (c := Fp.isZero a = true) (by simp [hzero]), ite_self]
  rfl

theorem designOmega_posZero {p : DesignParams} (hf0 : p.f0 = 0#64) (hfs : Fp.isPositive p.fs = true) :
    designOmega p = Word.posZero := by
  have hprod : Fp.mul (Fp.mul Word.two Word.pi) 0#64 = Word.posZero := by decide +kernel
  rw [designOmega, hf0, hprod, Fp.posZero_div hfs]

theorem designAlpha_posZero {p : DesignParams} (homega : designOmega p = Word.posZero) (hfin : Fp.isFinite p.q = true)
    (hq : Fp.isPositive p.q = true) : designAlpha p = Word.posZero := by
  rw [designAlpha, homega, Fp.sin, if_pos rfl, Fp.posZero_div (Fp.isPositive_two_mul hfin hq)]

/-- R123 (example): with `f0 = +0.0` both `alpha * A` and `alpha / A` are `+0`, so the formula is one of written-out words. -/
theorem peakingEQ_of_f0_zero {p : DesignParams} {g : Word} (hf0 : p.f0 = 0#64) (hv : designValid p g = true) :
    peakingEQ p g =
      { b0 := 0x3FF0000000000000#64, b1 := 0xC000000000000000#64, b2 := 0x3FF0000000000000#64,
        a1 := 0xC000000000000000#64, a2 := 0x3FF0000000000000#64 } := by
  obtain ⟨⟨-, -, hqfin, -⟩, hfs, hq, ⟨hAfin, hA⟩, -⟩ := (designValid_iff p g).mp hv
  have homega := designOmega_posZero hf0 hfs
  have halpha := designAlpha_posZero homega hqfin hq
  have hcos : Fp.cos Word.posZero = Word.one := if_pos rfl
  have hmul : Fp.mul Word.posZero (designA g) = Word.posZero := by
    obtain ⟨-, -, hsign⟩ := Fp.isPositive_iff.mp hA
    rw [Fp.mul_of_isZero (by decide) hAfin (.inl (by decide)), hsign]
    rfl
  simp only [peakingEQ, designA0, halpha, homega, hcos, hmul, Fp.posZero_div hA]
  decide +kernel

/-- Settles O32: the stage is built from the formula, whichever the sign of the gain. -/
theorem designAtFrequencyZero : Obligations.DesignAtFrequencyZero := by
  intro s k n hf hk hf0 hv
  refine ⟨_, exec_bqDesign hf hk n, ?_⟩
  rw [State.designStage_of_valid hv, State.stage_setStage_self _ _ _ hk]
  exact peakingEQ_of_f0_zero hf0 hv

end Sys2Proof.Machine
end

section
/-!
PROOFS, biquad (41_biquad): BQ.APPLY (R126, R127), the content of the history (R132) and continuity (R131).
-/
namespace Sys2Proof.Machine

/-! ### The history of a stage -/

theorem delay1_congr {f g : Nat → Word} {n : Nat} (h1 : Word) (h : ∀ j, j < n → f j = g j) : delay1 h1 f n = delay1 h1 g n := by
  unfold delay1
  split
  · rfl
  · exact h _ (by omega)

theorem delay2_congr {f g : Nat → Word} {n : Nat} (h1 h2 : Word) (h : ∀ j, j < n → f j = g j) :
    delay2 h1 h2 f n = delay2 h1 h2 g n := by
  unfold delay2
  split
  · rfl
  · split
    · rfl
    · exact h _ (by omega)

theorem delay1_zero (h1 : Word) (f : Nat → Word) : delay1 h1 f 0 = h1 := rfl

theorem delay1_succ (h1 : Word) (f : Nat → Word) (n : Nat) : delay1 h1 f (n + 1) = f n := rfl

theorem delay2_zero (h1 h2 : Word) (f : Nat → Word) : delay2 h1 h2 f 0 = h2 := rfl

/-- The second history word is the first one of the sample before. -/
theorem delay2_succ (h1 h2 : Word) (f : Nat → Word) (n : Nat) : delay2 h1 h2 f (n + 1) = delay1 h1 f n := by
  cases n <;> rfl

/-- R132: after `n` samples the history is the last two inputs and outputs, or what of the old history is as late. -/
theorem bqAfter_history (x : Nat → Word) (st : Stage) (n : Nat) :
    bqAfter x n st =
      { c := st.c
        x1 := delay1 st.x1 x n
        x2 := delay2 st.x1 st.x2 x n
        y1 := delay1 st.y1 (bqOut x st) n
        y2 := delay2 st.y1 st.y2 (bqOut x st) n
        v := st.v } := by
  induction n with
  | zero => rfl
  | succ n ih =>
    have hstep : bqAfter x (n + 1) st =
        { bqAfter x n st with x1 := x n, x2 := (bqAfter x n st).x1, y1 := bqOut x st n, y2 := (bqAfter x n st).y1 } := rfl
    rw [hstep, ih, delay1_succ, delay1_succ, delay2_succ, delay2_succ]

/-! ### BQ.APPLY -/

theorem exec_bqApply_of_v {s : State} {k : BitVec 16} (hf : s.fault = false) (hk : k.toNat < s.nstages)
    (hv : (s.stage k.toNat).v = true) : exec (.bqApply k) s = .next (s.applyStage k.toNat) := by
  simp [exec_effect, effect, bqApply_eq, hf, hk, hv]

theorem exec_bqApply_of_not_v {s : State} {k : BitVec 16} (hf : s.fault = false) (hk : k.toNat < s.nstages)
    (hv : (s.stage k.toNat).v = false) : exec (.bqApply k) s = .next (s.raise .unconfigured) := by
  simp [exec_effect, effect, bqApply_eq, hf, hk, hv]

theorem State.readBuf_applyStage_of_lt {s : State} (k : Nat) {i : Nat} (hi : i < s.bufLen.toNat) :
    (s.applyStage k).readBuf i = bqOut s.readBuf (s.stage k) i := by
  rw [State.readBuf_applyStage, if_pos hi]

theorem State.readBuf_applyStage_of_le {s : State} (k : Nat) {i : Nat} (hi : s.bufLen.toNat ≤ i) :
    (s.applyStage k).readBuf i = s.readBuf i := by
  rw [State.readBuf_applyStage, if_neg (Nat.not_lt.mpr hi)]

/-- Within the live buffer the stage after `n` samples has the last two words of each buffer as its history. -/
theorem State.bqAfter_readBuf {s : State} (k : Nat) {n : Nat} (hn : n ≤ s.bufLen.toNat) :
    bqAfter s.readBuf n (s.stage k) =
      { c := (s.stage k).c
        x1 := delay1 (s.stage k).x1 s.readBuf n
        x2 := delay2 (s.stage k).x1 (s.stage k).x2 s.readBuf n
        y1 := delay1 (s.stage k).y1 (s.applyStage k).readBuf n
        y2 := delay2 (s.stage k).y1 (s.stage k).y2 (s.applyStage k).readBuf n
        v := (s.stage k).v } := by
  have hout (j : Nat) (hj : j < n) : (s.applyStage k).readBuf j = bqOut s.readBuf (s.stage k) j :=
    State.readBuf_applyStage_of_lt k (hj.trans_le hn)
  rw [delay1_congr _ hout, delay2_congr _ _ hout, bqAfter_history]

/-- Settles O35: each output is the step's, on the history that the samples before it leave. -/
theorem bqApplyIsTheRecurrence : Obligations.BqApplyIsTheRecurrence := by
  refine fun s k hf => ⟨decodeCmd_of_encode rfl (by simp [encode, cmdWord_eq_or]), fun hk hv => ?_,
    fun hk => faultsWith_badStage hf hk rfl, fun hk hv => faultsWith_of_exec_raise hf (exec_bqApply_of_not_v hf hk hv)⟩
  obtain ⟨hself, hbut⟩ := stage_of_stages_set (t := s.applyStage k.toNat) hk rfl
  refine ⟨_, exec_bqApply_of_v hf hk hv, ⟨fun i hi => ?_, ?_⟩, fun i => State.readBuf_applyStage_of_le _, hbut, rfl,
    ⟨rfl, rfl⟩, rfl, ⟨rfl, rfl⟩, ⟨rfl, rfl, rfl, rfl⟩, rfl⟩
  · rw [State.readBuf_applyStage_of_lt _ hi, bqOut, State.bqAfter_readBuf _ hi.le]
    rfl
  · rw [hself, applyFrom_stage]
    simp only [Nat.zero_add]
    exact State.bqAfter_readBuf _ le_rfl

/-! ### A buffer loaded by the host -/

/-- A list as a stream of samples; past its end it is `+0`. -/
def stream (xs : List Word) (i : Nat) : Word := xs.getD i Word.posZero

theorem State.lookup_loadBuf (s : State) (xs : List Word) {i : Nat} (hi : i < xs.length) :
    (s.loadBuf xs).buf.lookup i = some (stream xs i) := by
  induction xs using List.reverseRecOn with
  | nil => cases hi
  | append_singleton xs x ih =>
    have hbuf : (s.loadBuf (xs ++ [x])).buf = (s.loadBuf xs).buf.write xs.length x := by
      simp [State.loadBuf, List.zipIdx_append]
    rw [hbuf, Memory.lookup_write]
    split
    next hlast =>
      subst hlast
      simp [stream]
    next hne =>
      rw [List.length_append, List.length_singleton] at hi
      rw [ih (by omega), stream, stream, List.getD_append _ _ _ _ (by omega)]

theorem State.readBuf_loadBuf (s : State) (xs : List Word) {i : Nat} (hi : i < xs.length) :
    (s.loadBuf xs).readBuf i = stream xs i := by
  rw [State.readBuf, Memory.read, State.lookup_loadBuf s xs hi, Option.getD_some]

/-! ### Continuity -/

/-- The first `n` outputs of a stage on a stream. -/
def bqSamples (x : Nat → Word) (n : Nat) (st : Stage) : List Word := (List.range n).map (bqOut x st)

theorem bqAfter_add (x : Nat → Word) (m n : Nat) (st : Stage) :
    bqAfter x (m + n) st = bqAfter (fun j => x (m + j)) n (bqAfter x m st) := by
  induction n with
  | zero => rfl
  | succ n ih => rw [← Nat.add_assoc, bqAfter, bqAfter, ih]

theorem bqOut_add (x : Nat → Word) (m n : Nat) (st : Stage) :
    bqOut x st (m + n) = bqOut (fun j => x (m + j)) (bqAfter x m st) n := by
  rw [bqOut, bqAfter_add, bqOut]

theorem bqSamples_add (x : Nat → Word) (m n : Nat) (st : Stage) :
    bqSamples x (m + n) st = bqSamples x m st ++ bqSamples (fun j => x (m + j)) n (bqAfter x m st) := by
  simp only [bqSamples, List.range_add, List.map_append, List.map_map, Function.comp_def, bqOut_add]

/-- The outputs depend on the samples up to their own only. -/
theorem bqSamples_congr {x y : Nat → Word} {n : Nat} (st : Stage) (h : ∀ j, j < n → x j = y j) :
    bqSamples x n st = bqSamples y n st := by
  refine List.map_congr_left fun j hj => ?_
  have hj := List.mem_range.mp hj
  rw [bqOut, bqOut, h j hj, bqAfter_congr x y j st fun i hi => h i (hi.trans hj)]

theorem State.liveBuf_applyStage (s : State) (k : Nat) :
    (s.applyStage k).liveBuf = bqSamples s.readBuf s.bufLen.toNat (s.stage k) :=
  List.map_congr_left fun _ hi => State.readBuf_applyStage_of_lt k (List.mem_range.mp hi)

/-- What BQ.APPLY leaves of a loaded buffer, for a length that fits BUFLEN. -/
theorem exec_bqApply_loadBuf {s : State} {k : BitVec 16} {xs : List Word} (hf : s.fault = false) (hk : k.toNat < s.nstages)
    (hv : (s.stage k.toNat).v = true) (hn : xs.length < 2 ^ 64) :
    ∃ t, exec (.bqApply k) (s.loadBuf xs) = .next t ∧ t.fault = false ∧
      t.liveBuf = bqSamples (stream xs) xs.length (s.stage k.toNat) ∧
      t.stages = s.stages.set k.toNat (bqAfter (stream xs) xs.length (s.stage k.toNat)) := by
  have hlen : (s.loadBuf xs).bufLen.toNat = xs.length := by
    rw [State.loadBuf, BitVec.toNat_ofNat, Nat.mod_eq_of_lt hn]
  have hread (j : Nat) (hj : j < xs.length) : (s.loadBuf xs).readBuf j = stream xs j := State.readBuf_loadBuf s xs hj
  refine ⟨_, exec_bqApply_of_v (s := s.loadBuf xs) hf hk hv, hf, ?_, ?_⟩
  · rw [State.liveBuf_applyStage, hlen]
    exact bqSamples_congr _ hread
  · rw [State.applyStage_stages, hlen, applyFrom_stage]
    simp only [Nat.zero_add]
    exact congrArg _ (bqAfter_congr _ _ _ _ hread)

theorem stream_append_of_lt {xs : List Word} (ys : List Word) {j : Nat} (hj : j < xs.length) :
    stream (xs ++ ys) j = stream xs j :=
  List.getD_append _ _ _ _ hj

theorem stream_append_add (xs ys : List Word) (j : Nat) : stream (xs ++ ys) (xs.length + j) = stream ys j := by
  rw [stream, List.getD_append_right _ _ _ _ (Nat.le_add_right _ _), Nat.add_sub_cancel_left, stream]

/-- Settles O38: the second pass goes on from the stage that the first leaves. -/
theorem applyContinuity : Obligations.ApplyContinuity := by
  intro s k xs ys hf hk hv hcap hmax
  obtain ⟨t1, hexec1, hf1, hbuf1, hstages1⟩ := exec_bqApply_loadBuf (xs := xs) hf hk hv (by omega)
  obtain ⟨hself1, hbut1⟩ := stage_of_stages_set hk hstages1
  have hk1 : k.toNat < t1.nstages := hbut1.1 ▸ hk
  have hv1 : (t1.stage k.toNat).v = true := by rw [hself1, bqAfter_v, hv]
  obtain ⟨t2, hexec2, -, hbuf2, hstages2⟩ := exec_bqApply_loadBuf (xs := ys) hf1 hk1 hv1 (by omega)
  obtain ⟨t, hexec, -, hbuf, hstages⟩ := exec_bqApply_loadBuf (xs := xs ++ ys) hf hk hv (by rw [List.length_append]; omega)
  have hfirst (j : Nat) (hj : j < xs.length) : stream (xs ++ ys) j = stream xs j := stream_append_of_lt ys hj
  refine ⟨t1, t2, t, hexec1, hexec2, hexec, ?_, ?_⟩
  · rw [hbuf1, hbuf2, hbuf, hself1, List.length_append, bqSamples_add, bqSamples_congr _ hfirst, bqAfter_congr _ _ _ _ hfirst]
    simp only [stream_append_add]
  · rw [hstages2, hstages1, hself1, List.set_set, hstages, List.length_append, bqAfter_add, bqAfter_congr _ _ _ _ hfirst]
    simp only [stream_append_add]

end Sys2Proof.Machine
end

section
/-!
PROOFS, biquad (41_biquad): the impulse response (R129). A product with a zero is a zero, and adding or subtracting a zero changes
nothing but the sign of a zero, so each output is its few other terms.
-/
namespace Sys2Proof.Machine

/-! ### A finite word is the rounding of its own value -/

theorem Fp.fraction_lt (a : Word) : Fp.fraction a < 2 ^ 52 := by
  rw [Fp.fraction_eq]
  exact Nat.mod_lt _ (by positivity)

theorem Fp.nearestEven_mul_self (q : Nat) {den : Nat} (hden : 0 < den) : Fp.nearestEven (q * den) den = q := by
  simp [Fp.nearestEven, Nat.mul_div_cancel q hden, hden.ne]

/-- The unit in the last place of a word's magnitude is the one its exponent field says. -/
theorem Fp.ulpShift_mag (a : Word) : Fp.ulpShift (Fp.mag a) = Fp.expField a - 1 := by
  have hf := Fp.fraction_lt a
  unfold Fp.mag
  split
  next hsub =>
    rw [hsub]
    by_contra hne
    have hle := (Nat.pow_le_pow_right two_pos (Nat.le_add_right 52 _)).trans (Fp.two_pow_ulpShift_le hne)
    omega
  next hnormal =>
    have hpos : 0 < 2 ^ (Fp.expField a - 1) := by positivity
    have hlog : Nat.log2 ((2 ^ 52 + Fp.fraction a) * 2 ^ (Fp.expField a - 1)) = 52 + (Fp.expField a - 1) := by
      rw [Nat.log2_eq_iff (by positivity), Nat.add_right_comm, pow_add, pow_add]
      exact ⟨Nat.mul_le_mul_right _ (by omega), Nat.mul_lt_mul_of_pos_right (by omega) hpos⟩
    rw [Fp.ulpShift, hlog, Nat.add_sub_cancel_left]

/-- A finite magnitude is its fraction, with the hidden bit where it has one, in its unit. -/
theorem Fp.roundMag_mag {a : Word} (ha : Fp.isFinite a = true) {den : Nat} (hden : 0 < den) :
    Fp.roundMag (Fp.mag a * den) den = Fp.expField a * 2 ^ 52 + Fp.fraction a := by
  have hf := Fp.fraction_lt a
  have hexp : Fp.expField a < 2047 := by
    have : Fp.expField a < 2 ^ 11 := BitVec.isLt _
    simp only [Fp.isFinite, bne_iff_ne] at ha
    omega
  have hulp : Fp.ulpExp (Fp.mag a * den) den = Fp.expField a - 1 := by
    rw [Fp.ulpExp, Nat.mul_div_cancel _ hden, Fp.ulpShift_mag]
  rw [Fp.roundMag_eq, Fp.significand, hulp]
  unfold Fp.mag
  split
  next hsub =>
    rw [hsub, Nat.zero_sub, pow_zero, Nat.mul_one, Fp.nearestEven_mul_self _ hden]
    omega
  next hnormal =>
    rw [Nat.mul_assoc, Nat.mul_comm _ den, Fp.nearestEven_mul_self _ (by positivity)]
    omega

theorem Fp.pack_fields (a : Word) : Fp.pack (Fp.sign a) (Fp.expField a * 2 ^ 52 + Fp.fraction a) = a := by
  have hlt := a.isLt
  have hexp := Fp.expField_eq a
  have hfrac := Fp.fraction_eq a
  apply BitVec.eq_of_toNat_eq
  rw [Fp.toNat_pack _ _ (by omega), Fp.sign_eq]
  by_cases hs : 2 ^ 63 ≤ a.toNat
  · simp only [hs, decide_true, Bool.toNat_true]
    omega
  · simp only [hs, decide_false, Bool.toNat_false]
    omega

/-- A finite magnitude is its own rounding (R12). -/
theorem Fp.round_mag {a : Word} (ha : Fp.isFinite a = true) {den : Nat} (hden : 0 < den) :
    Fp.round (Fp.sign a) (Fp.mag a * den) den = a := by
  rw [Fp.round, Fp.roundMag_mag ha hden, Fp.pack_fields]

theorem Fp.mul_one {a : Word} (ha : Fp.isFinite a = true) : Fp.mul a Word.one = a := by
  have hone : Fp.mag Word.one = 2 ^ 1074 := by decide +kernel
  have hsign : (Fp.sign a != Fp.sign Word.one) = Fp.sign a := Bool.bne_false _
  rw [Fp.mul_of_isFinite ha (by decide), hsign, hone, Fp.round_mag ha (by positivity)]

/-! ### Samples up to the sign of a zero and the choice of a NaN -/

theorem Fp.isNaN_of_isZero {a : Word} (h : Fp.isZero a = true) : Fp.isNaN a = false := by
  simp only [Fp.isZero, Bool.and_eq_true, beq_iff_eq] at h
  simp [Fp.isNaN, h.1]

theorem SameSample.refl (x : Word) : SameSample x x := .inl rfl

theorem SameSample.symm {x y : Word} (h : SameSample x y) : SameSample y x := by
  obtain rfl | ⟨hx, hy⟩ | ⟨hx, hy⟩ := h
  · exact .refl _
  · exact .inr (.inl ⟨hy, hx⟩)
  · exact .inr (.inr ⟨hy, hx⟩)

theorem SameSample.isZero {x y : Word} (h : SameSample x y) (hy : Fp.isZero y = true) : Fp.isZero x = true := by
  obtain rfl | ⟨hx, -⟩ | ⟨-, hny⟩ := h
  · exact hy
  · exact hx
  · simp [Fp.isNaN_of_isZero hy] at hny

theorem SameSample.isNaN {x y : Word} (h : SameSample x y) (hy : Fp.isNaN y = true) : Fp.isNaN x = true := by
  obtain rfl | ⟨-, hzy⟩ | ⟨hx, -⟩ := h
  · exact hy
  · simp [Fp.isNaN_of_isZero hzy] at hy
  · exact hx

theorem SameSample.trans {x y z : Word} (hxy : SameSample x y) (hyz : SameSample y z) : SameSample x z := by
  obtain rfl | ⟨hy, hz⟩ | ⟨hy, hz⟩ := hyz
  · exact hxy
  · exact .inr (.inl ⟨hxy.isZero hy, hz⟩)
  · exact .inr (.inr ⟨hxy.isNaN hy, hz⟩)

/-! ### Adding a zero -/

theorem Fp.isFinite_of_isZero {a : Word} (h : Fp.isZero a = true) : Fp.isFinite a = true := by
  simp only [Fp.isZero, Bool.and_eq_true, beq_iff_eq] at h
  simp [Fp.isFinite, h.1]

theorem Fp.isFinite_of_not_isNaN_of_not_isInf {a : Word} (hn : Fp.isNaN a = false) (hi : ¬Fp.isInf a = true) :
    Fp.isFinite a = true := by
  simp only [Fp.isNaN, Fp.isInf, Bool.and_eq_false_imp, Bool.and_eq_true, beq_iff_eq, bne_eq_false_iff_eq, not_and] at hn hi
  simpa [Fp.isFinite] using fun he => hi he (hn he)

theorem Fp.isZero_zero (s : Bool) : Fp.isZero (Fp.zero s) = true := by
  cases s <;> decide

theorem Fp.addFinite_comm (a b : Word) : Fp.addFinite a b = Fp.addFinite b a := by
  simp only [Fp.addFinite, Int.add_comm, Bool.and_comm]

/-- The sum of a finite number and a zero is the number, or a zero of either sign. -/
theorem Fp.addFinite_zero {a z : Word} (ha : Fp.isFinite a = true) (hz : Fp.isZero z = true) :
    SameSample (Fp.addFinite a z) a := by
  have hsum : Fp.value a + Fp.value z = Fp.value a := by rw [(Fp.value_eq_zero_iff z).mpr hz, Int.add_zero]
  simp only [Fp.addFinite, hsum]
  split
  next h0 => exact .inr (.inl ⟨Fp.isZero_zero _, (Fp.value_eq_zero_iff a).mp h0⟩)
  next h0 =>
    have hmag : Fp.mag a ≠ 0 := fun h => h0 (by rw [Fp.value_eq_signed, h, Fp.signed_zero])
    have hsign : decide (Fp.value a < 0) = Fp.sign a := by
      rw [Fp.value_eq_signed]
      cases Fp.sign a <;> simp [Fp.signed]
      omega
    have habs : (Fp.value a).natAbs = Fp.mag a := by
      rw [← Int.natCast_inj, Int.natCast_natAbs, Fp.value_eq_signed, Fp.abs_signed]
    left
    have h := Fp.round_mag ha Nat.one_pos
    rwa [Nat.mul_one, ← hsign, ← habs] at h

/-- The sum of a number, infinite or not, and a zero is the number, or a zero of either sign. -/
theorem Fp.addWith_zero {nan a z : Word} (ha : Fp.isNaN a = false) (hz : Fp.isZero z = true) :
    SameSample (Fp.addWith nan a z) a ∧ SameSample (Fp.addWith nan z a) a := by
  have hzfin := Fp.isFinite_of_isZero hz
  by_cases hi : Fp.isInf a = true
  · simp [Fp.addWith, hi, Fp.isInf_of_isFinite hzfin, SameSample.refl]
  · have hfin := Fp.isFinite_of_not_isNaN_of_not_isInf ha hi
    rw [Fp.addWith_of_isFinite hfin hzfin, Fp.addWith_of_isFinite hzfin hfin, Fp.addFinite_comm z]
    exact ⟨Fp.addFinite_zero hfin hz, Fp.addFinite_zero hfin hz⟩

/-- Two samples are the same when they are for a number, and a NaN gives a NaN. -/
theorem SameSample.of_isNaN_imp {r a : Word} (hnan : Fp.isNaN a = true → Fp.isNaN r = true)
    (hnum : Fp.isNaN a = false → SameSample r a) : SameSample r a := by
  cases ha : Fp.isNaN a with
  | true => exact .inr (.inr ⟨hnan ha, ha⟩)
  | false => exact hnum ha

section Zero

variable {z : Word} (hz : Fp.isZero z = true) (a : Word)

include hz

theorem Fp.add_zero : SameSample (Fp.add a z) a := by
  refine .of_isNaN_imp (fun ha => (Fp.isNaN_add_iff a z).mpr (.inl ha)) fun ha => ?_
  rw [Fp.add_of_not_isNaN ha (Fp.isNaN_of_isZero hz)]
  exact (Fp.addWith_zero ha hz).1

theorem Fp.zero_add : SameSample (Fp.add z a) a := by
  refine .of_isNaN_imp (fun ha => (Fp.isNaN_add_iff z a).mpr (.inr (.inl ha))) fun ha => ?_
  rw [Fp.add_of_not_isNaN (Fp.isNaN_of_isZero hz) ha]
  exact (Fp.addWith_zero ha hz).2

theorem Fp.sub_zero : SameSample (Fp.sub a z) a := by
  refine .of_isNaN_imp (fun ha => (Fp.isNaN_sub_iff a z).mpr (.inl ha)) fun ha => ?_
  rw [Fp.sub_of_not_isNaN ha (Fp.isNaN_of_isZero hz)]
  exact (Fp.addWith_zero ha ((Fp.isZero_neg z).trans hz)).1

theorem Fp.zero_sub : SameSample (Fp.sub z a) (Fp.neg a) := by
  have hneg := Fp.isNaN_neg a
  refine .of_isNaN_imp (fun ha => (Fp.isNaN_sub_iff z a).mpr (.inr (.inl (hneg ▸ ha)))) fun ha => ?_
  rw [Fp.sub_of_not_isNaN (Fp.isNaN_of_isZero hz) (hneg ▸ ha)]
  exact (Fp.addWith_zero ha hz).2

end Zero

/-- Samples that are the same stay so when one word is taken from both. -/
theorem SameSample.sub {x y : Word} (h : SameSample x y) (u : Word) : SameSample (Fp.sub x u) (Fp.sub y u) := by
  obtain rfl | ⟨hx, hy⟩ | ⟨hx, hy⟩ := h
  · exact .refl _
  · exact (Fp.zero_sub hx u).trans (Fp.zero_sub hy u).symm
  · rw [Fp.sub_of_isNaN _ _ (.inl hx), Fp.sub_of_isNaN _ _ (.inl hy)]
    exact .inr (.inr ⟨Fp.isNaN_nan _ _ _, Fp.isNaN_nan _ _ _⟩)

/-! ### The response -/

theorem Fp.isZero_mul_posZero {a : Word} (ha : Fp.isFinite a = true) : Fp.isZero (Fp.mul a 0#64) = true := by
  rw [Fp.mul_of_isZero ha (by decide) (.inr (by decide))]
  exact Fp.isZero_zero _

/-- Settles O36: at each sample one feedforward term has the impulse, and the feedback is of the outputs so far. -/
theorem impulseResponse : Obligations.ImpulseResponse := by
  intro s k c hf hk hst ⟨hb0, hb1, hb2, ha1, ha2⟩ hlen hx0 hx
  obtain ⟨-, happly, -⟩ := bqApplyIsTheRecurrence s k hf
  obtain ⟨t, hexec, ⟨hrec, -⟩, -⟩ := happly hk (by rw [hst])
  have hone : s.readBuf 0 = Word.one := hx0
  have hx1 : s.readBuf 1 = 0#64 := hx 1 (by omega) (by omega)
  have hx2 : s.readBuf 2 = 0#64 := hx 2 (by omega) (by omega)
  have hy0 := hrec 0 (by omega)
  have hy1 := hrec 1 (by omega)
  have hy2 := hrec 2 (by omega)
  simp only [hst, delay1_zero, delay1_succ, delay2_zero, delay2_succ, hone, hx1, hx2, Fp.mul_one hb0, Fp.mul_one hb1,
    Fp.mul_one hb2] at hy0 hy1 hy2
  have hz {a : Word} (ha : Fp.isFinite a = true) : Fp.isZero (Fp.mul a 0#64) = true := Fp.isZero_mul_posZero ha
  refine ⟨t, hexec, ?_, ?_, ?_⟩
  · have hforward := (Fp.add_zero (hz hb2) _).trans (Fp.add_zero (hz hb1) c.b0)
    rw [hy0]
    exact (Fp.sub_zero (hz ha2) _).trans ((Fp.sub_zero (hz ha1) _).trans hforward)
  · have hforward := (Fp.add_zero (hz hb2) _).trans (Fp.zero_add (hz hb0) c.b1)
    rw [hy1]
    exact (Fp.sub_zero (hz ha2) _).trans (hforward.sub _)
  · have hforward := Fp.zero_add ((Fp.add_zero (hz hb1) _).isZero (hz hb0)) c.b2
    rw [hy2]
    exact (hforward.sub _).sub _

end Sys2Proof.Machine
end

section
/-!
PROOFS, cascade (42_cascade): CAS.BUILD (R151, R152), CAS.RESET (R153) and its law (R157), and CAS.APPLY as a sequence of passes
(R154).
-/
namespace Sys2Proof.Machine

/-! ### Command sequences -/

theorem execAll_cons_of_next {i : Instr} {s t : State} (h : exec i s = .next t) (is : List Instr) :
    execAll (i :: is) s = execAll is t := by
  rw [execAll, h]

/-- The index of a stage in a command word is the stage's own (R6, R81). -/
theorem toNat_ofNat_stageIndex {k n : Nat} (hk : k < n) (hn : n ≤ 65536) : (BitVec.ofNat 16 k).toNat = k := by
  rw [BitVec.toNat_ofNat, Nat.mod_eq_of_lt (by omega)]

/-! ### CAS.BUILD -/

theorem exec_casBuild {s : State} (hf : s.fault = false) : exec .casBuild s = .next (buildFrom s.nstages 0 s) := by
  simp [exec_effect, effect, casBuild_eq, hf]

/-- The loop of CAS.BUILD is a BQ.DESIGN of each stage it passes (R151). -/
theorem execAll_bqDesign_range {s : State} {n k : Nat} (hf : s.fault = false) (hk : k + n ≤ s.nstages)
    (hmax : s.nstages ≤ 65536) :
    execAll ((List.range' k n).map fun k => .bqDesign (BitVec.ofNat 16 k) (decide (k % 2 = 1))) s =
      .next (buildFrom n k s) := by
  induction n generalizing k s with
  | zero => rfl
  | succ n ih =>
    have hlt : k < s.nstages := by omega
    have hindex := toNat_ofNat_stageIndex hlt hmax
    have hexec := exec_bqDesign (k := BitVec.ofNat 16 k) hf (by rwa [hindex]) (decide (k % 2 = 1))
    rw [hindex] at hexec
    rw [List.range'_succ, List.map_cons, execAll_cons_of_next hexec,
      ih (s := s.designStage k _) hf (by rw [State.designStage_nstages]; omega) (by rwa [State.designStage_nstages])]
    rfl

/-- Settles O40: both run the loop of designs over all stages. -/
theorem casBuildIsTheDesignSequence : Obligations.CasBuildIsTheDesignSequence := by
  refine ⟨by decide, fun s hf hmax => ?_⟩
  rw [exec_casBuild hf, List.range_eq_range', execAll_bqDesign_range hf (by omega) hmax]

/-- The loop of CAS.BUILD keeps the stages before its first. -/
theorem stage_buildFrom_of_lt (n : Nat) {k j : Nat} (s : State) (hj : j < k) : (buildFrom n k s).stage j = s.stage j := by
  induction n generalizing k s with
  | zero => rfl
  | succ n ih => exact (ih _ (by omega)).trans (State.stage_setStage_ne s k j _ (by omega))

/-- The loop of CAS.BUILD constructs each stage it passes, with the formula's coefficients where the parameters are valid. -/
theorem stage_buildFrom {s : State} {n k j : Nat} (hkj : k ≤ j) (hjn : j < k + n) (hj : j < s.nstages) :
    ∃ c, (buildFrom n k s).stage j = Stage.built c ∧
      (designValid s.params (signedGain s.params (j % 2 == 1)) = true →
        c = peakingEQ s.params (signedGain s.params (j % 2 == 1))) := by
  induction n generalizing k s with
  | zero => omega
  | succ n ih =>
    obtain rfl | hlt := hkj.eq_or_lt
    · refine ⟨s.designCoefs (k % 2 == 1), ?_, fun hv => if_pos hv⟩
      rw [buildFrom, stage_buildFrom_of_lt _ _ k.lt_succ_self]
      exact State.stage_setStage_self s k _ hj
    · exact ih (s := s.designStage k _) hlt (by omega) (by rwa [State.designStage_nstages])

/-- The gain of stage `k` by its parity (R152). -/
theorem signedGain_parity (p : DesignParams) (k : Nat) :
    signedGain p (k % 2 == 1) = if k % 2 = 0 then p.gain else Fp.neg p.gain := by
  obtain h | h := Nat.mod_two_eq_zero_or_one k <;> simp [signedGain, h]

/-- Settles O39: the loop's frame is the stage file and the counter, and each stage is built with the gain of its parity. -/
theorem casBuildAlternatesTheGain : Obligations.CasBuildAlternatesTheGain := by
  intro s hf
  refine ⟨_, exec_casBuild hf, (SameBlock.buildFrom s.nstages 0 s).2, fun k hk => ?_, fun hpos hneg => ?_, ?_⟩
  · obtain ⟨c, hst, hc⟩ := stage_buildFrom (n := s.nstages) k.zero_le (by omega) hk
    rw [hst, ← signedGain_parity]
    exact ⟨⟨rfl, rfl, rfl, rfl⟩, rfl, hc⟩
  · have hv (n : Bool) : designValid s.params (signedGain s.params n) = true := by
      cases n with
      | false => exact hpos
      | true => exact hneg
    rw [SameDraws, buildFrom_of_valid hv]
  · obtain ⟨st, d, h, -⟩ := buildFrom_frame s.nstages 0 s
    rw [h]
    exact ⟨rfl, ⟨rfl, rfl⟩, rfl, fun _ => rfl, ⟨rfl, rfl⟩, rfl, rfl, rfl, rfl⟩

/-! ### CAS.RESET -/

theorem exec_casReset {s : State} (hf : s.fault = false) :
    exec .casReset s = .next { s with stages := s.stages.map Stage.clear } := by
  simp [exec_effect, effect, casReset_eq, hf]

/-- A stage of a cleared stage file is the stage cleared; a stage beyond the file is clear as it is. -/
theorem getD_map_clear (l : List Stage) (k : Nat) :
    (l.map Stage.clear).getD k Stage.reset = (l.getD k Stage.reset).clear :=
  List.getD_map l Stage.reset Stage.clear

/-- Settles O41: each stage is itself with its history cleared. -/
theorem casResetClearsEveryHistory : Obligations.CasResetClearsEveryHistory :=
  ⟨by decide, fun s hf =>
    ⟨_, exec_casReset hf, List.length_map _, fun k _ => getD_map_clear s.stages k, rfl, ⟨rfl, rfl⟩, rfl, fun _ => rfl,
      ⟨rfl, rfl⟩, ⟨rfl, rfl, rfl, rfl⟩, rfl⟩⟩

/-- Settles O45: clearing valid stages builds each anew from its own coefficients. -/
theorem cascadeResetLaw : Obligations.CascadeResetLaw := by
  intro s later hf hv
  have hall := List.all_eq_true.mp ((allValid_iff s).mpr hv)
  have hbuilt : s.stages.map Stage.clear = s.stages.map fun st => Stage.built st.c :=
    List.map_congr_left fun st hst => Stage.clear_eq_built (hall st hst)
  refine ⟨_, { s with stages := s.stages.map fun st => Stage.built st.c }, exec_casReset hf, List.length_map _,
    fun k hk => ?_, rfl, by rw [hbuilt]⟩
  rw [State.stage, ← hbuilt, getD_map_clear]
  exact Stage.clear_eq_built (hv k hk)

/-! ### CAS.APPLY -/

theorem exec_casApply_of_allValid {s : State} (hf : s.fault = false) (hv : s.allValid = true) :
    exec .casApply s = .next (cascadeFrom s.nstages 0 s) := by
  simp [exec_effect, effect, casApply_eq, hf, hv]

theorem exec_casApply_of_not_allValid {s : State} (hf : s.fault = false) (hv : ¬s.allValid = true) :
    exec .casApply s = .next (s.raise .unconfigured) := by
  simp [exec_effect, effect, casApply_eq, hf, hv]

/-- The outer loop of CAS.APPLY is a BQ.APPLY of each stage it passes: no pass clears the valid bit of a later stage. -/
theorem execAll_bqApply_range {s : State} {n k : Nat} (hf : s.fault = false) (hk : k + n ≤ s.nstages)
    (hmax : s.nstages ≤ 65536) (hv : ∀ j, k ≤ j → j < k + n → (s.stage j).v = true) :
    execAll ((List.range' k n).map fun k => .bqApply (BitVec.ofNat 16 k)) s = .next (cascadeFrom n k s) := by
  induction n generalizing k s with
  | zero => rfl
  | succ n ih =>
    have hlt : k < s.nstages := by omega
    have hindex := toNat_ofNat_stageIndex hlt hmax
    have hexec := exec_bqApply_of_v (k := BitVec.ofNat 16 k) hf (by rwa [hindex])
      (by rw [hindex]; exact hv k le_rfl (by omega))
    rw [hindex] at hexec
    rw [List.range'_succ, List.map_cons, execAll_cons_of_next hexec, cascadeFrom_succ]
    refine ih (s := s.applyStage k) hf (by rw [State.applyStage_nstages]; omega) (by rwa [State.applyStage_nstages])
      fun j hj hjn => ?_
    rw [State.stage_applyStage s k j hlt, if_neg (by omega)]
    exact hv j (by omega) (by omega)

/-- Settles O42: one valid bit that is 0 stops the command at its check; otherwise both run the loop of passes over all stages. -/
theorem casApplyIsTheApplySequence : Obligations.CasApplyIsTheApplySequence := by
  refine ⟨by decide, fun s hf hmax => ⟨fun k hk hv => ?_, fun hv => ?_⟩⟩
  · have hnot : ¬s.allValid = true := fun hall => by simp [(allValid_iff s).mp hall k hk] at hv
    exact faultsWith_of_exec_raise hf (exec_casApply_of_not_allValid hf hnot)
  · rw [exec_casApply_of_allValid hf ((allValid_iff s).mpr hv), List.range_eq_range',
      execAll_bqApply_range hf (by omega) hmax fun j _ hj => hv j (by omega)]

end Sys2Proof.Machine
end

section
/-!
PROOFS, cascade (42_cascade): the samples and the histories of CAS.APPLY (R154), loop interchange (R156) and continuity (R158).
Both loops are compared with one sample at a time through a list of stages.
-/
namespace Sys2Proof.Machine

/-! ### One sample through a list of stages -/

/-- The output of a sample through all the stages of a list in order, and the stages with their histories shifted (R156). -/
def casStep : List Stage → Word → Word × List Stage
  | [], v => (v, [])
  | st :: sts, v =>
    let r := bqStep st v
    let q := casStep sts r.1
    (q.1, r.2 :: q.2)

/-- A list of stages after the first `n` samples of a stream. -/
def casAfter (x : Nat → Word) : Nat → List Stage → List Stage
  | 0, sts => sts
  | n + 1, sts => (casStep (casAfter x n sts) (x n)).2

/-- The `n`-th output of a list of stages on a stream. -/
def casOut (x : Nat → Word) (sts : List Stage) (n : Nat) : Word := (casStep (casAfter x n sts) (x n)).1

/-- The first `n` outputs of a list of stages on a stream. -/
def casSamples (x : Nat → Word) (n : Nat) (sts : List Stage) : List Word := (List.range n).map (casOut x sts)

theorem casAfter_nil (x : Nat → Word) (n : Nat) : casAfter x n [] = [] := by
  induction n with
  | zero => rfl
  | succ n ih => rw [casAfter, ih, casStep]

theorem casOut_nil (x : Nat → Word) (n : Nat) : casOut x [] n = x n := by
  rw [casOut, casAfter_nil, casStep]

/-- The interchange: the first stage runs over the stream by itself, the others over its outputs (R156). -/
theorem casAfter_cons (x : Nat → Word) (n : Nat) (st : Stage) (sts : List Stage) :
    casAfter x n (st :: sts) = bqAfter x n st :: casAfter (bqOut x st) n sts := by
  induction n with
  | zero => rfl
  | succ n ih =>
    rw [casAfter, ih]
    rfl

theorem casOut_cons (x : Nat → Word) (st : Stage) (sts : List Stage) (n : Nat) :
    casOut x (st :: sts) n = casOut (bqOut x st) sts n := by
  rw [casOut, casAfter_cons]
  rfl

theorem casAfter_congr {x y : Nat → Word} {n : Nat} (sts : List Stage) (h : ∀ j, j < n → x j = y j) :
    casAfter x n sts = casAfter y n sts := by
  induction n with
  | zero => rfl
  | succ n ih => rw [casAfter, casAfter, ih fun j hj => h j (by omega), h n (by omega)]

/-- An output depends on the samples up to its own only. -/
theorem casOut_congr {x y : Nat → Word} {n : Nat} (sts : List Stage) (h : ∀ j, j ≤ n → x j = y j) :
    casOut x sts n = casOut y sts n := by
  rw [casOut, casOut, casAfter_congr sts fun j hj => h j hj.le, h n le_rfl]

theorem casSamples_congr {x y : Nat → Word} {n : Nat} (sts : List Stage) (h : ∀ j, j < n → x j = y j) :
    casSamples x n sts = casSamples y n sts :=
  List.map_congr_left fun _ hj => casOut_congr sts fun _ hi => h _ (hi.trans_lt (List.mem_range.mp hj))

theorem casAfter_add (x : Nat → Word) (m n : Nat) (sts : List Stage) :
    casAfter x (m + n) sts = casAfter (fun j => x (m + j)) n (casAfter x m sts) := by
  induction n with
  | zero => rfl
  | succ n ih => rw [← Nat.add_assoc, casAfter, casAfter, ih]

theorem casOut_add (x : Nat → Word) (m n : Nat) (sts : List Stage) :
    casOut x sts (m + n) = casOut (fun j => x (m + j)) (casAfter x m sts) n := by
  rw [casOut, casAfter_add, casOut]

theorem casSamples_add (x : Nat → Word) (m n : Nat) (sts : List Stage) :
    casSamples x (m + n) sts = casSamples x m sts ++ casSamples (fun j => x (m + j)) n (casAfter x m sts) := by
  simp only [casSamples, List.range_add, List.map_append, List.map_map, Function.comp_def, casOut_add]

/-! ### Samples change nothing but histories -/

theorem casStep_map_clear (sts : List Stage) (v : Word) : (casStep sts v).2.map Stage.clear = sts.map Stage.clear := by
  induction sts generalizing v with
  | nil => rfl
  | cons st sts ih => exact congrArg (st.clear :: ·) (ih _)

theorem casAfter_map_clear (x : Nat → Word) (n : Nat) (sts : List Stage) :
    (casAfter x n sts).map Stage.clear = sts.map Stage.clear := by
  induction n with
  | zero => rfl
  | succ n ih => rw [casAfter, casStep_map_clear, ih]

section Histories

variable {s t : State} (h : t.stages.map Stage.clear = s.stages.map Stage.clear)

include h

theorem stage_of_map_clear (k : Nat) : (t.stage k).c = (s.stage k).c ∧ (t.stage k).v = (s.stage k).v := by
  have hclear : (t.stage k).clear = (s.stage k).clear := by
    rw [State.stage, ← getD_map_clear, h, getD_map_clear, State.stage]
  exact ⟨(congrArg Stage.c hclear :), (congrArg Stage.v hclear :)⟩

theorem allValid_of_map_clear : t.allValid = s.allValid := by
  have hclear (l : List Stage) : (l.all fun st => st.v) = (l.map Stage.clear).all fun st => st.v := by
    rw [List.all_map]
    rfl
  rw [State.allValid, hclear, h, ← hclear, State.allValid]

end Histories

/-! ### The stage-major loop of CAS.APPLY -/

/-- Where the stage file is `pre`, then `st`, then others, `st` is the stage at the length of `pre`. -/
theorem stage_of_stages_append {s : State} {pre sts : List Stage} {st : Stage} (h : s.stages = pre ++ st :: sts) :
    s.stage pre.length = st := by
  simp [State.stage, h]

/-- The pass of a stage replaces it in the file by itself after the live samples. -/
theorem applyStage_stages_of_append {s : State} {pre sts : List Stage} {st : Stage} (h : s.stages = pre ++ st :: sts) :
    (s.applyStage pre.length).stages = (pre ++ [bqAfter s.readBuf s.bufLen.toNat st]) ++ sts := by
  rw [State.applyStage_stages, stage_of_stages_append h, applyFrom_stage, h]
  simp only [Nat.zero_add, List.set_append_right _ _ le_rfl, Nat.sub_self, List.set_cons_zero, List.append_assoc,
    List.singleton_append]
  rfl

/-- The passes of the stages after `pre` leave these stages and the live samples as one sample after the other does. -/
theorem cascadeFrom_of_append {s : State} {pre sts : List Stage} (h : s.stages = pre ++ sts) :
    (cascadeFrom sts.length pre.length s).stages = pre ++ casAfter s.readBuf s.bufLen.toNat sts ∧
      ∀ j, (cascadeFrom sts.length pre.length s).readBuf j =
        if j < s.bufLen.toNat then casOut s.readBuf sts j else s.readBuf j := by
  induction sts generalizing pre s with
  | nil => simp [cascadeFrom, casAfter_nil, casOut_nil, h]
  | cons st sts ih =>
    obtain ⟨hstages, hread⟩ := ih (applyStage_stages_of_append h)
    rw [List.length_append, List.length_singleton] at hstages hread
    have hout (j : Nat) (hj : j < s.bufLen.toNat) : (s.applyStage pre.length).readBuf j = bqOut s.readBuf st j := by
      rw [State.readBuf_applyStage_of_lt _ hj, stage_of_stages_append h]
    rw [List.length_cons, cascadeFrom_succ]
    refine ⟨?_, fun j => ?_⟩
    · rw [hstages, State.applyStage_bufLen, casAfter_congr _ hout, casAfter_cons, List.append_assoc, List.singleton_append]
    · rw [hread, State.applyStage_bufLen]
      split
      next hj => rw [casOut_congr _ fun i hi => hout i (hi.trans_lt hj), casOut_cons]
      next hj => exact State.readBuf_applyStage_of_le _ (Nat.not_lt.mp hj)

theorem cascadeFrom_stages (s : State) :
    (cascadeFrom s.nstages 0 s).stages = casAfter s.readBuf s.bufLen.toNat s.stages :=
  (cascadeFrom_of_append (pre := []) rfl).1

theorem readBuf_cascadeFrom (s : State) (j : Nat) :
    (cascadeFrom s.nstages 0 s).readBuf j = if j < s.bufLen.toNat then casOut s.readBuf s.stages j else s.readBuf j :=
  (cascadeFrom_of_append (pre := []) rfl).2 j

/-- Settles O43: the samples change histories only, and no samples change nothing. -/
theorem casApplyFrame : Obligations.CasApplyFrame := by
  intro s hf hv
  have hstages := cascadeFrom_stages s
  refine ⟨_, exec_casApply_of_allValid hf ((allValid_iff s).mpr hv), (SameBlock.cascadeFrom s.nstages 0 s).2,
    stage_of_map_clear (hstages ▸ casAfter_map_clear _ _ _), fun hlen => ?_, fun i hi => ?_, ?_⟩
  · rw [hlen] at hstages
    have hsame : (cascadeFrom s.nstages 0 s).stages = s.stages := hstages
    exact ⟨congrArg List.length hsame, fun k => by rw [State.stage, hsame, State.stage]⟩
  · rw [readBuf_cascadeFrom, if_neg (Nat.not_lt.mpr hi)]
  · obtain ⟨st, m, h, -⟩ := cascadeFrom_frame s.nstages 0 s
    rw [h]
    exact ⟨rfl, ⟨rfl, rfl⟩, rfl, ⟨rfl, rfl⟩, ⟨rfl, rfl, rfl, rfl⟩, rfl⟩

/-! ### The sample-major loop -/

/-- One sample through the stages after `pre` in the state is one sample through their list. -/
theorem sampleThrough_of_append {s : State} {pre sts : List Stage} (h : s.stages = pre ++ sts) (v : Word) :
    sampleThrough sts.length pre.length s v = ((casStep sts v).1, { s with stages := pre ++ (casStep sts v).2 }) := by
  induction sts generalizing pre s v with
  | nil => simp [sampleThrough, casStep, ← h]
  | cons st sts ih =>
    have hset : (s.setStage pre.length (bqStep st v).2).stages = (pre ++ [(bqStep st v).2]) ++ sts := by
      simp [h]
    have hrest := ih hset (bqStep st v).1
    rw [List.length_append, List.length_singleton, List.append_assoc] at hrest
    rw [List.length_cons, sampleThrough, stage_of_stages_append h]
    exact hrest

theorem sampleThrough_nstages (s : State) (v : Word) :
    sampleThrough s.nstages 0 s v = ((casStep s.stages v).1, { s with stages := (casStep s.stages v).2 }) :=
  sampleThrough_of_append (pre := []) rfl v

theorem sampleMajor_add (m n i : Nat) (s : State) : sampleMajor (m + n) i s = sampleMajor n (i + m) (sampleMajor m i s) := by
  induction m generalizing i s with
  | zero => rw [Nat.zero_add]; rfl
  | succ m ih => rw [Nat.succ_add, sampleMajor, ih, Nat.add_right_comm]; rfl

/-- The last round of the sample-major loop takes its sample through all the stages. -/
theorem sampleMajor_succ (n : Nat) (s : State) :
    let t := sampleMajor n 0 s
    let r := casStep t.stages (t.readBuf n)
    sampleMajor (n + 1) 0 s = State.writeBuf { t with stages := r.2 } n r.1 := by
  rw [sampleMajor_add, Nat.zero_add, sampleMajor, sampleThrough_nstages]
  rfl

/-- The sample-major loop takes one sample after the other through the list of stages. -/
theorem sampleMajor_eq (n : Nat) (s : State) :
    (sampleMajor n 0 s).stages = casAfter s.readBuf n s.stages ∧
      ∀ j, (sampleMajor n 0 s).readBuf j = if j < n then casOut s.readBuf s.stages j else s.readBuf j := by
  induction n with
  | zero => exact ⟨rfl, fun j => rfl⟩
  | succ n ih =>
    obtain ⟨hstages, hread⟩ := ih
    have hsample : (sampleMajor n 0 s).readBuf n = s.readBuf n := by rw [hread, if_neg (lt_irrefl n)]
    rw [sampleMajor_succ, hsample, hstages]
    refine ⟨rfl, fun j => ?_⟩
    have hkeep : State.readBuf { sampleMajor n 0 s with stages := casAfter s.readBuf (n + 1) s.stages } j =
        if j < n then casOut s.readBuf s.stages j else s.readBuf j := hread j
    rw [State.readBuf_writeBuf]
    obtain hlt | rfl | hgt := Nat.lt_trichotomy j n
    · rw [if_neg hlt.ne, if_pos (by omega)]
      exact hkeep.trans (if_pos hlt)
    · rw [if_pos rfl, if_pos j.lt_succ_self]
      rfl
    · rw [if_neg hgt.ne', if_neg (by omega)]
      exact hkeep.trans (if_neg (by omega))

/-- Settles O44: both loops leave what one sample after the other through the list of stages leaves. -/
theorem loopInterchange : Obligations.LoopInterchange := by
  intro s hf hv
  obtain ⟨hstages, hread⟩ := sampleMajor_eq s.bufLen.toNat s
  refine ⟨_, exec_casApply_of_allValid hf ((allValid_iff s).mpr hv), ?_, fun i => ?_⟩
  · rw [cascadeFrom_stages, hstages]
  · rw [readBuf_cascadeFrom, hread]

/-! ### Continuity -/

theorem liveBuf_cascadeFrom (s : State) :
    (cascadeFrom s.nstages 0 s).liveBuf = casSamples s.readBuf s.bufLen.toNat s.stages := by
  obtain ⟨st, m, h, -⟩ := cascadeFrom_frame s.nstages 0 s
  have hlen : (cascadeFrom s.nstages 0 s).bufLen = s.bufLen := by rw [h]
  rw [State.liveBuf, hlen]
  exact List.map_congr_left fun j hj => (readBuf_cascadeFrom s j).trans (if_pos (List.mem_range.mp hj))

/-- What CAS.APPLY leaves of a loaded buffer, for a length that fits BUFLEN. -/
theorem exec_casApply_loadBuf {s : State} {xs : List Word} (hf : s.fault = false) (hv : s.allValid = true)
    (hn : xs.length < 2 ^ 64) :
    ∃ t, exec .casApply (s.loadBuf xs) = .next t ∧ t.fault = false ∧
      t.liveBuf = casSamples (stream xs) xs.length s.stages ∧ t.stages = casAfter (stream xs) xs.length s.stages := by
  have hlen : (s.loadBuf xs).bufLen.toNat = xs.length := by
    rw [State.loadBuf, BitVec.toNat_ofNat, Nat.mod_eq_of_lt hn]
  have hread (j : Nat) (hj : j < xs.length) : (s.loadBuf xs).readBuf j = stream xs j := State.readBuf_loadBuf s xs hj
  refine ⟨_, exec_casApply_of_allValid (s := s.loadBuf xs) hf hv, ?_, ?_, ?_⟩
  · obtain ⟨st, m, h, -⟩ := cascadeFrom_frame (s.loadBuf xs).nstages 0 (s.loadBuf xs)
    rw [h]
    exact hf
  · rw [liveBuf_cascadeFrom, hlen]
    exact casSamples_congr _ hread
  · rw [cascadeFrom_stages, hlen]
    exact casAfter_congr _ hread

/-- Settles O46: the second buffer goes on from the stages that the first leaves. -/
theorem cascadeContinuity : Obligations.CascadeContinuity := by
  intro s xs ys hf hv hcap hmax
  have hall := (allValid_iff s).mpr hv
  obtain ⟨t1, hexec1, hf1, hbuf1, hstages1⟩ := exec_casApply_loadBuf (xs := xs) hf hall (by omega)
  have hall1 : t1.allValid = true := (allValid_of_map_clear (hstages1 ▸ casAfter_map_clear _ _ _)).trans hall
  obtain ⟨t2, hexec2, -, hbuf2, hstages2⟩ := exec_casApply_loadBuf (xs := ys) hf1 hall1 (by omega)
  obtain ⟨t, hexec, -, hbuf, hstages⟩ := exec_casApply_loadBuf (xs := xs ++ ys) hf hall (by rw [List.length_append]; omega)
  have hfirst (j : Nat) (hj : j < xs.length) : stream (xs ++ ys) j = stream xs j := stream_append_of_lt ys hj
  refine ⟨t1, t2, t, hexec1, hexec2, hexec, ?_, ?_⟩
  · rw [hbuf1, hbuf2, hbuf, hstages1, List.length_append, casSamples_add, casSamples_congr _ hfirst, casAfter_congr _ hfirst]
    simp only [stream_append_add]
  · rw [hstages2, hstages1, hstages, List.length_append, casAfter_add, casAfter_congr _ hfirst]
    simp only [stream_append_add]

end Sys2Proof.Machine
end

section
/-!
PROOFS, host access (43_host_access): the registers and the samples behind the word addresses (R61, R41), and
reads (R170, R173), also while FAULT = 1 (R177).
-/
namespace Sys2Proof.Machine

/-! ### The registers behind the addresses -/

/-- The region is the quotient of the address by the region's size (R90). -/
theorem region_eq_of_div_eq {a : Addr} {r : BitVec 2} (h : a.toNat / 2 ^ 30 = r.toNat) : a.region = r := by
  apply BitVec.eq_of_toNat_eq
  rw [Addr.region, BitVec.extractLsb'_toNat, Nat.shiftRight_eq_div_pow]
  omega

/-- A global register is found at its address, whatever the number of stages. -/
theorem regAt_of_mem_regTable {a : Addr} {r : Reg} (h : (a, r) ∈ regTable) (n : Nat) : regAt n a = some r := by
  have htable : ∀ e ∈ regTable, e.1.region = 0#2 ∧ ¬stageBase ≤ e.1.toNat ∧ regTable.lookup e.1 = some e.2 := by decide
  obtain ⟨hregion, hbase, hlookup⟩ := htable (a, r) h
  rw [regAt, if_pos hregion, if_neg hbase, hlookup]

theorem toNat_stageAddr {k r : Nat} (hk : k < 65536) (hr : r ≤ 9) : (stageAddr k r).toNat = 0x00100000 + 16 * k + r := by
  rw [stageAddr, BitVec.toNat_ofNat]
  omega

/-- The register at offset `r` of stage `k` is found at its address. -/
theorem regAt_stageAddr {n k r : Nat} (hn : k < n) (hk : k < 65536) (hr : r ≤ 9) :
    regAt n (stageAddr k r) = (stageRegAt r).map (Reg.stage k) := by
  have haddr := toNat_stageAddr hk hr
  have hregion : (stageAddr k r).region = 0#2 := region_eq_of_div_eq (by rw [haddr]; exact Nat.div_eq_of_lt (by omega))
  have hbase : stageBase ≤ (stageAddr k r).toNat := by unfold stageBase; omega
  have hdiv : ((stageAddr k r).toNat - stageBase) / 16 = k := by unfold stageBase; omega
  have hmod : ((stageAddr k r).toNat - stageBase) % 16 = r := by unfold stageBase; omega
  simp only [regAt, hregion, if_true, hbase, hdiv, hmod, hn]

theorem stageRegAt_isSome {r : Nat} (hr : r ≤ 9) : ∃ x, stageRegAt r = some x :=
  ⟨_, List.getElem?_eq_getElem (Nat.lt_succ_of_le hr)⟩

/-! ### The samples behind the addresses -/

theorem toNat_bufAddr {i : Nat} (hi : i < 2 ^ 30) : (bufAddr i).toNat = bufBase + i := by
  rw [bufAddr, bufBase, BitVec.toNat_ofNat]
  omega

theorem bufIndex_bufAddr {i : Nat} (hi : i < 2 ^ 30) : bufIndex (bufAddr i) = some i := by
  have hregion : (bufAddr i).region = 1#2 := by
    refine region_eq_of_div_eq ?_
    rw [toNat_bufAddr hi, bufBase, BitVec.toNat_ofNat]
    omega
  rw [bufIndex, if_pos hregion, toNat_bufAddr hi, Nat.add_sub_cancel_left]

theorem liveIndex_bufAddr_of_lt {s : State} {i : Nat} (hi : i < 2 ^ 30) (hlive : i < s.bufLen.toNat) :
    s.liveIndex (bufAddr i) = some i := by
  simp [State.liveIndex, bufIndex_bufAddr hi, hlive]

theorem liveIndex_bufAddr_of_le {s : State} {i : Nat} (hi : i < 2 ^ 30) (hout : s.bufLen.toNat ≤ i) :
    s.liveIndex (bufAddr i) = none := by
  simp [State.liveIndex, bufIndex_bufAddr hi, hout]

/-! ### The two answers of a read -/

/-- A faulting read keeps a cause already recorded (R193). -/
theorem State.replyFault_eq (s : State) :
    s.replyFault =
      { s with
        fault := true
        cause := if s.fault then s.cause else .badAccess
        replies := 0#64 :: s.replies } := by
  cases hf : s.fault with
  | true => simp [State.replyFault, State.raise, State.reply, ← hf]
  | false => simp [State.replyFault, State.raise, State.reply, hf]

/-- While FAULT = 1 a faulting read only answers 0 (R177). -/
theorem State.replyFault_of_fault {s : State} (hf : s.fault = true) : s.replyFault = s.reply 0#64 := by
  rw [State.replyFault, State.raise, if_pos hf]

theorem exec_regRd_of_some {s : State} {a : Addr} {w : Word} (h : s.readReg a = some w) :
    exec (.regRd a) s = .next { s with replies := w :: s.replies } := by
  rw [exec_effect, effect, regRd, h]
  rfl

theorem exec_regRd_of_none {s : State} {a : Addr} (h : s.readReg a = none) : exec (.regRd a) s = .next s.replyFault := by
  rw [exec_effect, effect, regRd, h]

theorem exec_bufRd_of_lt {s : State} {i : Nat} (hi : i < 2 ^ 30) (hlive : i < s.bufLen.toNat) :
    exec (.bufRd (bufAddr i)) s = .next { s with replies := s.readBuf i :: s.replies } := by
  rw [exec_effect, effect, bufRd, liveIndex_bufAddr_of_lt hi hlive]
  rfl

theorem exec_bufRd_of_le {s : State} {i : Nat} (hi : i < 2 ^ 30) (hout : s.bufLen.toNat ≤ i) :
    exec (.bufRd (bufAddr i)) s = .next s.replyFault := by
  rw [exec_effect, effect, bufRd, liveIndex_bufAddr_of_le hi hout]

/-! ### Register reads -/

theorem readReg_of_mem_regTable {a : Addr} {r : Reg} (h : (a, r) ∈ regTable) (s : State) : s.readReg a = r.value s := by
  rw [State.readReg, regAt_of_mem_regTable h, Option.bind_some]

theorem readReg_stageAddr {s : State} {k r : Nat} (hn : k < s.nstages) (hk : k < 65536) (hr : r ≤ 9) :
    s.readReg (stageAddr k r) = (stageRegAt r).map fun x => x.value (s.stage k) := by
  rw [State.readReg, regAt_stageAddr hn hk hr, Option.bind_map]
  cases stageRegAt r <;> rfl

theorem readReg_cmd (s : State) : s.readReg Addr.cmd = none :=
  readReg_of_mem_regTable (r := .cmd) (by decide) s

theorem readReg_of_unmapped {s : State} {a : Addr} (hu : ¬MappedAddr s a) : s.readReg a = none := by
  rw [State.readReg, regAt_of_unmapped hu, Option.bind_none]

/-- The readable global registers, each with its address and its value, in the order of R41. -/
def State.globalValues (s : State) : List (Addr × Word) :=
  regTable.filterMap fun e => (e.2.value s).map (Prod.mk e.1)

theorem readReg_of_mem_globalValues {s : State} {e : Addr × Word} (h : e ∈ s.globalValues) : s.readReg e.1 = some e.2 := by
  obtain ⟨⟨a, r⟩, hr, hvalue⟩ := List.mem_filterMap.mp h
  obtain ⟨w, hw, rfl⟩ := Option.map_eq_some_iff.mp hvalue
  rw [readReg_of_mem_regTable hr, hw]

/-- Settles O48: the table of R41 gives the global registers, the offset gives a stage's, and nothing readable is elsewhere. -/
theorem registerReads : Obligations.RegisterReads := by
  refine fun s => ⟨fun e he => ?_, fun k hn hk e he => ?_, fun a _ ha => ?_⟩
  · have hmem : e ∈ s.globalValues := he
    exact exec_regRd_of_some (readReg_of_mem_globalValues hmem)
  · have hoffset : e.1 ≤ 9 ∧ (stageRegAt e.1).map (fun x => x.value (s.stage k)) = some e.2 := by
      revert e
      simp [stageRegAt, StageReg.value]
    obtain ⟨hr, hvalue⟩ := hoffset
    exact exec_regRd_of_some ((readReg_stageAddr hn hk hr).trans hvalue)
  · have hnone : s.readReg a = none := by
      obtain rfl | hu := ha
      · exact readReg_cmd s
      · exact readReg_of_unmapped hu
    rw [exec_regRd_of_none hnone, State.replyFault_eq]

/-! ### Buffer reads, and reads while FAULT = 1 -/

/-- Settles O53: the index decides between the sample and the fault. -/
theorem bufferReads : Obligations.BufferReads := by
  refine fun s i hi => ⟨exec_bufRd_of_lt hi, fun hout => ?_⟩
  rw [exec_bufRd_of_le hi hout, State.replyFault_eq]

/-- Settles O17: a read that faults has no fault left to record, and an address with bit 31 set is rejected before any register. -/
theorem faultedBlockAnswersReads : Obligations.FaultedBlockAnswersReads := by
  intro s a hf
  refine ⟨?_, fun i hlive hi => exec_bufRd_of_lt hi hlive, fun i hout hi => ?_, fun rest h31 hp => ?_⟩
  · cases h : s.readReg a with
    | some w => exact exec_regRd_of_some h
    | none =>
      rw [exec_regRd_of_none h, State.replyFault_of_fault hf]
      rfl
  · rw [exec_bufRd_of_le hi hout, State.replyFault_of_fault hf]
    rfl
  · obtain ⟨-, -, -, -, hunmapped, -⟩ := busOperationsByKindAndRegion a 0#64
    obtain ⟨hd, -⟩ := hunmapped h31
    rw [step_bus s _ rest hp, hd]
    exact congrArg _ (State.replyFault_of_fault (s := { s with pending := rest }) hf)

end Sys2Proof.Machine
end

section
/-!
PROOFS, host access (43_host_access): the write gate (R176), command dispatch (R175), register writes (R171, R172), the
faults of the access rights (R178), and buffer writes (R174).
-/
namespace Sys2Proof.Machine

/-! ### The write gate -/

theorem State.gated_of_fault {s : State} (hf : s.fault = true) (act : State → State) : s.gated act = s := if_pos hf

theorem State.gated_of_not_fault {s : State} (hf : s.fault = false) (act : State → State) : s.gated act = act s :=
  if_neg (by simp [hf])

/-- Every operation but the two reads is behind the write gate (R176). -/
theorem effect_of_fault {i : Instr} {s : State} (hi : i.isRead = false) (hf : s.fault = true) : effect i s = s := by
  cases i with
  | regRd a | bufRd a => cases hi
  | oscInit | oscReset | oscFill | bqDesign | bqLoad | bqReset | bqApply | casBuild | casReset | casApply | regWr | bufWr =>
    exact if_pos hf

theorem isRead_encode (i : Instr) : (encode i).isRead = i.isRead := by
  cases i <;> rfl

/-- A transaction and the operation it decodes to are of one kind (R90). -/
theorem isRead_of_decode {x : Txn} {i : Instr} (h : decode x = .ok i) : i.isRead = x.isRead := by
  obtain ⟨hx, -⟩ := encodeWritesWhatDecodeRead x i h
  rw [← hx, isRead_encode]

/-- Settles O16: a write decodes to a gated operation, or its rejection is gated. -/
theorem faultedBlockIgnoresWrites : Obligations.FaultedBlockIgnoresWrites := by
  intro s a w rest hf hp
  rw [step_bus s _ rest hp]
  cases hd : decode (.write a w) with
  | ok i => exact congrArg _ (effect_of_fault (s := { s with pending := rest }) (isRead_of_decode hd) hf)
  | error r => exact congrArg _ ((rejectTxn_write a w r _).trans (if_pos hf))

/-! ### Command dispatch -/

/-- A write to CMD is gated and runs the command of its word (R175). -/
theorem exec_regWr_cmd (w : Word) (s : State) : exec (.regWr Addr.cmd w) s = .next (s.gated (runCommand w)) := rfl

/-- Settles O52: the command is gated as the write is; a word of no row is rejected by the decoder. -/
theorem cmdWriteRunsTheCommand : Obligations.CmdWriteRunsTheCommand := by
  refine fun s w => ⟨fun i hd => ?_, fun hf hno => faultsWith_of_exec_raise hf ?_⟩
  · have hi : i.isRead = false := isRead_of_decode (x := .write Addr.cmd w) hd
    rw [exec_effect i s]
    refine (exec_regWr_cmd w s).trans (congrArg _ ?_)
    cases hf : s.fault with
    | true => rw [State.gated_of_fault hf, effect_of_fault hi hf]
    | false => rw [State.gated_of_not_fault hf, runCommand_eq, hd]
  · refine (exec_regWr_cmd w s).trans (congrArg _ ?_)
    rw [State.gated_of_not_fault hf, runCommand_eq, (noCommandRow_iff w).mp hno]

/-! ### Register writes -/

theorem exec_regWr_of_regAt {s : State} {a : Addr} {r : Reg} (hf : s.fault = false) (h : regAt s.nstages a = some r) (w : Word) :
    exec (.regWr a w) s = .next (r.write w s) := by
  rw [exec_effect, effect, regWr_eq, if_neg (by simp [hf]), h]

theorem exec_regWr_of_mem_regTable {s : State} {a : Addr} {r : Reg} (hf : s.fault = false) (h : (a, r) ∈ regTable) (w : Word) :
    exec (.regWr a w) s = .next (r.write w s) :=
  exec_regWr_of_regAt hf (regAt_of_mem_regTable h s.nstages) w

/-- Settles O49: the table of R41 has each register at its address, and the write replaces that field. -/
theorem parameterWritesStore : Obligations.ParameterWritesStore := by
  intro s w hf
  have hwrite {a : Addr} {r : Reg} (h : (a, r) ∈ regTable) := exec_regWr_of_mem_regTable hf h w
  exact ⟨hwrite (r := .pFs) (by decide), hwrite (r := .pF0) (by decide), hwrite (r := .pQ) (by decide),
    hwrite (r := .pGain) (by decide), hwrite (r := .cB0) (by decide), hwrite (r := .cB1) (by decide),
    hwrite (r := .cB2) (by decide), hwrite (r := .cA1) (by decide), hwrite (r := .cA2) (by decide)⟩

/-- Settles O51: BUFCAP decides between the new length and the fault. -/
theorem bufLenWrite : Obligations.BufLenWrite := by
  intro s w hf
  have hexec : exec (.regWr 0x02#32 w) s = .next (writeBufLen w s) :=
    exec_regWr_of_mem_regTable (r := .bufLen) hf (by decide) w
  refine ⟨fun hle => ?_, fun hlt => ?_⟩
  · rw [writeBufLen, if_neg (Nat.not_lt.mpr hle)] at hexec
    exact ⟨_, hexec, rfl, fun _ => rfl, rfl, ⟨rfl, fun _ => rfl⟩, ⟨rfl, rfl⟩, ⟨rfl, rfl⟩, ⟨rfl, rfl, rfl, rfl⟩, rfl⟩
  · rw [writeBufLen, if_pos hlt] at hexec
    exact faultsWith_of_exec_raise hf hexec

/-! ### Access rights -/

/-- A write to a read-only register raises BAD_ACCESS (R178). -/
theorem Reg.write_of_readOnly {r : Reg} (hr : r.access = .readOnly) (w : Word) (s : State) :
    r.write w s = s.raise .badAccess := by
  cases r with
  | status | capStages | capBuf | oscCnt | oscLevel | stage => rfl
  | cmd | bufLen | pFs | pF0 | pQ | pGain | cB0 | cB1 | cB2 | cA1 | cA2 | oscH => cases hr

/-- The addresses of the read-only global registers, in the order of R41. -/
def readOnlyAddrs : List Addr := (regTable.filter fun e => e.2.access = .readOnly).map Prod.fst

theorem mem_regTable_of_mem_readOnlyAddrs {a : Addr} (h : a ∈ readOnlyAddrs) :
    ∃ r, (a, r) ∈ regTable ∧ r.access = .readOnly := by
  obtain ⟨⟨_, r⟩, hmem, rfl⟩ := List.mem_map.mp h
  obtain ⟨htable, hr⟩ := List.mem_filter.mp hmem
  exact ⟨r, htable, of_decide_eq_true hr⟩

theorem faultsWith_badAccess_of_readOnly {s : State} {a : Addr} {r : Reg} (hf : s.fault = false)
    (h : regAt s.nstages a = some r) (hr : r.access = .readOnly) (w : Word) : FaultsWith .badAccess (.regWr a w) s :=
  faultsWith_of_exec_raise hf (by rw [exec_regWr_of_regAt hf h, Reg.write_of_readOnly hr])

/-- Settles O50: each address holds a read-only register, and CMD has no value to read. -/
theorem accessRightViolationsFault : Obligations.AccessRightViolationsFault := by
  refine fun s w hf => ⟨fun a ha => ?_, fun k r hn hk hr => ?_, ?_⟩
  · have hmem : a ∈ readOnlyAddrs := ha
    obtain ⟨r, htable, hr⟩ := mem_regTable_of_mem_readOnlyAddrs hmem
    exact faultsWith_badAccess_of_readOnly hf (regAt_of_mem_regTable htable s.nstages) hr w
  · obtain ⟨x, hx⟩ := stageRegAt_isSome hr
    have hreg : regAt s.nstages (stageAddr k r) = some (.stage k x) := by rw [regAt_stageAddr hn hk hr, hx, Option.map_some]
    exact faultsWith_badAccess_of_readOnly hf hreg rfl w
  · refine (exec_regRd_of_none (readReg_cmd s)).trans ?_
    rw [State.replyFault, State.raise_of_not_fault hf]
    rfl

/-! ### Buffer writes -/

/-- Settles O54: FAULT and the index decide between nothing, the fault and the store. -/
theorem bufferWrites : Obligations.BufferWrites := by
  refine fun s i w hi => ⟨fun hf => ?_, fun hf hout => faultsWith_of_exec_raise hf ?_, fun hf hlive => ?_⟩
  · rw [exec_effect, effect_of_fault rfl hf]
  · rw [exec_effect, effect, bufWr_eq, if_neg (by simp [hf]), liveIndex_bufAddr_of_le hi hout]
  · have hexec : exec (.bufWr (bufAddr i) w) s = .next (s.writeBuf i w) := by
      rw [exec_effect, effect, bufWr_eq, if_neg (by simp [hf]), liveIndex_bufAddr_of_lt hi hlive]
    refine ⟨_, hexec, ?_, fun j hj => ?_, rfl, ⟨rfl, fun _ => rfl⟩, ⟨rfl, rfl⟩, rfl, ⟨rfl, rfl⟩, ⟨rfl, rfl, rfl, rfl⟩, rfl⟩
    · rw [State.readBuf_writeBuf, if_pos rfl]
    · rw [State.readBuf_writeBuf, if_neg hj]

end Sys2Proof.Machine
end

section
/-!
PROOFS, exceptions (60_exceptions): a recorded fault stays (R193, R195), a transaction that faults does nothing else (R194), and the
faults of a use before construction (R191).
-/
namespace Sys2Proof.Machine

/-! ### A recorded fault stays -/

/-- With a fault recorded, an update keeps FAULT and CAUSE: raising another one does nothing (R193). -/
theorem Update.keeps_fault {b : Bool} {s t : State} (h : Update b s t) (hf : s.fault = true) :
    t.fault = true ∧ t.cause = s.cause := by
  cases h with
  | raise => simp [hf]
  | reply | buildOsc | restartOsc | fill | buildStage | clearStage | clearStages | applyStage | setBufLen | setParams
  | setStaging | writeBuf => exact ⟨hf, rfl⟩

theorem Updates.keeps_fault {b : Bool} {s t : State} (h : Updates b s t) (hf : s.fault = true) :
    t.fault = true ∧ t.cause = s.cause := by
  induction h with
  | refl => exact ⟨hf, rfl⟩
  | tail _ h ih =>
    obtain ⟨hfault, hcause⟩ := ih
    obtain ⟨hfault', hcause'⟩ := h.keeps_fault hfault
    exact ⟨hfault', hcause'.trans hcause⟩

/-- Settles O18: but for hardware reset a step is a run of updates. -/
theorem faultIsSticky : Obligations.FaultIsSticky := by
  intro s t hf hne h
  obtain ⟨rest, hp, -⟩ | ⟨rest, h⟩ := step_updates h
  · exact absurd (by rw [hp]; rfl) hne
  · exact Updates.keeps_fault (s := { s with pending := rest }) h hf

/-! ### A write that faults -/

/-- From `s` to `t` FAULT is kept, or raising a fault is all that is done (R193, R194). -/
def Precise (s t : State) : Prop := t.fault = s.fault ∨ ∃ c, c ≠ .none ∧ t = s.raise c

theorem Precise.of_fault_eq {s t : State} (h : t.fault = s.fault) : Precise s t := .inl h

theorem Precise.raise {c : Cause} (hc : c ≠ .none) (s : State) : Precise s (s.raise c) := .inr ⟨c, hc, rfl⟩

theorem Precise.ite {s t u : State} {c : Prop} [Decidable c] (ht : Precise s t) (hu : Precise s u) :
    Precise s (if c then t else u) := by
  split
  · exact ht
  · exact hu

theorem Precise.gated {act : State → State} {s : State} (h : Precise s (act s)) : Precise s (s.gated act) :=
  .ite (.of_fault_eq rfl) h

theorem Precise.withStage {act : Nat → State → State} {k : BitVec 16} {s : State} (h : Precise s (act k.toNat s)) :
    Precise s (s.withStage k act) :=
  .ite h (.raise (by decide) s)

theorem Precise.oscInit (s : State) : Precise s (oscInit s) := by
  refine .gated ?_
  split
  · exact .raise (by decide) s
  · exact .of_fault_eq rfl

/-- A command checks before its first update: its loops raise nothing (R192, R194). -/
theorem Precise.command {w : Word} {i : Instr} (h : decodeCmd w = .ok i) (s : State) : Precise s (effect i s) := by
  obtain ⟨hregRd, hregWr, hbufRd, hbufWr⟩ := decodeCmd_isCommand h
  cases i with
  | oscInit => exact .oscInit s
  | oscReset | casReset => exact .gated (.of_fault_eq rfl)
  | oscFill => exact .gated (.ite (.of_fault_eq rfl) (.raise (by decide) s))
  | bqDesign | bqLoad | bqReset => exact .gated (.withStage (.of_fault_eq rfl))
  | bqApply => exact .gated (.withStage (.ite (.of_fault_eq rfl) (.raise (by decide) s)))
  | casBuild =>
    obtain ⟨st, d, hbuild, -⟩ := buildFrom_frame s.nstages 0 s
    exact .gated (.of_fault_eq (by rw [hbuild]))
  | casApply =>
    obtain ⟨st, m, happly, -⟩ := cascadeFrom_frame s.nstages 0 s
    exact .gated (.ite (.of_fault_eq (by rw [happly])) (.raise (by decide) s))
  | regRd a => exact absurd rfl (hregRd a)
  | regWr a w => exact absurd rfl (hregWr a w)
  | bufRd a => exact absurd rfl (hbufRd a)
  | bufWr a w => exact absurd rfl (hbufWr a w)

theorem Precise.runCommand (w : Word) (s : State) : Precise s (runCommand w s) := by
  rw [runCommand_eq]
  split
  next i h => exact .command h s
  next => exact .raise (by decide) s

theorem Precise.regWrite (r : Reg) (w : Word) (s : State) : Precise s (r.write w s) := by
  cases r with
  | cmd => exact .runCommand w s
  | bufLen => exact .ite (.raise (by decide) s) (.of_fault_eq rfl)
  | oscH => exact .ite (.of_fault_eq rfl) (.raise (by decide) s)
  | pFs | pF0 | pQ | pGain | cB0 | cB1 | cB2 | cA1 | cA2 => exact .of_fault_eq rfl
  | status | capStages | capBuf | oscCnt | oscLevel | stage => exact .raise (by decide) s

theorem Precise.regWr (a : Addr) (w : Word) (s : State) : Precise s (regWr a w s) := by
  refine .gated ?_
  split
  · exact .regWrite _ w s
  · exact .raise (by decide) s

theorem Precise.bufWr (a : Addr) (w : Word) (s : State) : Precise s (bufWr a w s) := by
  refine .gated ?_
  split
  · exact .of_fault_eq rfl
  · exact .raise (by decide) s

theorem Precise.rejectWrite (a : Addr) (w : Word) (r : Reject) (s : State) : Precise s (s.rejectTxn (.write a w) r) := by
  refine .gated ?_
  cases r with
  | illegalCmd => exact .raise (by decide) s
  | unmapped => exact .raise (by decide) s

/-- A write is a command, a register write or a buffer write, or it is rejected (R90). -/
theorem precise_of_step_write {s t : State} {a : Addr} {w : Word} {rest : List HostEvent}
    (hp : s.pending = .bus (.write a w) :: rest) (h : step s = .next t) : Precise { s with pending := rest } t := by
  rw [step_bus s _ rest hp] at h
  injection h with h
  subst h
  by_cases ha : a = Addr.cmd
  · subst ha
    have hd : decode (.write Addr.cmd w) = decodeCmd w := rfl
    rw [hd]
    split
    next i hi => exact .command hi _
    next r _ => exact .rejectWrite _ w r _
  · obtain hd | hd | hd := decode_write_cases ha w <;> rw [hd]
    · exact .regWr a w _
    · exact .bufWr a w _
    · exact .rejectWrite a w _ _

/-! ### A read that faults -/

theorem regRd_cases (a : Addr) (s : State) : (∃ w, regRd a s = s.reply w) ∨ regRd a s = s.replyFault := by
  unfold regRd
  split
  · exact .inl ⟨_, rfl⟩
  · exact .inr rfl

theorem bufRd_cases (a : Addr) (s : State) : (∃ w, bufRd a s = s.reply w) ∨ bufRd a s = s.replyFault := by
  unfold bufRd
  split
  · exact .inl ⟨_, rfl⟩
  · exact .inr rfl

/-- A read answers with a word, or it faults and answers 0 (R170, R173, R177). -/
theorem step_read_cases {s t : State} {a : Addr} {rest : List HostEvent} (hp : s.pending = .bus (.read a) :: rest)
    (h : step s = .next t) :
    (∃ w, t = State.reply w { s with pending := rest }) ∨ t = State.replyFault { s with pending := rest } := by
  rw [step_bus s _ rest hp] at h
  injection h with h
  subst h
  obtain hd | hd | hd := decode_read_cases a <;> rw [hd]
  · exact regRd_cases a _
  · exact bufRd_cases a _
  · exact .inr rfl

/-! ### Precise faults -/

/-- The codes of R191. -/
theorem Cause.code_of_ne_none {c : Cause} (hc : c ≠ .none) : 1 ≤ c.code.toNat ∧ c.code.toNat ≤ 6 := by
  cases c with
  | none => exact absurd rfl hc
  | illegalCmd | badStage | unconfigured | badParam | alloc | badAccess => decide

/-- Settles O19: a read that faults only answers 0 beside the fault, a write that faults only raises it. -/
theorem faultsArePrecise : Obligations.FaultsArePrecise := by
  intro s t x rest hf hp h ht
  cases x with
  | read a =>
    obtain ⟨w, rfl⟩ | rfl := step_read_cases hp h
    · exact absurd (hf.symm.trans ht) Bool.false_ne_true
    · rw [State.replyFault_eq, if_neg (by simp [hf])]
      exact ⟨rfl, Cause.code_of_ne_none (c := .badAccess) (by decide)⟩
  | write a w =>
    obtain hkept | ⟨c, hc, rfl⟩ := precise_of_step_write hp h
    · exact absurd (hf.symm.trans (hkept.symm.trans ht)) Bool.false_ne_true
    · rw [State.raise_of_not_fault (s := { s with pending := rest }) hf]
      exact ⟨rfl, Cause.code_of_ne_none hc⟩

/-! ### Use before construction -/

/-- Settles O21: each command asks the valid bits before it looks at the buffer's length. -/
theorem useBeforeConstructionFaults : Obligations.UseBeforeConstructionFaults := by
  intro s hf
  refine ⟨fun hv => ?_, fun k hk hv => ?_, fun k hk hv => ?_⟩
  · exact faultsWith_of_exec_raise hf (exec_oscFill_of_not_v hf hv)
  · exact faultsWith_of_exec_raise hf (exec_bqApply_of_not_v hf hk hv)
  · have hall : ¬s.allValid = true := fun hall => by simpa [hv] using (allValid_iff s).mp hall k hk
    exact faultsWith_of_exec_raise hf (exec_casApply_of_not_allValid hf hall)

end Sys2Proof.Machine
end

section
/-!
PROOFS, reset and hazards (70_reset_and_hazards): what the registers hold after hardware reset (R220, R41).
-/
namespace Sys2Proof.Machine

/-- STATUS is made of FAULT, CAUSE and OSCV (R35). -/
theorem State.status_eq_zero {s : State} (hf : s.fault = false) (hc : s.cause = .none) (hv : s.osc.v = false) :
    s.status = 0#64 := by
  rw [State.status, hf, hc, hv]
  decide

/-- Every stage of the register file is a copy of one reset stage. -/
theorem powerOn_atReset (cfg : Config) (n : Nat) : (State.powerOn cfg n).atReset := by
  refine ⟨rfl, rfl, State.status_eq_zero rfl rfl rfl, ⟨rfl, rfl, rfl, rfl⟩, rfl, ⟨rfl, rfl, rfl, rfl⟩,
    ⟨rfl, rfl, rfl, rfl, rfl⟩, fun st hst => ?_⟩
  obtain rfl : st = Stage.reset := List.eq_of_mem_replicate hst
  exact ⟨⟨rfl, rfl, rfl, rfl, rfl⟩, ⟨rfl, rfl, rfl, rfl⟩, rfl⟩

/-- The host's side and the reset counter, which hardware reset does not set as power-on does, are no registers of R41. -/
theorem State.hardwareReset_atReset (s : State) : s.hardwareReset.atReset :=
  powerOn_atReset s.cfg s.nstages

/-- Settles O9: hardware reset powers the block on anew, with the parameters and the host's events it had. -/
theorem hardwareResetValues : Obligations.HardwareResetValues := by
  refine ⟨powerOn_atReset _ _, fun s rest hp => ?_⟩
  obtain ⟨hcfg, hnstages⟩ := SameBlock.hardwareReset { s with pending := rest }
  exact ⟨_, step_hardwareReset s rest hp, State.hardwareReset_atReset _, hcfg, hnstages, rfl⟩

end Sys2Proof.Machine
end
